-- ==== Sys2Proof/Word.lean ====
section
/-! DEFINITION. The word types of the engine: bytes, binary32 patterns, indices, command words, and the
three pairs of 32-bit halves that fill one 64-bit unit of storage (spec 00_scope.md R14, R15; 30_encoding.md R100, R112 to R114). -/

namespace Sys2Proof

/-- A byte of a region or of a unit of storage. -/
abbrev Byte := BitVec 8

/-- A binary32 datum as its 32-bit pattern: bit 31 sign, bits 30:23 exponent, bits 22:0 fraction (R15). -/
abbrev F32 := BitVec 32

/-- An index, count or loop register of `IDX_BITS = 32` bits, unsigned (R12). -/
abbrev Idx := BitVec 32

/-- A command word `CMD[7:0]` (R100). -/
abbrev CmdWord := BitVec 8

/-- An element: real part `x`, imaginary part `y` (R15, R112). -/
structure Cplx where
  x : F32
  y : F32
  deriving DecidableEq, Repr, Inhabited

/-- The two 32-bit halves of an element, each single-copy atomic (20_memory.md R76). -/
inductive Half where
  | x
  | y
  deriving DecidableEq, Repr, Inhabited

/-- A twiddle pair or correction pair: the cosine and the negated sine (R15, R113). -/
structure TrigPair where
  c : F32
  ns : F32
  deriving DecidableEq, Repr, Inhabited

/-- A swap pair of two indices (R15, R114). -/
structure SwapPair where
  i : Nat
  j : Nat
  deriving DecidableEq, Repr, Inhabited

end Sys2Proof
end

