-- ==== Sys2Proof/Syntax.lean ====
section
/-! DEFINITION. The commands of the sequencer, one constructor per row of the opcode table (spec 30_encoding.md R101, R102).
No command has a register operand or an immediate (R104). The only operand is one of the two buffers. -/

namespace Sys2Proof

/-- The two ping-pong buffers (10_state.md R38). -/
inductive Buf where
  | A
  | B
  deriving DecidableEq, Repr, Inhabited

/-- The commands (R101). The operand of the five buffer commands is the buffer the field `b` names. -/
inductive Instr where
  | twgen
  | brgen
  | ctgen
  | ingest (b : Buf)
  | transpose (b : Buf)
  | fft (b : Buf)
  | correct (b : Buf)
  | emit (b : Buf)
  | barrier
  | next
  | halt
  deriving DecidableEq, Repr

end Sys2Proof
end

