-- ==== Sys2Proof/Config.lean ====
section
/-! DEFINITION. What an instance fixes (configuration and parameters of the step relation, spec 00_scope.md R6 to R13,
10_state.md R26, 30_encoding.md R110, R111) and the free values: constants with no body, so that nothing can be proved of
the value the spec leaves open. -/

namespace Sys2Proof

/-- The position at which a free value is drawn: `step` is State's counter `draws`, `row` and `pos` tell apart the values
drawn within one step. -/
structure Draw where
  step : Nat
  row : Nat
  pos : Nat
  deriving DecidableEq, Repr, Inhabited

/-- Which NaN an invalid operation or a NaN operand gives (00_scope.md R19, 93 U4): a raw pattern. -/
opaque Config.freeNaN : Draw → F32

/-- An element of the retained quadrant of a TRANSPOSE's source after the call (43_transpose_exchange.md R182, 93 U7). -/
opaque Config.freeElem : Draw → Cplx

/-- An index register whose value the spec leaves unspecified (10_state.md R33, 93 U14). -/
opaque Config.freeIdx : Draw → Idx

/-- For each 32-bit half of an element, which of the writes in flight to it a racing read sees: a number at or beyond their count stands
for none of them, the old value (20_memory.md R76, R91, 93 U12). -/
opaque Config.freeTear : Draw → Nat × Nat

/-- Whether a racing write of a half was performed before the command's own last write of that half (20_memory.md R76, R91). -/
opaque Config.freeOrder : Draw → Bool

/-- The fabric's answer to a transfer enqueue once State's list of answers is used up (43_transpose_exchange.md R179, 93 U8). -/
opaque Config.freeEnqueue : Draw → Bool

/-- The amount a command adds to a cycle counter (10_state.md R46, 93 U13). -/
opaque Config.freeCycles : Draw → BitVec 64

/-- A byte of the input region that State does not list: whatever the host put there (20_memory.md R66). -/
opaque Config.inByte : Nat → Byte

/-- The arithmetic of a platform other than the reference (00_scope.md R18, 93 U6), one per platform number. -/
opaque Config.platformFadd : Nat → F32 → F32 → F32
/-- Subtraction of a platform other than the reference. -/
opaque Config.platformFsub : Nat → F32 → F32 → F32
/-- Multiplication of a platform other than the reference. -/
opaque Config.platformFmul : Nat → F32 → F32 → F32

/-- `TRIG(num, den)` of a platform other than the reference: a pure function of the two naturals (40_precompute.md R120). -/
opaque Config.platformTrig : Nat → Nat → Nat → TrigPair

/-- The arithmetic an instance uses: the reference of R18 and R19, or a platform's own. -/
inductive ArithSource where
  | ieee754
  | platform (k : Nat)
  deriving DecidableEq, Repr, Inhabited

/-- The trigonometric source of the generators (R120): the reference (correctly rounded), or a platform's own. -/
inductive TrigSource where
  | reference
  | platform (k : Nat)
  deriving DecidableEq, Repr, Inhabited

/-- The numerics record of an instance as plain data (00_scope.md section 5, R18, R120). -/
structure Numerics where
  arith : ArithSource
  trig : TrigSource
  deriving DecidableEq, Repr, Inhabited

/-- `XFER_GROUPING` (43_transpose_exchange.md R194): one enqueue per peer and row, or one per peer. -/
inductive Grouping where
  | perRow
  | perPeer
  deriving DecidableEq, Repr, Inhabited

/-- The parameters of the step relation that every engine of the system shares: the program and its iteration entry
(30_encoding.md R110, R111), the numerics record, the transfer granularity. -/
structure Params where
  prog : List CmdWord
  iterEntry : BitVec 8
  numerics : Numerics
  grouping : Grouping
  deriving DecidableEq, Repr

/-- The configuration of one engine: the seven read-only registers of 10_state.md R26, and the capacities and the buffer
alignment of 00_scope.md R12 (`bufAlign` is an OPEN parameter that no rule reads, 20_memory.md R75). -/
structure NodeCfg where
  nodeId : BitVec 4
  nbWorkers : BitVec 5
  nbCores : BitVec 5
  tile : BitVec 32
  width : BitVec 32
  height : BitVec 32
  nIter : BitVec 32
  twCap : Nat
  brCap : Nat
  ctCap : Nat
  bufAlign : Nat
  deriving DecidableEq, Repr, Inhabited

/-- `MAX_LOG2_TILE` (R12). -/
def Config.maxLog2Tile : Nat := 15

/-- The ROM `PROG` of 30_encoding.md R110. -/
def Config.rom : List CmdWord :=
  [0x10#8, 0x20#8, 0x30#8, 0x90#8, 0x40#8, 0x50#8, 0x68#8, 0x58#8, 0x70#8, 0x60#8, 0x50#8, 0x88#8, 0x90#8, 0xA0#8, 0xB0#8]

/-- `ITER_ENTRY` of R110. -/
def Config.romIterEntry : BitVec 8 := 4#8

end Sys2Proof
end

