-- ==== Sys2Proof/WellFormed.lean ====
section
/-! DEFINITION. What is well formed: every command (its operand is one of two buffers, so no term of Instr is ill formed),
a program (at most 256 words, spec 30_encoding.md R111), and the configuration of one engine (00_scope.md R13). -/

namespace Sys2Proof

/-- Every term of `Instr` names a legal command: the buffer operand is typed, and there is no other field (30_encoding.md R101, R104). -/
def Instr.wf : Instr → Bool
  | .twgen | .brgen | .ctgen | .barrier | .next | .halt => true
  | .ingest _ | .transpose _ | .fft _ | .correct _ | .emit _ => true

/-- A program has at most 256 entries (10_state.md R28, 30_encoding.md R111). -/
def Program.wf (p : List CmdWord) : Bool := p.length ≤ 256

/-- The conditions of R13 that concern one engine alone. -/
def NodeCfg.wf (c : NodeCfg) : Bool :=
  (c.nbWorkers.toNat == 1 || c.nbWorkers.toNat == 2 || c.nbWorkers.toNat == 4 || c.nbWorkers.toNat == 8
    || c.nbWorkers.toNat == 16)
  && (decide (1 ≤ c.nbCores.toNat) && decide (c.nbCores.toNat ≤ 16))
  && (c.tile.toNat == 2 ^ Nat.log2 c.tile.toNat)
  && (decide (c.nbWorkers.toNat ≤ c.tile.toNat) && decide (c.tile.toNat ≤ 2 ^ Config.maxLog2Tile))
  && (c.width == c.tile && c.height == c.tile)
  && decide (c.nodeId.toNat < c.nbWorkers.toNat)
  && decide (1 ≤ c.nIter.toNat)

end Sys2Proof
end

