-- ==== Sys2Proof/Decode.lean ====
section
/-! DEFINITION. The decoder of the 8-bit command word, total and rejecting by name, and the encoder (spec 30_encoding.md R100,
R101, R105). -/

namespace Sys2Proof

/-- Why a word is illegal (R105). -/
inductive DecodeError where
  /-- `op` is 0x0 or 0xC to 0xF. -/
  | reservedOp
  /-- the field `z` is not 000. -/
  | nonzeroZ
  /-- `b = 1` with an operation that has no buffer operand. -/
  | bufferBitSet
  deriving DecidableEq, Repr

/-- Field `op`, bits [7:4]. -/
def CmdWord.op (w : CmdWord) : BitVec 4 := w.extractLsb' 4 4

/-- Field `b`, bit [3]. -/
def CmdWord.b (w : CmdWord) : Bool := w.getLsbD 3

/-- Field `z`, bits [2:0]. -/
def CmdWord.z (w : CmdWord) : BitVec 3 := w.extractLsb' 0 3

/-- The buffer a bit names: 0 is A, 1 is B (R100). -/
def Buf.ofBit : Bool → Buf
  | false => .A
  | true => .B

/-- The bit that names a buffer (R100). -/
def Buf.toBit : Buf → Bool
  | .A => false
  | .B => true

/-- A command without buffer operand: bit 3 must be 0 (R105). -/
def noBuffer (w : CmdWord) (i : Instr) : Except DecodeError Instr :=
  if CmdWord.b w then .error .bufferBitSet else .ok i

/-- The operation of a word whose field `z` is 000 (R101). -/
def decodeOp (w : CmdWord) : Except DecodeError Instr :=
  match (CmdWord.op w).toNat with
  | 1 => noBuffer w .twgen
  | 2 => noBuffer w .brgen
  | 3 => noBuffer w .ctgen
  | 4 => .ok (.ingest (Buf.ofBit (CmdWord.b w)))
  | 5 => .ok (.transpose (Buf.ofBit (CmdWord.b w)))
  | 6 => .ok (.fft (Buf.ofBit (CmdWord.b w)))
  | 7 => .ok (.correct (Buf.ofBit (CmdWord.b w)))
  | 8 => .ok (.emit (Buf.ofBit (CmdWord.b w)))
  | 9 => noBuffer w .barrier
  | 10 => noBuffer w .next
  | 11 => noBuffer w .halt
  | _ => .error .reservedOp

/-- The decoder (R100, R101, R105): one word is one command. -/
def decode (w : CmdWord) : Except DecodeError Instr :=
  if CmdWord.z w = 0 then decodeOp w else .error .nonzeroZ

/-- The decoder on the bytes at the fetch position: the command and the bytes after it, `none` where there is no byte or
the word is illegal. -/
def decodeBytes : List Byte → Option (Instr × List Byte)
  | [] => none
  | w :: rest =>
    match decode w with
    | .ok i => some (i, rest)
    | .error _ => none

/-- A word from its fields `op` and `b`, with `z = 000`. -/
def packWord (op : BitVec 4) (b : Bool) : CmdWord := op ++ (BitVec.ofBool b ++ 0#3)

/-- The encoder (R101). -/
def encode : Instr → CmdWord
  | .twgen => packWord 0x1#4 false
  | .brgen => packWord 0x2#4 false
  | .ctgen => packWord 0x3#4 false
  | .ingest b => packWord 0x4#4 b.toBit
  | .transpose b => packWord 0x5#4 b.toBit
  | .fft b => packWord 0x6#4 b.toBit
  | .correct b => packWord 0x7#4 b.toBit
  | .emit b => packWord 0x8#4 b.toBit
  | .barrier => packWord 0x9#4 false
  | .next => packWord 0xA#4 false
  | .halt => packWord 0xB#4 false

/-- The host's entry: the instruction the decoder reads from the bits `w` of a row of `nbits` bits. The first word is
the low byte. Every command is one byte, so higher bits belong to no command. -/
def decodeTableWord (_nbits w : Nat) : Option Instr :=
  (decodeBytes [BitVec.ofNat 8 w]).map (·.1)

end Sys2Proof
end

