-- ==== Sys2Proof/Machine/State.lean ====
section
/-! DEFINITION. The state of a system of node engines as plain data: everything spec 10_state.md R25 gives one engine, for every
engine of the system, the barrier primitive's arrival counts (44_pipeline_driver.md R206), the two regions (20_memory.md R66, R67), the
parameters of the step relation (R25) and the coming choices of the world. Then the reasons a step can stop, and reset (R49). -/

namespace Sys2Proof.Machine

/-- A storage space as a list of (byte address, byte), addresses strictly rising. An address that is not listed holds no
value (10_state.md R39). Unit `e` of a buffer or table is the 8 bytes from `8 * e` (20_memory.md R70, R71, R73). -/
abbrev Memory := List Host.Cell

/-- `RUN` (R30). -/
inductive Run where
  | idle
  | running
  | done
  | fatal
  deriving DecidableEq, Repr, Inhabited

/-- Where the sequencer stands inside the command at `PC`: at its beginning, or in one of the waits the spec gives a
command (60_exceptions.md R233). -/
inductive Stage where
  /-- at the beginning of a command. -/
  | begin
  /-- INGEST, its read of `IN` not yet answered (44_pipeline_driver.md R202). -/
  | reading
  /-- INGEST, all bytes of its read here. -/
  | read
  /-- TRANSPOSE phase 3 (43_transpose_exchange.md R183). -/
  | transfers
  /-- TRANSPOSE phase 5 (R186). -/
  | rendezvous
  /-- EMIT, its write to `OUT` not yet locally complete (44_pipeline_driver.md R203). -/
  | writing
  /-- EMIT, in its fence (R204). -/
  | fence
  /-- BARRIER, arrived and not released (R206). -/
  | barrier
  deriving DecidableEq, Repr, Inhabited

/-- A transfer descriptor (30_encoding.md R115), offsets and strides in elements. -/
structure XferDesc where
  srcNode : Nat
  dstNode : Nat
  srcBuf : Buf
  dstBuf : Buf
  srcOff : Nat
  srcStride : Nat
  dstOff : Nat
  dstStride : Nat
  count : Nat
  deriving DecidableEq, Repr, Inhabited

/-- A member of `OUTSTANDING` (R44): its descriptor, the source values captured at the enqueue, and the writes not yet performed, each
the index of an element and the half of it, since an element is not promised atomic across its halves (20_memory.md R76 b). -/
structure Transfer where
  desc : XferDesc
  values : List Cplx
  pending : List (Nat × Half)
  deriving DecidableEq, Repr, Inhabited

/-- A write to `OUT` handed to the fabric and not yet visible (20_memory.md R80, R89): one byte at a byte offset, since the host may
see any mixture of old and new bytes before the fence (70_reset_and_hazards.md R271). -/
structure OutWrite where
  off : Nat
  val : Byte
  deriving DecidableEq, Repr, Inhabited

/-- The only kind of log event (30_encoding.md R116). -/
inductive LogKind where
  | xferEnqFail
  deriving DecidableEq, Repr, Inhabited

/-- A log event (R116). -/
structure LogEvent where
  kind : LogKind
  node : Nat
  dstNode : Nat
  srcRow : Nat
  deriving DecidableEq, Repr, Inhabited

/-- One core's working registers during FFT (R34). -/
structure FftRegs where
  row : Idx
  rowEnd : Idx
  swi : Idx
  m : Idx
  k : Idx
  j : Idx
  twp : Idx
  x : TrigPair
  u : Cplx
  t : Cplx
  deriving DecidableEq, Repr, Inhabited

/-- One core's working registers during CORRECT (R35). -/
structure CorrectRegs where
  row : Idx
  rowEnd : Idx
  col : Idx
  ph : Cplx
  om : TrigPair
  deriving DecidableEq, Repr, Inhabited

/-- One core's working registers: private copies, no sharing (R34, R35). -/
structure CoreRegs where
  fft : FftRegs
  correct : CorrectRegs
  deriving DecidableEq, Repr, Inhabited

/-- The working registers of the generators (R36): TWGEN `M K J WP`, BRGEN `I J K WP`, CTGEN `R G`. -/
structure GenRegs where
  twM : Idx
  twK : Idx
  twJ : Idx
  twWp : Idx
  brI : Idx
  brJ : Idx
  brK : Idx
  brWp : Idx
  ctR : Idx
  ctG : Idx
  deriving DecidableEq, Repr, Inhabited

/-- The working registers of TRANSPOSE (R37). -/
structure XposeRegs where
  q : Idx
  r : Idx
  xc : Idx
  deriving DecidableEq, Repr, Inhabited

/-- All working registers of one engine (R33 to R37). -/
structure Work where
  cores : List CoreRegs
  gen : GenRegs
  xpose : XposeRegs
  deriving DecidableEq, Repr, Inhabited

/-- One node engine (R25). -/
structure Engine where
  /-- the configuration (R26). -/
  cfg : NodeCfg
  /-- `PC` (R28). -/
  pc : BitVec 8
  /-- `ITER_LEFT` (R29). -/
  iterLeft : Idx
  /-- `RUN` (R30). -/
  run : Run
  /-- `STATUS` (R31). -/
  status : BitVec 32
  /-- where inside the command at `PC` the sequencer stands (R30). -/
  stage : Stage
  /-- buffer `A` (R38). -/
  bufA : Memory
  /-- buffer `B` (R38). -/
  bufB : Memory
  /-- the TwiddleTable (R40). -/
  tw : Memory
  /-- `TW_LEN` (R40). -/
  twLen : Idx
  /-- the BitReverseLUT (R41). -/
  br : Memory
  /-- `BR_LEN` (R41). -/
  brLen : Idx
  /-- the CorrectionTable (R42). -/
  ct : Memory
  /-- the rendezvous counter (R43). -/
  rdv : BitVec 32
  /-- `OUTSTANDING` (R44). -/
  outstanding : List Transfer
  /-- `PENDING_ADD`: the target nodes of the posted increments (R45). -/
  pendingAdd : List Nat
  /-- bytes of `OUT` handed to the fabric and not yet visible (20_memory.md R80). -/
  outPending : List OutWrite
  /-- `COMM_CYCLES` (R46). -/
  commCycles : BitVec 64
  /-- `COMP_CYCLES` (R46). -/
  compCycles : BitVec 64
  /-- the log stream (R47). -/
  log : List LogEvent
  /-- the working registers (R33 to R37). -/
  work : Work
  deriving DecidableEq, Repr, Inhabited

/-- A turn of one agent, or an action of the host (00_scope.md R17, 60_exceptions.md R243). -/
inductive Event where
  /-- the host starts engine `q` (44_pipeline_driver.md R201). -/
  | start (q : Nat)
  /-- the host resets all engines and the barrier primitive together (70_reset_and_hazards.md R255, R262). -/
  | reset
  /-- the sequencer of node `q` takes its step (R200). -/
  | sequencer (q : Nat)
  /-- the transfer agent of member `i` of node `p`'s `OUTSTANDING` performs one half of its element write `x` (43_transpose_exchange.md R180,
  20_memory.md R76). -/
  | deliver (p i x : Nat) (h : Half)
  /-- the increment agent of member `i` of node `p`'s `PENDING_ADD` performs its add (R185). -/
  | add (p i : Nat)
  /-- the fabric answers node `q`'s blocking access to a region: all bytes of an INGEST's read are here, or an EMIT's write is locally
  complete (20_memory.md R80). -/
  | answer (q : Nat)
  /-- the fabric makes the pending byte `i` of node `p` visible in `OUT` (20_memory.md R80). -/
  | outWrite (p i : Nat)
  deriving DecidableEq, Repr, Inhabited

/-- The state of the whole system. -/
structure State where
  /-- the parameters of the step relation (R25). -/
  params : Params
  /-- the engines; the engine at index `q` is node `q`. -/
  engines : List Engine
  /-- the barrier primitive's arrival counts `ARR_q` (44_pipeline_driver.md R206). -/
  arrivals : List Nat
  /-- the input region `IN` (20_memory.md R66). -/
  inRegion : Memory
  /-- the output region `OUT` (20_memory.md R67). -/
  outRegion : Memory
  /-- the node whose sequencer moves when no event is listed, and whose command `exec` runs. -/
  node : Nat
  /-- the coming turns and host actions, oldest first. -/
  events : List Event
  /-- the fabric's coming answers to enqueues, oldest first (43_transpose_exchange.md R179). -/
  answers : List Bool
  /-- how many steps have drawn free values so far: the counter the free values of Config are applied to. -/
  draws : Nat
  deriving DecidableEq, Repr

/-- What stops the machine. -/
inductive Fault where
  /-- a command reads a buffer element or table entry that holds no value, or a table whose valid bit is 0 (10_state.md R39, 40_precompute.md
  R133, 60_exceptions.md R234): raised by TRANSPOSE, FFT, CORRECT and EMIT. Safe: the hardware goes on with an unspecified value. -/
  | unwrittenRead
  /-- an access outside a space's range (20_memory.md R65, R79): raised by FFT for a swap pair that is no pair of columns and by the agents of a
  transfer, an increment or an output write whose target does not exist. Safe: no run under a legal configuration forms one. -/
  | outOfRange
  deriving DecidableEq, Repr

/-- What the model gives no step. -/
inductive Refusal where
  /-- an instruction without a meaning, raised by exec's refused arms. Safe. -/
  | notModelled (mnemonic : String)
  /-- the configuration is not legal (00_scope.md R13, 93 U1): raised by step. Safe: the spec gives no behaviour. -/
  | illegalConfig
  /-- a reset while something is in flight or a sequencer can step (70_reset_and_hazards.md R255, 93 U20): raised by the host's reset event. Safe. -/
  | resetInFlight
  deriving DecidableEq, Repr

/-- The working registers after reset: unspecified by R49, zero here (DESIGN CHOICE, log 6). -/
def Work.zero (cores : Nat) : Work :=
  { cores := List.replicate cores default, gen := default, xpose := default }

/-- One engine after reset (R49). -/
def Engine.reset (c : NodeCfg) : Engine where
  cfg := c
  pc := 0
  iterLeft := 0
  run := .idle
  status := 0
  stage := .begin
  bufA := []
  bufB := []
  tw := []
  twLen := 0
  br := []
  brLen := 0
  ct := []
  rdv := 0
  outstanding := []
  pendingAdd := []
  outPending := []
  commCycles := 0
  compCycles := 0
  log := []
  work := Work.zero c.nbCores.toNat

/-- The configuration of node `q` of the reset instance (DESIGN CHOICE, log 5): the one of the spec's program 4, default capacities. -/
def resetCfg (q : Nat) : NodeCfg where
  nodeId := BitVec.ofNat 4 q
  nbWorkers := 2
  nbCores := 2
  tile := 4
  width := 4
  height := 4
  nIter := 1
  twCap := 4
  brCap := 4
  ctCap := 2
  bufAlign := 8

/-- The system right after reset (R49, 70_reset_and_hazards.md R256, R257). -/
def State.reset : State where
  params :=
    { prog := Config.rom, iterEntry := Config.romIterEntry,
      numerics := { arith := .ieee754, trig := .reference }, grouping := .perRow }
  engines := [Engine.reset (resetCfg 0), Engine.reset (resetCfg 1)]
  arrivals := [0, 0]
  inRegion := []
  outRegion := []
  node := 0
  events := []
  answers := []
  draws := 0

end Sys2Proof.Machine
end

