-- ==== Sys2Proof/Machine/Numerics.lean ====
section
/-! DEFINITION. Arithmetic: the binary32 operations of spec 00_scope.md R18 and R19, the complex helpers of R20, and `TRIG` of
40_precompute.md R120, each computed exactly on naturals or integers and rounded once. -/

namespace Sys2Proof.Machine

/-- The exponent field, bits 30:23. -/
def F32.expo (a : F32) : Nat := a.toNat / 2 ^ 23 % 256

/-- The fraction field, bits 22:0. -/
def F32.frac (a : F32) : Nat := a.toNat % 2 ^ 23

/-- The sign bit, bit 31. -/
def F32.sign (a : F32) : Bool := a.getLsbD 31

/-- A NaN pattern: exponent all ones, fraction not zero. -/
def F32.isNaN (a : F32) : Bool := F32.expo a == 255 && F32.frac a != 0

/-- An infinity: exponent all ones, fraction zero. -/
def F32.isInf (a : F32) : Bool := F32.expo a == 255 && F32.frac a == 0

/-- A finite datum. -/
def F32.isFinite (a : F32) : Bool := F32.expo a != 255

/-- A zero of either sign. -/
def F32.isZero (a : F32) : Bool := F32.expo a == 0 && F32.frac a == 0

/-- The magnitude of a finite datum in units of 2^-149 (subnormals included, none flushed: R18). -/
def F32.mag (a : F32) : Nat :=
  if F32.expo a = 0 then F32.frac a else (F32.frac a + 2 ^ 23) * 2 ^ (F32.expo a - 1)

/-- The value of a finite datum in units of 2^-149. -/
def F32.value (a : F32) : Int := if F32.sign a then -(F32.mag a : Int) else (F32.mag a : Int)

/-- `fneg`: bit 31 flipped, nothing else (R19). -/
def fneg (a : F32) : F32 := a ^^^ 0x80000000#32

/-- A pattern from a sign and the lower 31 bits. -/
def F32.pack (neg : Bool) (low : Nat) : F32 := BitVec.ofNat 32 (low + if neg then 2 ^ 31 else 0)

/-- `mag / 2^sh` rounded to the nearest natural, ties to even. -/
def roundShift (mag sh : Nat) : Nat :=
  let q := mag / 2 ^ sh
  let rem2 := mag % 2 ^ sh * 2
  if 2 ^ sh < rem2 ∨ (rem2 = 2 ^ sh ∧ q % 2 = 1) then q + 1 else q

/-- The lower 31 bits of the binary32 nearest to `mag * 2^-(149+t)`, ties to even: gradual underflow at the bottom, infinity
at the top (R18). -/
def roundMag (mag t : Nat) : Nat :=
  let e := Nat.log2 mag + 1 - t - 24
  min (e * 2 ^ 23 + roundShift mag (t + e)) 0x7F800000

/-- Some NaN: the drawn pattern, which is free among the NaN patterns (R19). -/
def drawNaN (d : Draw) : F32 :=
  if F32.isNaN (Config.freeNaN d) then Config.freeNaN d else 0x7FC00000#32

/-- The reference addition (R18, R19). -/
def ieeeAdd (d : Draw) (a b : F32) : F32 :=
  if F32.isNaN a || F32.isNaN b then drawNaN d
  else if F32.isInf a then (if F32.isInf b && F32.sign a != F32.sign b then drawNaN d else a)
  else if F32.isInf b then b
  else
    let v := F32.value a + F32.value b
    if v = 0 then F32.pack (F32.sign a && F32.sign b) 0
    else F32.pack (decide (v < 0)) (roundMag v.natAbs 0)

/-- The reference subtraction: the addition of the negated operand. -/
def ieeeSub (d : Draw) (a b : F32) : F32 := ieeeAdd d a (fneg b)

/-- The reference multiplication (R18, R19). -/
def ieeeMul (d : Draw) (a b : F32) : F32 :=
  if F32.isNaN a || F32.isNaN b then drawNaN d
  else if F32.isInf a || F32.isInf b then
    (if F32.isZero a || F32.isZero b then drawNaN d else F32.pack (F32.sign a != F32.sign b) 0x7F800000)
  else F32.pack (F32.sign a != F32.sign b) (roundMag (F32.mag a * F32.mag b) 149)

/-- `fadd` of the instance's numerics record. -/
def fadd (s : ArithSource) (d : Draw) (a b : F32) : F32 :=
  match s with
  | .ieee754 => ieeeAdd d a b
  | .platform k => Config.platformFadd k a b

/-- `fsub` of the instance's numerics record. -/
def fsub (s : ArithSource) (d : Draw) (a b : F32) : F32 :=
  match s with
  | .ieee754 => ieeeSub d a b
  | .platform k => Config.platformFsub k a b

/-- `fmul` of the instance's numerics record. -/
def fmul (s : ArithSource) (d : Draw) (a b : F32) : F32 :=
  match s with
  | .ieee754 => ieeeMul d a b
  | .platform k => Config.platformFmul k a b

/-- The draw `k` positions further on. -/
def drawAt (d : Draw) (k : Nat) : Draw := { d with pos := d.pos + k }

/-- `cadd` (R20); the operations draw at the positions 0 and 1. -/
def cadd (s : ArithSource) (d : Draw) (u t : Cplx) : Cplx :=
  { x := fadd s (drawAt d 0) u.x t.x, y := fadd s (drawAt d 1) u.y t.y }

/-- `csub` (R20); the operations draw at the positions 0 and 1. -/
def csub (s : ArithSource) (d : Draw) (u t : Cplx) : Cplx :=
  { x := fsub s (drawAt d 0) u.x t.x, y := fsub s (drawAt d 1) u.y t.y }

/-- `cmul`, the schoolbook product (R20); the operations draw at the positions 0 to 5. -/
def cmul (s : ArithSource) (d : Draw) (a b : Cplx) : Cplx :=
  { x := fsub s (drawAt d 2) (fmul s (drawAt d 0) a.x b.x) (fmul s (drawAt d 1) a.y b.y),
    y := fadd s (drawAt d 5) (fmul s (drawAt d 3) a.x b.y) (fmul s (drawAt d 4) a.y b.x) }

/-- The precision of the reference `TRIG`: fixed point with 149 + 128 fraction bits (log 14). -/
def trigBits : Nat := 277

/-- pi rounded down to `trigBits` fraction bits. -/
def piFixed : Nat :=
  762884290021721530496943270716201736923289228050992841272898934261287788407549371652

/-- Taylor terms of cosine and sine at `x`, from term number `k` of value `t` on: the sums of the even and of the odd terms
with their signs, in fixed point. -/
def taylor (x : Nat) : Nat → Nat → Nat → Int × Int
  | 0, _, _ => (0, 0)
  | fuel + 1, k, t =>
    let r := taylor x fuel (k + 1) (t * x / (2 ^ trigBits * (k + 1)))
    match k % 4 with
    | 0 => (r.1 + t, r.2)
    | 1 => (r.1, r.2 + t)
    | 2 => (r.1 - t, r.2)
    | _ => (r.1, r.2 - t)

/-- Cosine and sine of a quarter turn times `r/den`, `r < den`, rounded once to binary32 magnitudes. -/
def quarterTrig (r den : Nat) : Nat × Nat :=
  let cs := taylor (piFixed * r / (2 * den)) 80 0 (2 ^ trigBits)
  (roundMag cs.1.toNat 128, roundMag cs.2.toNat 128)

/-- The reference `TRIG(num, den)` (R120): the correctly rounded cosine of 2*pi*num/den and the negation of the correctly rounded
sine, an exact zero rounding to +0 before the negation. The angle is reduced exactly to a quarter turn. -/
def trigReference (num den : Nat) : TrigPair :=
  let r := 4 * (num % den)
  let cs := quarterTrig (r % den) den
  let neg (low : Nat) : F32 := F32.pack (r % den != 0 || low != 0) low
  let pos (low : Nat) : F32 := F32.pack false low
  match r / den with
  | 0 => { c := pos cs.1, ns := fneg (pos cs.2) }
  | 1 => { c := neg cs.2, ns := fneg (pos cs.1) }
  | 2 => { c := neg cs.1, ns := fneg (neg cs.2) }
  | _ => { c := pos cs.2, ns := fneg (neg cs.1) }

/-- `TRIG(num, den)` of the instance's numerics record (R120). -/
def trig (s : TrigSource) (num den : Nat) : TrigPair :=
  match s with
  | .reference => trigReference num den
  | .platform k => Config.platformTrig k num den

end Sys2Proof.Machine
end

