-- ==== Sys2Proof/Machine/Flags.lean ====
section
/-! DEFINITION. The fields of `STATUS` (spec 10_state.md R31, R32): where each flag stands, and setting one field leaves the others. The
engine has no condition codes. No arithmetic result sets a flag (R32). -/

namespace Sys2Proof.Machine

/-- Bit [0] `DONE`. -/
def Flag.done : Nat := 0
/-- Bit [1] `FATAL`. -/
def Flag.fatal : Nat := 1
/-- Bit [2] `XFER_ERR`. -/
def Flag.xferErr : Nat := 2
/-- Bit [3] `TW_VALID`. -/
def Flag.twValid : Nat := 3
/-- Bit [4] `BR_VALID`. -/
def Flag.brValid : Nat := 4
/-- Bit [5] `CT_VALID`. -/
def Flag.ctValid : Nat := 5
/-- Bit [6] `STARTED`. -/
def Flag.started : Nat := 6

/-- Bit `i` of a status word. -/
def flagOf (w : BitVec 32) (i : Nat) : Bool := w.getLsbD i

/-- The status word with bit `i` set to `v`, every other bit as before. -/
def setFlag (w : BitVec 32) (i : Nat) (v : Bool) : BitVec 32 :=
  if v then w ||| BitVec.twoPow 32 i else w &&& ~~~(BitVec.twoPow 32 i)

/-- Field `CODE`, bits [15:8]. -/
def codeOf (w : BitVec 32) : BitVec 8 := w.extractLsb' 8 8

/-- The status word with `CODE` set to `c`, every other bit as before. -/
def setCode (w : BitVec 32) (c : BitVec 8) : BitVec 32 :=
  w.extractLsb' 16 16 ++ (c ++ w.extractLsb' 0 8)

/-- The fatal faults (60_exceptions.md R225). -/
inductive FatalCause where
  | allocFail
  | lutOverflow
  | illegalCmd
  deriving DecidableEq, Repr

/-- The cause codes (R235). -/
def fatalCode : FatalCause → BitVec 8
  | .allocFail => 1
  | .lutOverflow => 2
  | .illegalCmd => 3

end Sys2Proof.Machine
end

