-- ==== Sys2Proof/Machine/Operands.lean ====
section
/-! DEFINITION. What a command's operands name: the buffers (spec 30_encoding.md R102), the constants derived from the configuration
(10_state.md R27), the legality of a system (00_scope.md R13), element addresses (20_memory.md R71, R72, 44_pipeline_driver.md R205), the
loop nest of the radix-2 stages (40_precompute.md R121, 41_fft_kernel.md R143), the row partition (R141), the transfer descriptors
(43_transpose_exchange.md R178). -/

namespace Sys2Proof.Machine

/-- `other(b)` (R16 of 00_scope.md). -/
def other : Buf → Buf
  | .A => .B
  | .B => .A

/-! The derived constants of 10_state.md R27. -/

/-- `N = TILE_WIDTH = TILE`. -/
def cfgN (c : NodeCfg) : Nat := c.tile.toNat
/-- `NB`. -/
def cfgNB (c : NodeCfg) : Nat := c.nbWorkers.toNat
/-- `C`. -/
def cfgC (c : NodeCfg) : Nat := c.nbCores.toNat
/-- `P`, this node. -/
def cfgP (c : NodeCfg) : Nat := c.nodeId.toNat
/-- `TH = TILE div NB_WORKERS`. -/
def cfgTH (c : NodeCfg) : Nat := cfgN c / cfgNB c
/-- `L = log2 N`. -/
def cfgL (c : NodeCfg) : Nat := Nat.log2 (cfgN c)
/-- `BAND_OFFSET = NODE_ID * TH`. -/
def bandOffset (c : NodeCfg) : Nat := cfgP c * cfgTH c
/-- `BAND_BYTES = N * TH * 8`. -/
def bandBytes (c : NodeCfg) : Nat := cfgN c * cfgTH c * 8
/-- `BAND_BYTE_OFFSET = NODE_ID * BAND_BYTES`. -/
def bandByteOffset (c : NodeCfg) : Nat := cfgP c * bandBytes c
/-- The size of a region, `WIDTH * HEIGHT * 8` bytes (20_memory.md R66, R67). -/
def regionBytes (c : NodeCfg) : Nat := c.width.toNat * c.height.toNat * 8
/-- The number of elements of a buffer, `TH * N` (10_state.md R38). -/
def bufElems (c : NodeCfg) : Nat := cfgTH c * cfgN c
/-- The number of twiddle pairs, `(N div 2) * L` (40_precompute.md R122). -/
def twNeed (c : NodeCfg) : Nat := cfgN c / 2 * cfgL c

/-- Engine `q`'s configuration is legal and agrees with engine 0's on what R13 says is the same in every engine. -/
def cfgAgrees (c0 : NodeCfg) (q : Nat) (c : NodeCfg) : Bool :=
  c.wf && c.nodeId.toNat == q && c.nbWorkers == c0.nbWorkers && c.tile == c0.tile && c.width == c0.width
    && c.height == c0.height && c.nIter == c0.nIter

/-- The legality of the engines from index `q` on. -/
def enginesLegal (c0 : NodeCfg) : Nat → List Engine → Bool
  | _, [] => true
  | q, e :: es => cfgAgrees c0 q e.cfg && enginesLegal c0 (q + 1) es

/-- A legal system (R13): `NB` engines, the engine at index `q` being node `q`, one arrival count per node, a program of at
most 256 words (30_encoding.md R111). -/
def State.legal (s : State) : Bool :=
  match s.engines with
  | [] => false
  | e0 :: _ =>
    enginesLegal e0.cfg 0 s.engines && s.engines.length == cfgNB e0.cfg && s.arrivals.length == cfgNB e0.cfg
      && Program.wf s.params.prog

/-- The element offset of local element `(r, c)` (20_memory.md R71). -/
def elemOffset (c : NodeCfg) (r col : Nat) : Nat := r * cfgN c + col

/-- The byte offset of local element `e` in the regions: band-relative (44_pipeline_driver.md R205). -/
def bandAddress (c : NodeCfg) (e : Nat) : Nat := bandByteOffset c + 8 * e

/-- One butterfly of the loop nest: stage length `m`, block start `k`, butterfly index `j`. -/
structure Bfly where
  m : Nat
  k : Nat
  j : Nat
  deriving DecidableEq, Repr, Inhabited

/-- The butterflies of the stage of length `m`: blocks `k = 0, m, 2m, …` below `n`, in each `j` in `[0, m/2)` (R121, R143). -/
def stageNest (n m : Nat) : List Bfly :=
  (List.range (n / m)).flatMap fun blk => (List.range (m / 2)).map fun j => { m := m, k := blk * m, j := j }

/-- The loop nest TWGEN writes and FFT reads the table in: stages `m = 2, 4, …, 2^l` (R121, R143). -/
def loopNest (n l : Nat) : List Bfly :=
  (List.range l).flatMap fun s => stageNest n (2 ^ (s + 1))

/-- The number of rows of core `c` (41_fft_kernel.md R141). -/
def coreCount (th cores c : Nat) : Nat := th / cores + if c < th % cores then 1 else 0

/-- The first row of core `c` (R141). -/
def coreStart (th cores c : Nat) : Nat := c * (th / cores) + min c (th % cores)

/-- The rows of core `c`, ascending (R141, R142). -/
def coreRows (th cores c : Nat) : List Nat := List.range' (coreStart th cores c) (coreCount th cores c)

/-- The rows of all cores, core after core: one of the orders 20_memory.md R83 allows. -/
def forkRows (th cores : Nat) : List Nat := (List.range cores).flatMap fun c => coreRows th cores c

/-- The descriptor of `XFER(P, Q, R)` for source buffer `b` (43_transpose_exchange.md R178). -/
def xferDesc (c : NodeCfg) (b : Buf) (q r : Nat) : XferDesc where
  srcNode := cfgP c
  dstNode := q
  srcBuf := b
  dstBuf := other b
  srcOff := r * cfgN c + q * cfgTH c
  srcStride := 1
  dstOff := cfgP c * cfgTH c + r
  dstStride := cfgN c
  count := cfgTH c

/-- The source element offset of element `x` of a transfer (30_encoding.md R115). -/
def XferDesc.srcAt (d : XferDesc) (x : Nat) : Nat := d.srcOff + x * d.srcStride

/-- The destination element offset of element `x` of a transfer (R115). -/
def XferDesc.dstAt (d : XferDesc) (x : Nat) : Nat := d.dstOff + x * d.dstStride

/-- The peers of this node, ascending (R177). -/
def peers (c : NodeCfg) : List Nat := (List.range (cfgNB c)).filter fun q => q != cfgP c

/-- One enqueue of a TRANSPOSE: the peer it serves, the source row where it serves one row, and the row transfers that are
accepted or refused together. -/
structure XferGroup where
  dst : Nat
  row : Option Nat
  descs : List XferDesc
  deriving DecidableEq, Repr, Inhabited

/-- The enqueues of a TRANSPOSE in order, one per peer and row, or one per peer (R175, R177, R194). -/
def xferGroups (g : Grouping) (c : NodeCfg) (b : Buf) : List XferGroup :=
  match g with
  | .perRow =>
    (peers c).flatMap fun q => (List.range (cfgTH c)).map fun r =>
      { dst := q, row := some r, descs := [xferDesc c b q r] }
  | .perPeer =>
    (peers c).map fun q => { dst := q, row := none, descs := (List.range (cfgTH c)).map fun r => xferDesc c b q r }

/-- The pairs `(R, XC)` of the retained quadrant (R181). -/
def quadrant (c : NodeCfg) : List (Nat × Nat) :=
  (List.range (cfgTH c)).flatMap fun r => (List.range (cfgTH c)).map fun xc => (r, xc)

/-- The offset in the source of quadrant element `(R, XC)`: `[R][P*TH + XC]` (R181). -/
def quadSrc (c : NodeCfg) (p : Nat × Nat) : Nat := elemOffset c p.1 (cfgP c * cfgTH c + p.2)

/-- The offset in the destination of quadrant element `(R, XC)`: `[XC][P*TH + R]` (R181). -/
def quadDst (c : NodeCfg) (p : Nat × Nat) : Nat := elemOffset c p.2 (cfgP c * cfgTH c + p.1)

end Sys2Proof.Machine
end

