-- ==== Sys2Proof/Machine/Ops.lean ====
section
/-! DEFINITION. The named operations over storage and registers: bytes, 32-bit halves and 64-bit units of a space (spec 20_memory.md
R70, R71, R73), the engines of a system, the fatal entry (60_exceptions.md R230), the completion of a command (44_pipeline_driver.md R200),
the cycle counters (10_state.md R46), racing accesses (20_memory.md R91), the host's register view (10_state.md R48). -/

namespace Sys2Proof.Machine

/-! ### Storage -/

/-- The byte at an address, `none` where nothing has been written (10_state.md R39). -/
def Memory.read : Memory → Nat → Option Byte
  | [], _ => none
  | (a, v) :: m, k => if a = k then some v else Memory.read m k

/-- The byte at an address replaced, the addresses kept strictly rising. -/
def Memory.write : Memory → Nat → Byte → Memory
  | [], k, v => [(k, v)]
  | (a, w) :: m, k, v =>
    if k < a then (k, v) :: (a, w) :: m
    else if k = a then (k, v) :: m
    else (a, w) :: Memory.write m k v

/-- The canonical form: addresses strictly rising. An unlisted address holds no value, so no entry can equal it. -/
def Memory.wf : Memory → Bool
  | [] => true
  | [_] => true
  | (a, _) :: (b, w) :: m => decide (a < b) && Memory.wf ((b, w) :: m)

/-- Byte `i` of a 32-bit half, little-endian (R70). -/
def byteOf (v : F32) (i : Nat) : Byte := v.extractLsb' (8 * i) 8

/-- A 32-bit half from its four bytes, byte 0 holding bits [7:0] (R70). -/
def wordOf (b0 b1 b2 b3 : Byte) : F32 := b3 ++ (b2 ++ (b1 ++ b0))

/-- The 32-bit half at a byte address. -/
def Memory.read32 (m : Memory) (a : Nat) : Option F32 :=
  match m.read a, m.read (a + 1), m.read (a + 2), m.read (a + 3) with
  | some b0, some b1, some b2, some b3 => some (wordOf b0 b1 b2 b3)
  | _, _, _, _ => none

/-- The 32-bit half at a byte address replaced. -/
def Memory.write32 (m : Memory) (a : Nat) (v : F32) : Memory :=
  (((m.write a (byteOf v 0)).write (a + 1) (byteOf v 1)).write (a + 2) (byteOf v 2)).write (a + 3) (byteOf v 3)

/-- The unit at a byte address as its two halves, real part (cosine, index `i`) first (R70, R73). -/
def Memory.readAt (m : Memory) (a : Nat) : Option Cplx :=
  match m.read32 a, m.read32 (a + 4) with
  | some x, some y => some { x := x, y := y }
  | _, _ => none

/-- The unit at a byte address replaced. -/
def Memory.writeAt (m : Memory) (a : Nat) (v : Cplx) : Memory := (m.write32 a v.x).write32 (a + 4) v.y

/-- Unit `e` of a buffer or table (R71, R73). -/
def Memory.readElem (m : Memory) (e : Nat) : Option Cplx := m.readAt (8 * e)

/-- Unit `e` of a buffer or table replaced. -/
def Memory.writeElem (m : Memory) (e : Nat) (v : Cplx) : Memory := m.writeAt (8 * e) v

/-- A half of an element. -/
def halfOf (v : Cplx) : Half → F32
  | .x => v.x
  | .y => v.y

/-- The byte address of a half of unit `e` (R70). -/
def halfAt (e : Nat) : Half → Nat
  | .x => 8 * e
  | .y => 8 * e + 4

/-- One half of unit `e` replaced (R76). -/
def Memory.writeHalf (m : Memory) (e : Nat) (h : Half) (v : F32) : Memory := m.write32 (halfAt e h) v

/-- Byte `i` of the 8 bytes of an element, the real part first (R70). -/
def elemByte (v : Cplx) (i : Nat) : Byte := if i < 4 then byteOf v.x i else byteOf v.y (i - 4)

/-- The `n` units from `e` on, `none` if one of them holds no value. -/
def Memory.readElems (m : Memory) (e : Nat) : Nat → Option (List Cplx)
  | 0 => some []
  | n + 1 =>
    match m.readElem e, Memory.readElems m (e + 1) n with
    | some v, some vs => some (v :: vs)
    | _, _ => none

/-- The units from `e` on replaced by a list. -/
def Memory.writeElems (m : Memory) (e : Nat) : List Cplx → Memory
  | [] => m
  | v :: vs => Memory.writeElems (m.writeElem e v) (e + 1) vs

/-- Single units replaced at the offsets given. -/
def Memory.writeAll (m : Memory) : List (Nat × Cplx) → Memory
  | [] => m
  | (e, v) :: rest => Memory.writeAll (m.writeElem e v) rest

/-- A table entry read as a twiddle or correction pair (30_encoding.md R113). -/
def TrigPair.ofCplx (v : Cplx) : TrigPair := { c := v.x, ns := v.y }

/-- A twiddle or correction pair as it is stored; read as a complex number it is `c + i*ns` (R113). -/
def TrigPair.toCplx (p : TrigPair) : Cplx := { x := p.c, y := p.ns }

/-- A table entry read as a swap pair (R114). -/
def SwapPair.ofCplx (v : Cplx) : SwapPair := { i := v.x.toNat, j := v.y.toNat }

/-- A swap pair as it is stored (R114). -/
def SwapPair.toCplx (p : SwapPair) : Cplx := { x := BitVec.ofNat 32 p.i, y := BitVec.ofNat 32 p.j }

/-! ### Engines of the system -/

/-- An engine that is not there. -/
def Engine.absent : Engine := Engine.reset default

/-- Node `q`. -/
def State.eng (s : State) (q : Nat) : Engine := s.engines.getD q Engine.absent

/-- The node whose sequencer moves. -/
def State.cur (s : State) : Engine := s.eng s.node

/-- Node `q` changed by `f`, every other node as before. -/
def State.modEng (s : State) (q : Nat) (f : Engine → Engine) : State :=
  { s with engines := s.engines.set q (f (s.eng q)) }

/-- The node whose sequencer moves changed by `f`. -/
def State.modCur (s : State) (f : Engine → Engine) : State := s.modEng s.node f

/-- The free-value counter advanced: the step drew its values. -/
def State.tick (s : State) : State := { s with draws := s.draws + 1 }

/-- A buffer of an engine. -/
def Engine.buf (e : Engine) : Buf → Memory
  | .A => e.bufA
  | .B => e.bufB

/-- A buffer of an engine replaced. -/
def Engine.setBuf (e : Engine) (b : Buf) (m : Memory) : Engine :=
  match b with
  | .A => { e with bufA := m }
  | .B => { e with bufB := m }

/-- A flag of `STATUS` written. -/
def Engine.flag (e : Engine) (i : Nat) (v : Bool) : Engine := { e with status := setFlag e.status i v }

/-! ### Cycle counters (10_state.md R46, 44_pipeline_driver.md R214) -/

/-- A counter plus a drawn amount, never falling: it stays at its last value rather than wrap. -/
def addCycles (c amount : BitVec 64) : BitVec 64 :=
  if c.toNat + amount.toNat < 2 ^ 64 then c + amount else BitVec.allOnes 64

/-- Communication cycles of a command. -/
def Engine.chargeComm (n : Nat) (e : Engine) : Engine :=
  { e with commCycles := addCycles e.commCycles (Config.freeCycles { step := n, row := 0, pos := 0 }) }

/-- Compute cycles of a command. -/
def Engine.chargeComp (n : Nat) (e : Engine) : Engine :=
  { e with compCycles := addCycles e.compCycles (Config.freeCycles { step := n, row := 1, pos := 0 }) }

/-! ### Working registers after a command: unspecified (10_state.md R33, 93 U14) -/

/-- A free index register. -/
def freeReg (n row pos : Nat) : Idx := Config.freeIdx { step := n, row := row, pos := pos }

/-- A free element register. -/
def freeCplx (n row pos : Nat) : Cplx := { x := freeReg n row pos, y := freeReg n row (pos + 1) }

/-- A free pair register. -/
def freePair (n row pos : Nat) : TrigPair := { c := freeReg n row pos, ns := freeReg n row (pos + 1) }

/-- The working registers of core `c`, free. -/
def freeCore (n c : Nat) : CoreRegs where
  fft :=
    { row := freeReg n c 0, rowEnd := freeReg n c 1, swi := freeReg n c 2, m := freeReg n c 3, k := freeReg n c 4,
      j := freeReg n c 5, twp := freeReg n c 6, x := freePair n c 7, u := freeCplx n c 9, t := freeCplx n c 11 }
  correct :=
    { row := freeReg n c 13, rowEnd := freeReg n c 14, col := freeReg n c 15, ph := freeCplx n c 16,
      om := freePair n c 18 }

/-- The working registers of the generators, free. -/
def freeGen (n c : Nat) : GenRegs :=
  { twM := freeReg n c 0, twK := freeReg n c 1, twJ := freeReg n c 2, twWp := freeReg n c 3, brI := freeReg n c 4,
    brJ := freeReg n c 5, brK := freeReg n c 6, brWp := freeReg n c 7, ctR := freeReg n c 8, ctG := freeReg n c 9 }

/-- The working registers of TRANSPOSE, free. -/
def freeXpose (n c : Nat) : XposeRegs :=
  { q := freeReg n c 10, r := freeReg n c 11, xc := freeReg n c 12 }

/-- All working registers of an engine of `cores` cores, free. -/
def freeWork (n cores : Nat) : Work :=
  { cores := (List.range cores).map (freeCore n), gen := freeGen n cores, xpose := freeXpose n cores }

/-! ### Completion, fatal entry, stop -/

/-- The fatal entry (60_exceptions.md R230): `RUN`, `FATAL` and `CODE`, with `PC` and everything written so far kept. There is no return
from it (R231). -/
def Engine.fatalEntry (c : FatalCause) (e : Engine) : Engine :=
  { e with run := .fatal, status := setCode (setFlag e.status Flag.fatal true) (fatalCode c), stage := .begin }

/-- `pc <- pc + 1`. `PC` never wraps (10_state.md R28): past index 255 lies beyond every program, which is ILLEGAL_CMD (log 17). -/
def Engine.advance (e : Engine) : Engine :=
  if e.pc = 255#8 then e.fatalEntry .illegalCmd else { e with pc := e.pc + 1 }

/-- The end of a command: no longer inside it, its working registers unspecified (R33, R81). -/
def Engine.leave (n : Nat) (e : Engine) : Engine :=
  { e with stage := .begin, work := freeWork n (cfgC e.cfg) }

/-- A command completed: left, and `PC` advanced (R200). -/
def Engine.complete (n : Nat) (e : Engine) : Engine := (e.leave n).advance

/-! ### Racing accesses (20_memory.md R76, R91) -/

/-- The value that element write `x` of a transfer carries. -/
def Transfer.valueAt (t : Transfer) (x : Nat) : Cplx := t.values.getD x default

/-- Writes in flight towards one buffer: the element offset and the half each writes, and the value it carries. -/
abbrev Incoming := List ((Nat × Half) × F32)

/-- The writes in flight towards buffer `b` of node `q`. -/
def State.incoming (s : State) (q : Nat) (b : Buf) : Incoming :=
  s.engines.flatMap fun e => e.outstanding.flatMap fun t =>
    if t.desc.dstNode = q ∧ t.desc.dstBuf = b then
      t.pending.map fun w => ((t.desc.dstAt w.1, w.2), halfOf (t.valueAt w.1) w.2)
    else []

/-- The values on their way to one half of an element. -/
def newHalves (inc : Incoming) (e : Nat) (h : Half) : List F32 :=
  (inc.filter fun w => w.1 == (e, h)).map fun w => w.2

/-- A read of element `e` whose stored value is `old`: each half on its own is the old one or one of those on their way (R76, R91). -/
def raceRead (inc : Incoming) (d : Draw) (e : Nat) (old : Cplx) : Cplx where
  x := (newHalves inc e .x).getD (Config.freeTear d).1 old.x
  y := (newHalves inc e .y).getD (Config.freeTear d).2 old.y

/-- The writes of one transfer that stay in flight after a command has written all of buffer `b` of node `q`: a racing write of a half may
have come before the command's own and then is already overwritten (R76, R91). -/
def Transfer.settle (n q : Nat) (b : Buf) (p : Nat) (t : Transfer) : Transfer :=
  if t.desc.dstNode = q ∧ t.desc.dstBuf = b then
    { t with
      pending := t.pending.filter fun w => !Config.freeOrder { step := n, row := p, pos := halfAt (t.desc.dstAt w.1) w.2 } }
  else t

/-- Transfers with nothing left to write have completed and leave `OUTSTANDING` (43_transpose_exchange.md R180). -/
def stillPending (ts : List Transfer) : List Transfer := ts.filter fun t => !t.pending.isEmpty

/-- The transfers of one engine after a command has written all of buffer `b` of node `q`. -/
def Engine.settle (n q : Nat) (b : Buf) (e : Engine) : Engine :=
  { e with outstanding := stillPending (e.outstanding.map (Transfer.settle n q b (cfgP e.cfg))) }

/-- Every engine's transfers after the current node's command has written all of its buffer `b`: nothing changes where no write to it is
in flight. -/
def State.settle (s : State) (b : Buf) : State :=
  if (s.incoming s.node b).isEmpty then s
  else { s with engines := s.engines.map (Engine.settle s.draws s.node b) }

/-! ### The host's view of the registers (10_state.md R26, R48) -/

/-- Register `n` as the host reads it, with no side effect. Reserved registers read zero. -/
def Engine.readRegister (e : Engine) (n : Nat) : BitVec 32 :=
  match n with
  | 0x00 => e.cfg.nodeId.setWidth 32
  | 0x01 => e.cfg.nbWorkers.setWidth 32
  | 0x02 => e.cfg.nbCores.setWidth 32
  | 0x03 => e.cfg.tile
  | 0x04 => e.cfg.width
  | 0x05 => e.cfg.height
  | 0x06 => e.cfg.nIter
  | 0x08 => e.status
  | 0x09 => e.pc.setWidth 32
  | 0x0A => e.iterLeft
  | 0x0B => e.twLen
  | 0x0C => e.brLen
  | 0x0D => e.rdv
  | 0x0E => e.commCycles.extractLsb' 0 32
  | 0x0F => e.commCycles.extractLsb' 32 32
  | 0x10 => e.compCycles.extractLsb' 0 32
  | 0x11 => e.compCycles.extractLsb' 32 32
  | _ => 0

end Sys2Proof.Machine
end

