-- ==== Sys2Proof/Machine/Rows.lean ====
section
/-! DEFINITION. What FFT and CORRECT share: reading a table (spec 40_precompute.md R133) and running the tasks of a fork over the rows of a
buffer (41_fft_kernel.md R141, R142, 20_memory.md R83). -/

namespace Sys2Proof.Machine

/-- The first `n` entries of a table of `len` valid entries. An entry of a table whose valid bit is 0, or at or beyond its
length, holds no value (R133). Reading no entry reads nothing. -/
def readTable (valid : Bool) (len : Nat) (m : Memory) (n : Nat) : Option (List Cplx) :=
  if n = 0 then some [] else if valid && decide (n ≤ len) then m.readElems 0 n else none

/-- Each of the rows given, in turn, replaced by what `f` makes of it: `none` if an element of one holds no value. -/
def overRows (n : Nat) (f : Nat → List Cplx → List Cplx) : List Nat → Memory → Option Memory
  | [], m => some m
  | r :: rs, m =>
    match m.readElems (r * n) n with
    | some row => overRows n f rs (m.writeElems (r * n) (f r row))
    | none => none

/-- All rows of an engine's buffer `b`, core after core (R141, R142). -/
def forkOver (e : Engine) (b : Buf) (f : Nat → List Cplx → List Cplx) : Option Memory :=
  overRows (cfgN e.cfg) f (forkRows (cfgTH e.cfg) (cfgC e.cfg)) (e.buf b)

/-- Column `i` of a row as a core reads it: the value held, or where a peer's write to it is in flight, half by half the old or the new
one (20_memory.md R91). `base` is the element offset of the row. -/
def fetchCol (inc : Incoming) (base : Nat) (d : Draw) (row : List Cplx) (i : Nat) : Cplx :=
  raceRead inc d (base + i) (row.getD i default)

/-- The state after a command has replaced all of the current node's buffer `b` by `m` and completed, its time charged as computing. -/
def State.rewrote (s : State) (b : Buf) (m : Memory) : State :=
  ((s.settle b).modCur fun e => ((e.setBuf b m).chargeComp s.draws).complete s.draws).tick

end Sys2Proof.Machine
end

