-- ==== Sys2Proof/Machine/Correct.lean ====
section
/-! DEFINITION. The phase-correction stage: command CORRECT, micro-operations ROT and PHADV (spec 42_phase_correction.md). -/

namespace Sys2Proof.Machine

/-- `ROT` (R162): the sample times the phasor, `cmul(v, PH)`. -/
def rot (a : ArithSource) (d : Draw) (v ph : Cplx) : Cplx := cmul a d v ph

/-- `PHADV` (R163): the phasor times the row's step, `cmul(PH, OM)`, both components from the old phasor. -/
def phadv (a : ArithSource) (d : Draw) (ph : Cplx) (om : TrigPair) : Cplx := cmul a d ph (TrigPair.toCplx om)

/-- The first phasor of a row, `(1.0, +0.0)` (R161). -/
def phasorOne : Cplx := { x := 0x3F800000#32, y := 0x00000000#32 }

/-- The columns of a row from column `j` on, with the phasor `ph` at `j` (R161). -/
def correctCols (a : ArithSource) (inc : Incoming) (base : Nat) (om : TrigPair) :
    Draw → Nat → Cplx → List Cplx → List Cplx
  | _, _, _, [] => []
  | d, j, ph, v :: vs =>
    rot a (drawAt d 1) (raceRead inc d (base + j) v) ph
      :: correctCols a inc base om (drawAt d 16) (j + 1) (phadv a (drawAt d 7) ph om) vs

/-- One row (R161). -/
def correctRow (a : ArithSource) (inc : Incoming) (base : Nat) (d : Draw) (om : TrigPair)
    (row : List Cplx) : List Cplx :=
  correctCols a inc base om d 0 phasorOne row

/-- The buffer after CORRECT (R160, R161), or the fault of R167. -/
def correctBuffer (a : ArithSource) (n : Nat) (inc : Incoming) (e : Engine) (b : Buf) :
    Except Fault Memory :=
  match readTable (flagOf e.status Flag.ctValid) (cfgTH e.cfg) e.ct (cfgTH e.cfg) with
  | some ct =>
    match forkOver e b fun r row =>
        correctRow a inc (r * cfgN e.cfg) { step := n, row := r, pos := 0 } (TrigPair.ofCplx (ct.getD r default)) row with
    | some m => .ok m
    | none => .error .unwrittenRead
  | none => .error .unwrittenRead

/-- `CORRECT b` (R160). -/
def execCorrect (b : Buf) (s : State) : Host.Outcome State Fault Refusal :=
  match correctBuffer s.params.numerics.arith s.draws (s.incoming s.node b) s.cur b with
  | .ok m => .next (s.rewrote b m)
  | .error f => .fault f

end Sys2Proof.Machine
end

