-- ==== Sys2Proof/Machine/Exchange.lean ====
section
/-! DEFINITION. The transpose/exchange engine: command TRANSPOSE, micro-operations XFER, LTR, RDVADD, RDVWAIT (spec
43_transpose_exchange.md), and the steps of the agents of its transfers and increments (R180, R185). -/

namespace Sys2Proof.Machine

/-- The values at the offsets given, `none` if one of them holds no value. -/
def readAll (rd : Nat → Option Cplx) : List Nat → Option (List Cplx)
  | [] => some []
  | e :: es =>
    match rd e, readAll rd es with
    | some v, some vs => some (v :: vs)
    | _, _ => none

/-- The writes of a transfer of `n` elements: both halves of each. -/
def allHalves (n : Nat) : List (Nat × Half) := (List.range n).flatMap fun x => [(x, .x), (x, .y)]

/-- A transfer as it joins `OUTSTANDING`: its source values captured, nothing written yet (R180, 20_memory.md R84). -/
def capture (rd : Nat → Option Cplx) (d : XferDesc) : Option Transfer :=
  match readAll rd ((List.range d.count).map d.srcAt) with
  | some vs => some { desc := d, values := vs, pending := allHalves d.count }
  | none => none

/-- The row transfers of one enqueue. -/
def captureAll (rd : Nat → Option Cplx) : List XferDesc → Option (List Transfer)
  | [] => some []
  | d :: ds =>
    match capture rd d, captureAll rd ds with
    | some t, some ts => some (t :: ts)
    | _, _ => none

/-- What phase 1 leaves: the transfers enqueued, the log events, the answers not used up, whether an enqueue failed. -/
structure Sent where
  out : List Transfer
  events : List LogEvent
  answers : List Bool
  failed : Bool
  deriving DecidableEq, Repr, Inhabited

/-- The fabric's answer to enqueue `k` of step `n`: the next one listed, free where none is listed (R175, R179). -/
def enqueueAnswer (n k : Nat) : List Bool → Bool
  | [] => Config.freeEnqueue { step := n, row := 0, pos := k }
  | a :: _ => a

/-- The log event of a failed enqueue (R179, 30_encoding.md R116). A failed enqueue for a whole peer names no row: free (R194, log 16). -/
def enqueueFailure (p n k : Nat) (g : XferGroup) : LogEvent :=
  { kind := .xferEnqFail, node := p, dstNode := g.dst, srcRow := g.row.getD (freeReg n 0 k).toNat }

/-- Phase 1 (R175, R178, R179): the enqueues in order, from number `k` on. An accepted one captures its sources; a refused one is
logged and dropped, and the call goes on. `none` if a source element holds no value. -/
def enqueueAll (rd : Nat → Option Cplx) (p n : Nat) : Nat → List XferGroup → List Bool → Option Sent
  | _, [], ans => some { out := [], events := [], answers := ans, failed := false }
  | k, g :: gs, ans =>
    if enqueueAnswer n k ans then
      match captureAll rd g.descs, enqueueAll rd p n (k + 1) gs ans.tail with
      | some ts, some s => some { s with out := ts ++ s.out }
      | _, _ => none
    else
      match enqueueAll rd p n (k + 1) gs ans.tail with
      | some s => some { s with events := enqueueFailure p n k g :: s.events, failed := true }
      | none => none

/-- The source elements as TRANSPOSE reads them (20_memory.md R91). -/
def State.srcRead (s : State) (b : Buf) (e : Nat) : Option Cplx :=
  ((s.cur.buf b).readElem e).map (raceRead (s.incoming s.node b) { step := s.draws, row := 0, pos := e } e)

/-- The retained quadrant of the source after the call: unspecified, so free (R182). -/
def freeQuadrant (n : Nat) (c : NodeCfg) : List (Nat × Cplx) :=
  (quadrant c).map fun p => (quadSrc c p, Config.freeElem { step := n, row := 0, pos := quadSrc c p })

/-- `Q`, `R` and `XC` as phases 1 and 2 leave them for the wait of phase 3 (10_state.md R33, R37): `Q` is the last peer served, the old value
where there is no peer (R177); `R` and `XC` are some pair of the retained quadrant, the one the local transpose, in any order, took last (R181). -/
def sentRegs (n : Nat) (c : NodeCfg) (w : XposeRegs) : XposeRegs where
  q :=
    match (peers c).getLast? with
    | some q => BitVec.ofNat 32 q
    | none => w.q
  r := BitVec.ofNat 32 ((freeReg n (cfgC c) 11).toNat % cfgTH c)
  xc := BitVec.ofNat 32 ((freeReg n (cfgC c) 12).toNat % cfgTH c)

/-- The engine after phases 1 and 2: the transposed quadrant in the destination (LTR, R181), the source's quadrant free (R182), the accepted
transfers in `OUTSTANDING`, the failures logged and `XFER_ERR` set by one (R179), and the sequencer waiting in phase 3. -/
def Engine.sent (n : Nat) (b : Buf) (quad : List Cplx) (t : Sent) (e : Engine) : Engine :=
  let e1 := (e.setBuf (other b) ((e.buf (other b)).writeAll (((quadrant e.cfg).map (quadDst e.cfg)).zip quad))).setBuf b
    ((e.buf b).writeAll (freeQuadrant n e.cfg))
  { e1 with
    outstanding := e.outstanding ++ t.out
    log := e.log ++ t.events
    status := if t.failed then setFlag e.status Flag.xferErr true else e.status
    stage := .transfers
    work := { e.work with xpose := sentRegs n e.cfg e.work.xpose } }

/-- Phases 1 and 2 (R175): `none` if an element that is read holds no value. -/
def State.send (s : State) (b : Buf) : Option State :=
  match readAll (s.srcRead b) ((quadrant s.cur.cfg).map (quadSrc s.cur.cfg)) with
  | some quad =>
    match enqueueAll (s.srcRead b) (cfgP s.cur.cfg) s.draws 0 (xferGroups s.params.grouping s.cur.cfg b) s.answers with
    | some t => some { (s.modCur (Engine.sent s.draws b quad t)).tick with answers := t.answers }
    | none => none
  | none => none

/-- Phase 5 (R186, R187): wait for `RDV >= NB`, then subtract `NB` and complete. A wait that does not hold leaves the state as it is. -/
def State.pass (s : State) : State :=
  if cfgNB s.cur.cfg ≤ s.cur.rdv.toNat then
    (s.modCur fun e =>
      ((({ e with rdv := e.rdv - BitVec.ofNat 32 (cfgNB e.cfg) } : Engine).chargeComm s.draws).chargeComp
        s.draws).complete s.draws).tick
  else s

/-- Phase 4 on one engine (R184): one increment posted to every node, this one included, with `Q` left at the last of them (10_state.md R33). -/
def Engine.announced (e : Engine) : Engine :=
  { e with
    pendingAdd := e.pendingAdd ++ List.range (cfgNB e.cfg)
    stage := .rendezvous
    work := { e.work with xpose := { e.work.xpose with q := BitVec.ofNat 32 (cfgNB e.cfg - 1) } } }

/-- Phases 3 and 4 (R183, R184): wait for `OUTSTANDING` to be empty, then post one increment to every node, this one included,
and go on to phase 5. -/
def State.announce (s : State) : State :=
  if s.cur.outstanding.isEmpty then
    (s.modCur Engine.announced).pass
  else s

/-- `TRANSPOSE b` (R175), from where the sequencer stands in it. -/
def execTranspose (b : Buf) (s : State) : Host.Outcome State Fault Refusal :=
  match s.cur.stage with
  | .transfers => .next s.announce
  | .rendezvous => .next s.pass
  | .begin | .reading | .read | .writing | .fence | .barrier =>
    match s.send b with
    | some t => .next t.announce
    | none => .fault .unwrittenRead

/-! ### The agents -/

/-- A transfer with one write performed. -/
def Transfer.performed (t : Transfer) (w : Nat × Half) : Transfer := { t with pending := t.pending.erase w }

/-- Node `p`'s member `i` of `OUTSTANDING` with one write performed: it leaves when nothing is left to write (R180). -/
def Engine.performed (i : Nat) (w : Nat × Half) (e : Engine) : Engine :=
  { e with outstanding := stillPending (e.outstanding.modify i fun t => t.performed w) }

/-- One half of `PeerWrite(q, b, e, v)` (20_memory.md R76, R80): into a node's buffer, in any run state of that node (R192). -/
def Engine.peerWrite (b : Buf) (off : Nat) (h : Half) (v : F32) (e : Engine) : Engine :=
  e.setBuf b ((e.buf b).writeHalf off h v)

/-- The step of a transfer's agent (R180): half `h` of element write `x` of member `i` of node `p`'s `OUTSTANDING`, if it is still to be
performed. -/
def State.deliver (s : State) (p i x : Nat) (h : Half) : Host.Outcome State Fault Refusal :=
  match (s.eng p).outstanding[i]? with
  | none => .next s
  | some t =>
    if t.pending.contains (x, h) then
      if t.desc.dstNode < s.engines.length ∧ t.desc.dstAt x < bufElems (s.eng t.desc.dstNode).cfg then
        .next ((s.modEng t.desc.dstNode
          (Engine.peerWrite t.desc.dstBuf (t.desc.dstAt x) h (halfOf (t.valueAt x) h))).modEng p (Engine.performed i (x, h)))
      else .fault .outOfRange
    else .next s

/-- `CntAdd(q, 1)` (R185): one atomic add on a node's counter, in any run state of that node (R192). -/
def Engine.cntAdd (e : Engine) : Engine := { e with rdv := e.rdv + 1 }

/-- The step of an increment's agent (R185): member `i` of node `p`'s `PENDING_ADD`. -/
def State.performAdd (s : State) (p i : Nat) : Host.Outcome State Fault Refusal :=
  match (s.eng p).pendingAdd[i]? with
  | none => .next s
  | some q =>
    if q < s.engines.length then
      .next ((s.modEng q Engine.cntAdd).modEng p fun e => { e with pendingAdd := e.pendingAdd.eraseIdx i })
    else .fault .outOfRange

end Sys2Proof.Machine
end

