-- ==== Sys2Proof/Machine/Fft.lean ====
section
/-! DEFINITION. The FFT kernel: command FFT, micro-operations SWAP and BFLY (spec 41_fft_kernel.md). -/

namespace Sys2Proof.Machine

/-- `SWAP` (R144): two columns of a row exchanged bit for bit. -/
def swapCols (inc : Incoming) (base : Nat) (d : Draw) (p : SwapPair) (row : List Cplx) : List Cplx :=
  (row.set p.i (fetchCol inc base d row p.j)).set p.j (fetchCol inc base (drawAt d 1) row p.i)

/-- The combination of a butterfly (R146): from the upper element `u`, the lower element `v` and the twiddle pair, the new upper and the
new lower element. Ten operations, each rounded on its own. -/
def combine (a : ArithSource) (d : Draw) (x : TrigPair) (u v : Cplx) : Cplx × Cplx :=
  let t := cmul a d (TrigPair.toCplx x) v
  (cadd a (drawAt d 6) u t, csub a (drawAt d 8) u t)

/-- `BFLY(b, ROW, ia, ib, X)` (R146): both reads precede both writes. -/
def bfly (a : ArithSource) (inc : Incoming) (base : Nat) (d : Draw) (ia ib : Nat) (x : TrigPair)
    (row : List Cplx) : List Cplx :=
  let uv := combine a (drawAt d 2) x (fetchCol inc base (drawAt d 1) row ia) (fetchCol inc base d row ib)
  (row.set ia uv.1).set ib uv.2

/-- All swaps of a row in table order (R143, R144). -/
def swapAll (inc : Incoming) (base : Nat) : Draw → List SwapPair → List Cplx → List Cplx
  | _, [], row => row
  | d, p :: ps, row => swapAll inc base (drawAt d 16) ps (swapCols inc base d p row)

/-- The butterflies of a row in the order of the loop nest, each with the next twiddle pair (R143). -/
def bflyAll (a : ArithSource) (inc : Incoming) (base : Nat) :
    Draw → List (Bfly × TrigPair) → List Cplx → List Cplx
  | _, [], row => row
  | d, (q, x) :: rest, row =>
    bflyAll a inc base (drawAt d 16) rest (bfly a inc base d (q.k + q.j) (q.k + q.j + q.m / 2) x row)

/-- One row (R143): all swaps, then the stages, the twiddle pointer starting at 0. -/
def fftRow (a : ArithSource) (inc : Incoming) (base : Nat) (d : Draw) (swaps : List SwapPair)
    (steps : List (Bfly × TrigPair)) (row : List Cplx) : List Cplx :=
  bflyAll a inc base (drawAt d (16 * swaps.length)) steps (swapAll inc base d swaps row)

/-- The draw of row `r` within step `n`: the rows draw apart from one another, whichever core runs them. -/
def rowDraw (n r : Nat) : Draw := { step := n, row := r, pos := 0 }

/-- The buffer after FFT (R140 to R143), or the fault of R151. Where the tables hold nothing to do (`N = 1`, R150) the buffer
is not read at all. -/
def fftBuffer (a : ArithSource) (n : Nat) (inc : Incoming) (e : Engine) (b : Buf) : Except Fault Memory :=
  match readTable (flagOf e.status Flag.brValid) e.brLen.toNat e.br e.brLen.toNat,
      readTable (flagOf e.status Flag.twValid) e.twLen.toNat e.tw (twNeed e.cfg) with
  | some br, some tw =>
    let swaps := br.map SwapPair.ofCplx
    let steps := (loopNest (cfgN e.cfg) (cfgL e.cfg)).zip (tw.map TrigPair.ofCplx)
    if swaps.all (fun p => decide (p.i < cfgN e.cfg) && decide (p.j < cfgN e.cfg)) then
      if swaps.isEmpty && steps.isEmpty then .ok (e.buf b)
      else
        match forkOver e b fun r row => fftRow a inc (r * cfgN e.cfg) (rowDraw n r) swaps steps row with
        | some m => .ok m
        | none => .error .unwrittenRead
    else .error .outOfRange
  | _, _ => .error .unwrittenRead

/-- `FFT b` (R140). -/
def execFft (b : Buf) (s : State) : Host.Outcome State Fault Refusal :=
  match fftBuffer s.params.numerics.arith s.draws (s.incoming s.node b) s.cur b with
  | .ok m => .next (s.rewrote b m)
  | .error f => .fault f

end Sys2Proof.Machine
end

