-- ==== Sys2Proof/Machine/Sequencer.lean ====
section
/-! DEFINITION. The sequencer's own commands INGEST, EMIT (with FENCE), BARRIER, NEXT, HALT (spec 44_pipeline_driver.md), the fetch (R200),
and the fabric's step on a pending output write. -/

namespace Sys2Proof.Machine

/-- The sequencer at another stage of its command. -/
def Engine.atStage (st : Stage) (e : Engine) : Engine := { e with stage := st }

/-- The fabric's answer to the blocking access to a region that the sequencer waits for (20_memory.md R80): the bytes of a read are here, a
write is locally complete. A node that waits for neither takes no notice. -/
def Engine.answered (e : Engine) : Engine :=
  match e.stage with
  | .reading => e.atStage .read
  | .writing => e.atStage .fence
  | .begin | .read | .transfers | .rendezvous | .fence | .barrier => e

/-! ### INGEST (R202) -/

/-- A byte of the input region: what State lists, else whatever the host put there (20_memory.md R66). -/
def State.inByte (s : State) (a : Nat) : Byte := (s.inRegion.read a).getD (Config.inByte a)

/-- A 32-bit half of the input region, little-endian (20_memory.md R70). -/
def State.inWord (s : State) (a : Nat) : F32 :=
  wordOf (s.inByte a) (s.inByte (a + 1)) (s.inByte (a + 2)) (s.inByte (a + 3))

/-- An element of the input region at a byte offset (R202). -/
def State.inElem (s : State) (a : Nat) : Cplx := { x := s.inWord a, y := s.inWord (a + 4) }

/-- The elements of a node's band, in order (R202). -/
def State.inBand (s : State) (c : NodeCfg) : List Cplx :=
  (List.range (bufElems c)).map fun e => s.inElem (bandAddress c e)

/-- The read answered (R202): every element of `b` replaced by the band's, bits unchanged, and INGEST completes. -/
def State.ingested (s : State) (b : Buf) : State :=
  ((s.settle b).modCur fun e =>
    ((e.setBuf b ((e.buf b).writeElems 0 (s.inBand e.cfg))).chargeComm s.draws).complete s.draws).tick

/-- `INGEST b` (R202), from where the sequencer stands in it: the read is posted, and until the fabric has answered it the state stays as it is. -/
def execIngest (b : Buf) (s : State) : Host.Outcome State Fault Refusal :=
  match s.cur.stage with
  | .reading => .next s
  | .read => .next (s.ingested b)
  | .begin | .transfers | .rendezvous | .writing | .fence | .barrier => .next (s.modCur (Engine.atStage .reading))

/-! ### EMIT and FENCE (R203, R204) -/

/-- The bytes of one element on their way to `OUT` (R203, 20_memory.md R70). -/
def elemOut (off : Nat) (v : Cplx) : List OutWrite :=
  (List.range 8).map fun i => { off := off + i, val := elemByte v i }

/-- The writes to `OUT` for the elements of a buffer from element `k` on (R203). -/
def outWrites (inc : Incoming) (n : Nat) (c : NodeCfg) : Nat → List Cplx → List OutWrite
  | _, [] => []
  | k, v :: vs =>
    elemOut (bandAddress c k) (raceRead inc { step := n, row := 0, pos := k } k v) ++ outWrites inc n c (k + 1) vs

/-- `MemWrite(OUT, …)` (20_memory.md R80): the band handed to the fabric, which has yet to take all of it, `none` if an element holds no
value. -/
def State.handOver (s : State) (b : Buf) : Option State :=
  match (s.cur.buf b).readElems 0 (bufElems s.cur.cfg) with
  | some vs =>
    some (s.modCur fun e =>
      { e with
        outPending := e.outPending ++ outWrites (s.incoming s.node b) s.draws e.cfg 0 vs
        stage := .writing }).tick
  | none => none

/-- `FENCE` (R204): returns when every write of this engine to `OUT` is visible, and EMIT completes. Until then the state stays as it is. -/
def State.fenced (s : State) : State :=
  if s.cur.outPending.isEmpty then (s.modCur fun e => (e.chargeComm s.draws).complete s.draws).tick else s

/-- `EMIT b` (R203), from where the sequencer stands in it. -/
def execEmit (b : Buf) (s : State) : Host.Outcome State Fault Refusal :=
  match s.cur.stage with
  | .writing => .next s
  | .fence => .next s.fenced
  | .begin | .reading | .read | .transfers | .rendezvous | .barrier =>
    match s.handOver b with
    | some t => .next t
    | none => .fault .unwrittenRead

/-- The fabric's step: pending byte `i` of node `p` becomes visible in `OUT` (20_memory.md R80, R89, 70_reset_and_hazards.md R271). -/
def State.performOut (s : State) (p i : Nat) : Host.Outcome State Fault Refusal :=
  match (s.eng p).outPending[i]? with
  | none => .next s
  | some w =>
    if w.off < regionBytes (s.eng p).cfg then
      .next (({ s with outRegion := s.outRegion.write w.off w.val } : State).modEng p fun e =>
        { e with outPending := e.outPending.eraseIdx i })
    else .fault .outOfRange

/-! ### BARRIER (R206) -/

/-- The arrival counts the barrier primitive keeps: `ARR_q` of node `q`. -/
def State.arrivalsOf (s : State) (q : Nat) : Nat := s.arrivals.getD q 0

/-- The arrival: `ARR_P <- ARR_P + 1` (R206). -/
def State.arrive (s : State) : State :=
  ({ s with arrivals := s.arrivals.set s.node (s.arrivalsOf s.node + 1) } : State).modCur fun e =>
    e.atStage .barrier

/-- Every node has begun at least as many barriers as node `q` (R206). -/
def State.released (s : State) (q : Nat) : Bool := s.arrivals.all fun k => decide (s.arrivalsOf q ≤ k)

/-- The wait of a BARRIER (R206): completes when every node has arrived, else the state stays as it is. -/
def State.waitBarrier (s : State) : State :=
  if s.released s.node then (s.modCur fun e => (e.chargeComm s.draws).complete s.draws).tick else s

/-- `BARRIER` (R206), from where the sequencer stands in it. -/
def execBarrier (s : State) : Host.Outcome State Fault Refusal :=
  match s.cur.stage with
  | .barrier => .next s.waitBarrier
  | .begin | .reading | .read | .transfers | .rendezvous | .writing | .fence => .next s.arrive.waitBarrier

/-! ### NEXT and HALT (R207, R208) -/

/-- NEXT on one engine (R207): back to `ITER_ENTRY` while more than one iteration is left. -/
def Engine.nextIter (entry : BitVec 8) (n : Nat) (e : Engine) : Engine :=
  if 1 < e.iterLeft.toNat then ({ e with iterLeft := e.iterLeft - 1, pc := entry } : Engine).leave n
  else ({ e with iterLeft := 0 } : Engine).complete n

/-- `NEXT` (R207). -/
def execNext (s : State) : Host.Outcome State Fault Refusal :=
  .next (s.modCur (Engine.nextIter s.params.iterEntry s.draws)).tick

/-- HALT on one engine (R208): `PC` stays at the index of HALT. -/
def Engine.halt (n : Nat) (e : Engine) : Engine :=
  (({ e with run := .done } : Engine).flag Flag.done true).leave n

/-- `HALT` (R208). -/
def execHalt (s : State) : Host.Outcome State Fault Refusal := .next (s.modCur (Engine.halt s.draws)).tick

/-! ### Fetch (R200) -/

/-- What the fetch of the current node's sequencer finds. -/
inductive Fetched where
  /-- `RUN` is not RUNNING: the sequencer takes no step. -/
  | noStep
  /-- an index at or beyond the program's length, or an illegal word: ILLEGAL_CMD. -/
  | illegal
  /-- a command. -/
  | command (i : Instr)
  deriving DecidableEq, Repr

/-- The fetch (R200): the range check precedes the decode (60_exceptions.md R236). -/
def State.fetch (s : State) : Fetched :=
  if s.cur.run = .running then
    if s.params.prog.length ≤ s.cur.pc.toNat then .illegal
    else
      match decodeBytes (s.params.prog.drop s.cur.pc.toNat) with
      | some (i, _) => .command i
      | none => .illegal
  else .noStep

/-- The state after an illegal fetch (60_exceptions.md R228, R230). -/
def State.illegalFetch (s : State) : State := s.modCur (Engine.fatalEntry .illegalCmd)

end Sys2Proof.Machine
end

