-- ==== Sys2Proof/Machine/Tables.lean ====
section
/-! DEFINITION. Table generation: TWGEN, BRGEN, CTGEN (spec 40_precompute.md). Each is run by the sequencer itself and changes one engine. -/

namespace Sys2Proof.Machine

/-- The working registers of the generators replaced. -/
def Engine.setGen (e : Engine) (g : GenRegs) : Engine := { e with work := { e.work with gen := g } }

/-! ### TWGEN (R121 to R124) -/

/-- The entries TWGEN emits, in order: the value depends on `J` and `M` only (R121). -/
def twTable (src : TrigSource) (n l : Nat) : List TrigPair :=
  (loopNest n l).map fun q => trig src q.j q.m

/-- `STATUS.TW_VALID <- 0 ; TW_LEN <- 0 ; WP <- 0` (R121). -/
def Engine.twClear (e : Engine) : Engine :=
  (({ e with twLen := 0 } : Engine).flag Flag.twValid false).setGen { e.work.gen with twWp := 0 }

/-- TWGEN on one engine (R121): ALLOC_FAIL before any write if the table is too small (R123). -/
def Engine.twgen (src : TrigSource) (n : Nat) (e : Engine) : Engine :=
  let e0 := e.twClear.chargeComp n
  if e.cfg.twCap < twNeed e.cfg then e0.fatalEntry .allocFail
  else
    let table := twTable src (cfgN e.cfg) (cfgL e.cfg)
    let e1 : Engine :=
      { e0 with tw := e0.tw.writeElems 0 (table.map TrigPair.toCplx), twLen := BitVec.ofNat 32 table.length }
    (e1.flag Flag.twValid true).complete n

/-- `TWGEN` (R121). -/
def execTwgen (s : State) : Host.Outcome State Fault Refusal :=
  .next (s.modCur (Engine.twgen s.params.numerics.trig s.draws)).tick

/-! ### BRGEN (R125 to R128) -/

/-- The inner loop of the carry rule, `while K <= J: J <- J - K ; K <- K >> 1`, giving `(K, J)` (R125). The fuel is `N`: each pass halves
`K`, and the excluded index `N - 1`, on which the loop would not end (R128), is never given to it. -/
def carry : Nat → Nat → Nat → Nat × Nat
  | 0, k, j => (k, j)
  | fuel + 1, k, j => if k ≤ j then carry fuel (k / 2) (j - k) else (k, j)

/-- The loop registers of BRGEN, the pairs emitted so far, and whether LUT_OVERFLOW was raised. -/
structure BrRun where
  pairs : List SwapPair
  i : Nat
  j : Nat
  k : Nat
  wp : Nat
  overflow : Bool
  deriving DecidableEq, Repr, Inhabited

/-- The emission of one pass: `if I < J: BR[WP] <- (I, J) ; WP <- WP + 1` (R125). -/
def brEmit (r : BrRun) : BrRun :=
  if r.i < r.j then { r with pairs := r.pairs ++ [{ i := r.i, j := r.j }], wp := r.wp + 1 } else r

/-- The update of one pass: the carry rule on `J`, then `I <- I + 1` (R125). -/
def brCarry (n : Nat) (r : BrRun) : BrRun :=
  let kj := carry n (n / 2) r.j
  { r with k := kj.1, j := kj.2 + kj.1, i := r.i + 1 }

/-- The passes of BRGEN: LUT_OVERFLOW at the emission that makes the pair count reach `N` (R125, R127). -/
def brLoop (n : Nat) : Nat → BrRun → BrRun
  | 0, r => r
  | fuel + 1, r =>
    let r1 := brEmit r
    if r.i < r.j ∧ n ≤ r1.wp then { r1 with overflow := true } else brLoop n fuel (brCarry n r1)

/-- All passes, `I` in `[0, N - 1)` (R125, R128). `K` before the first pass is the register's old value. -/
def brRun (n k : Nat) : BrRun :=
  brLoop n (n - 1) { pairs := [], i := 0, j := 0, k := k, wp := 0, overflow := false }

/-- `STATUS.BR_VALID <- 0 ; BR_LEN <- 0 ; WP <- 0` (R125). -/
def Engine.brClear (e : Engine) : Engine :=
  (({ e with brLen := 0 } : Engine).flag Flag.brValid false).setGen { e.work.gen with brWp := 0 }

/-- BRGEN on one engine (R125): ALLOC_FAIL before the loop, LUT_OVERFLOW inside it with the pairs emitted so far written and the registers `I`,
`J`, `K`, `WP` as they then are (60_exceptions.md R227). -/
def Engine.brgen (n : Nat) (e : Engine) : Engine :=
  let e0 := e.brClear.chargeComp n
  if e.cfg.brCap < cfgN e.cfg then e0.fatalEntry .allocFail
  else
    let r := brRun (cfgN e.cfg) e.work.gen.brK.toNat
    let e1 : Engine := { e0 with br := e0.br.writeElems 0 (r.pairs.map SwapPair.toCplx) }
    if r.overflow then
      (e1.setGen
        { e1.work.gen with
          brI := BitVec.ofNat 32 r.i, brJ := BitVec.ofNat 32 r.j, brK := BitVec.ofNat 32 r.k,
          brWp := BitVec.ofNat 32 r.wp }).fatalEntry .lutOverflow
    else
      (({ e1 with brLen := BitVec.ofNat 32 r.wp } : Engine).flag Flag.brValid true).complete n

/-- `BRGEN` (R125). -/
def execBrgen (s : State) : Host.Outcome State Fault Refusal :=
  .next (s.modCur (Engine.brgen s.draws)).tick

/-! ### CTGEN (R129 to R131) -/

/-- The entries CTGEN emits: `TRIG(BAND_OFFSET + R, WIDTH * HEIGHT)` for each local row (R129). -/
def ctTable (src : TrigSource) (c : NodeCfg) : List TrigPair :=
  (List.range (cfgTH c)).map fun r => trig src (bandOffset c + r) (c.width.toNat * c.height.toNat)

/-- CTGEN on one engine (R129): ALLOC_FAIL before any write if the table is too small (R131). -/
def Engine.ctgen (src : TrigSource) (n : Nat) (e : Engine) : Engine :=
  let e0 := (e.flag Flag.ctValid false).chargeComp n
  if e.cfg.ctCap < cfgTH e.cfg then e0.fatalEntry .allocFail
  else
    let e1 : Engine := { e0 with ct := e0.ct.writeElems 0 ((ctTable src e.cfg).map TrigPair.toCplx) }
    (e1.flag Flag.ctValid true).complete n

/-- `CTGEN` (R129). -/
def execCtgen (s : State) : Host.Outcome State Fault Refusal :=
  .next (s.modCur (Engine.ctgen s.params.numerics.trig s.draws)).tick

end Sys2Proof.Machine
end

