-- ==== Sys2Proof/Machine/Dispatch.lean ====
section
/-! DEFINITION. The meaning of every command of the opcode table, for the node whose sequencer moves (spec 30_encoding.md R101). -/

namespace Sys2Proof.Machine

def exec (i : Instr) (s : State) : Host.Outcome State Fault Refusal :=
  match i with
  | .twgen => Sys2Proof.Machine.execTwgen s
  | .brgen => Sys2Proof.Machine.execBrgen s
  | .ctgen => Sys2Proof.Machine.execCtgen s
  | .ingest b => Sys2Proof.Machine.execIngest b s
  | .transpose b => Sys2Proof.Machine.execTranspose b s
  | .fft b => Sys2Proof.Machine.execFft b s
  | .correct b => Sys2Proof.Machine.execCorrect b s
  | .emit b => Sys2Proof.Machine.execEmit b s
  | .barrier => Sys2Proof.Machine.execBarrier s
  | .next => Sys2Proof.Machine.execNext s
  | .halt => Sys2Proof.Machine.execHalt s

end Sys2Proof.Machine
end

