-- ==== Sys2Proof/Machine/World.lean ====
section
/-! DEFINITION. What the world does to the system: the host's start (spec 44_pipeline_driver.md R201) and reset (70_reset_and_hazards.md R255), the
turns of the agents, and whose turn is next. -/

namespace Sys2Proof.Machine

/-- Start on one engine (R201): accepted only in IDLE, ignored in any other run state. -/
def Engine.start (e : Engine) : Engine :=
  if e.run = .idle then ({ e with run := .running, iterLeft := e.cfg.nIter } : Engine).flag Flag.started true else e

/-- Nothing of this engine is in flight. 70_reset_and_hazards.md R255 names transfers and increments. That a byte handed to the fabric and not yet
visible in `OUT` bars a reset as well is the model's choice (DESIGN CHOICE, log 32). -/
def Engine.quiet (e : Engine) : Bool := e.outstanding.isEmpty && e.pendingAdd.isEmpty && e.outPending.isEmpty

/-- The sequencer of node `q` can take a step that does something: it is running and does not stand in a wait that does not hold
(60_exceptions.md R233). -/
def State.canStep (s : State) (q : Nat) : Bool :=
  (s.eng q).run == .running &&
    match (s.eng q).stage with
    | .begin => true
    | .reading => false
    | .read => true
    | .transfers => (s.eng q).outstanding.isEmpty
    | .rendezvous => decide (cfgNB (s.eng q).cfg ≤ (s.eng q).rdv.toNat)
    | .writing => false
    | .fence => (s.eng q).outPending.isEmpty
    | .barrier => s.released q

/-- Reset is within the host's contract: nothing is in flight and no agent can step (70_reset_and_hazards.md R255). -/
def State.resettable (s : State) : Bool :=
  s.engines.all Engine.quiet && (List.range s.engines.length).all fun q => !s.canStep q

/-- The host resets all engines and the barrier primitive together (R255, R257, R262 b): the configuration is strapped and the regions are the
host's, so they stay. -/
def State.hostReset (s : State) : Host.Outcome State Fault Refusal :=
  if s.resettable then
    .next { s with
      engines := s.engines.map fun e => Engine.reset e.cfg, arrivals := s.engines.map fun _ => 0 }
  else .refused .resetInFlight

/-- An event that is not a sequencer's turn. -/
def State.perform (s : State) : Event → Host.Outcome State Fault Refusal
  | .start q => .next (s.modEng q Engine.start)
  | .reset => s.hostReset
  | .sequencer q => .next { s with node := q }
  | .deliver p i x h => s.deliver p i x h
  | .add p i => s.performAdd p i
  | .answer q => .next (s.modEng q Engine.answered)
  | .outWrite p i => s.performOut p i

/-- Whose turn it is: the current node's sequencer, or an event of the world. -/
inductive Turn where
  | sequencer
  | world (e : Event)
  deriving DecidableEq, Repr

/-- The next turn and the state that takes it. Where no event is listed, the current node's sequencer moves. -/
def State.takeTurn (s : State) : Turn × State :=
  match s.events with
  | [] => (.sequencer, s)
  | .sequencer q :: rest => (.sequencer, { s with events := rest, node := q })
  | e :: rest => (.world e, { s with events := rest })

/-- The engine as it must stand to fetch at `PC` next: running, and not inside a command. -/
def Engine.readyToFetch (e : Engine) : Engine :=
  if e.run = .running then { e with stage := .begin }
  else
    { e with
      run := .running
      iterLeft := e.cfg.nIter
      status := setFlag (setFlag (setFlag (setCode e.status 0) Flag.done false) Flag.fatal false) Flag.started true
      stage := .begin }

/-- A program with word `w` at index `k`, padded with the illegal word 0x00 where it was shorter. -/
def placeWord (p : List CmdWord) (k : Nat) (w : CmdWord) : List CmdWord :=
  p.take k ++ List.replicate (k - p.length) 0x00#8 ++ w :: p.drop (k + 1)

/-- The state whose next step fetches word `w` and runs it: the word placed at `PC`, the sequencer ready, no event before it. -/
def State.placed (s : State) (w : CmdWord) : State :=
  ({ s with
      params := { s.params with prog := placeWord s.params.prog s.cur.pc.toNat w }
      events := [] } : State).modCur Engine.readyToFetch

end Sys2Proof.Machine
end

