-- ==== Sys2Proof/Machine/Step.lean ====
section
/-! DEFINITION. One step of the system (spec 44_pipeline_driver.md R200, 00_scope.md R13, R17), and the placing of a word where the next step
fetches it. -/

namespace Sys2Proof.Machine

/-- The step of the current node's sequencer (R200): a fetched command is executed, an illegal fetch is the fatal fault, and in IDLE, DONE and
FATAL it takes no step. -/
def runSequencer (s : State) : Host.Outcome State Fault Refusal :=
  match s.fetch with
  | .noStep => .next s
  | .illegal => .next s.illegalFetch
  | .command i => exec i s

/-- One step: an illegal configuration is refused (R13), else the next turn is taken. -/
def step (s : State) : Host.Outcome State Fault Refusal :=
  if s.legal then
    match s.takeTurn with
    | (.sequencer, t) => runSequencer t
    | (.world e, t) => t.perform e
  else .refused .illegalConfig

/-- The state whose very next step fetches and runs the instruction whose bits are `w` (one byte, log 18). -/
def State.withFetchWord (s : State) (_nbits w : Nat) : State := s.placed (BitVec.ofNat 8 w)

end Sys2Proof.Machine
end

