-- ==== Sys2Proof/Safety.lean ====
section
/-! DEFINITION. The terms claims use: what counts as a good state (canonical memories, a status word that agrees with `RUN`, a legal
system), what a command leaves unchanged, and the bit reversal the spec names (40_precompute.md R126). -/

namespace Sys2Proof.Machine

/-! ### Good states -/

/-- Every memory of an engine is in its canonical form. -/
def Engine.memWf (e : Engine) : Bool := e.bufA.wf && e.bufB.wf && e.tw.wf && e.br.wf && e.ct.wf

/-- Every memory of the system is in its canonical form. -/
def State.memWf (s : State) : Bool := s.engines.all Engine.memWf && s.inRegion.wf && s.outRegion.wf

/-- The fields of `STATUS` that follow from `RUN` agree with it, `CODE` is not zero exactly in FATAL, and the bits that read as zero are
zero (10_state.md R31). -/
def Engine.statusAgrees (e : Engine) : Bool :=
  (flagOf e.status Flag.done == (e.run == .done)) && (flagOf e.status Flag.fatal == (e.run == .fatal))
    && (flagOf e.status Flag.started == (e.run != .idle)) && (flagOf e.status 7 == false)
    && (e.status.extractLsb' 16 16 == 0) && ((codeOf e.status != 0) == (e.run == .fatal))

/-- Every engine's status word agrees with its run state. -/
def State.statusAgrees (s : State) : Bool := s.engines.all Engine.statusAgrees

/-- A memory lists addresses below a bound only. -/
def Memory.below (m : Memory) (n : Nat) : Bool := m.all fun c => decide (c.1 < n)

/-- The buffers of an engine list nothing outside their range (20_memory.md R65). -/
def Engine.buffersInRange (e : Engine) : Bool :=
  Memory.below e.bufA (8 * bufElems e.cfg) && Memory.below e.bufB (8 * bufElems e.cfg)

/-- Every engine's buffers list nothing outside their range. -/
def State.buffersInRange (s : State) : Bool := s.engines.all Engine.buffersInRange

/-- Every transfer in flight still has an element to write: a completed one has left `OUTSTANDING` (43_transpose_exchange.md R180). -/
def State.transfersAlive (s : State) : Bool :=
  s.engines.all fun e => e.outstanding.all fun t => !t.pending.isEmpty

/-- What the valid bits of `STATUS` say of the tables (10_state.md R40 to R42, 40_precompute.md R132): a valid table holds what its generator
writes, every swap pair `(i, j)` of a valid LUT has `i < j < N`, and the length register of a table that is not valid is 0. -/
def Engine.tablesHold (src : TrigSource) (e : Engine) : Prop :=
  (flagOf e.status Flag.twValid = true → e.twLen.toNat = twNeed e.cfg
      ∧ e.tw.readElems 0 (twNeed e.cfg) = some ((twTable src (cfgN e.cfg) (cfgL e.cfg)).map TrigPair.toCplx))
    ∧ (flagOf e.status Flag.twValid = false → e.twLen = 0)
    ∧ (flagOf e.status Flag.brValid = true → e.brLen.toNat < cfgN e.cfg ∧ ∀ p, p < e.brLen.toNat →
        ∃ v, e.br.readElem p = some v ∧ v.x.toNat < v.y.toNat ∧ v.y.toNat < cfgN e.cfg)
    ∧ (flagOf e.status Flag.brValid = false → e.brLen = 0)
    ∧ (flagOf e.status Flag.ctValid = true →
        e.ct.readElems 0 (cfgTH e.cfg) = some ((ctTable src e.cfg).map TrigPair.toCplx))

/-- The tables of every node hold what its valid bits say. -/
def State.tablesHold (s : State) : Prop := ∀ q, (s.eng q).tablesHold s.params.numerics.trig

/-- The node whose sequencer moves stands at a stage of a command of a legal system, not at the last index of all. -/
def State.readyAt (s : State) (st : Stage) : Prop :=
  s.legal = true ∧ s.node < s.engines.length ∧ s.cur.stage = st ∧ s.cur.pc ≠ 255#8

/-- The node whose sequencer moves stands at the beginning of a command of a legal system, not at the last index of all. -/
def State.ready (s : State) : Prop := s.readyAt .begin

/-- The next turn is that of node `q`'s sequencer, and the command at its `PC` is `i` (44_pipeline_driver.md R200). -/
def State.runs (s : State) (q : Nat) (i : Instr) : Prop :=
  (s.events = [] ∧ s.node = q ∨ s.events.head? = some (.sequencer q)) ∧ (s.eng q).run = .running
    ∧ ∃ w, s.params.prog[(s.eng q).pc.toNat]? = some w ∧ decode w = .ok i

/-- The first `n` units of a memory hold values. -/
def Memory.holds (m : Memory) (n : Nat) : Prop := ∀ e, e < n → (m.readElem e).isSome = true

/-! ### What stays (frames) -/

/-- The buffers are unchanged. -/
def Engine.KeepsBuffers (e e' : Engine) : Prop := e'.bufA = e.bufA ∧ e'.bufB = e.bufB

/-- The tables and their lengths are unchanged. -/
def Engine.KeepsTables (e e' : Engine) : Prop :=
  e'.tw = e.tw ∧ e'.twLen = e.twLen ∧ e'.br = e.br ∧ e'.brLen = e.brLen ∧ e'.ct = e.ct

/-- The counter, the in-flight sets, the pending output writes and the log are unchanged. -/
def Engine.KeepsExchange (e e' : Engine) : Prop :=
  e'.rdv = e.rdv ∧ e'.outstanding = e.outstanding ∧ e'.pendingAdd = e.pendingAdd ∧ e'.outPending = e.outPending
    ∧ e'.log = e.log

/-- The configuration, the iteration count and the run state are unchanged. -/
def Engine.KeepsControl (e e' : Engine) : Prop := e'.cfg = e.cfg ∧ e'.iterLeft = e.iterLeft ∧ e'.run = e.run

/-- Every flag and field of `STATUS` but flag `i` is unchanged. -/
def StatusKeptBut (i : Nat) (w w' : BitVec 32) : Prop := ∀ k, k ≠ i → w'.getLsbD k = w.getLsbD k

/-- Every other node is unchanged. -/
def State.KeepsOthers (s t : State) : Prop :=
  t.engines.length = s.engines.length ∧ ∀ q, q ≠ s.node → t.eng q = s.eng q

/-- Everything outside the engines is unchanged: the parameters, the regions, the arrival counts, whose turn it is, the coming events
and answers. -/
def State.KeepsWorld (s t : State) : Prop :=
  t.params = s.params ∧ t.inRegion = s.inRegion ∧ t.outRegion = s.outRegion ∧ t.arrivals = s.arrivals
    ∧ t.node = s.node ∧ t.events = s.events ∧ t.answers = s.answers

/-- Every byte of a memory from address `n` on is unchanged. -/
def Memory.KeptFrom (n : Nat) (m m' : Memory) : Prop := ∀ a, n ≤ a → m'.read a = m.read a

/-! ### The bit reversal of 40_precompute.md R126 -/

/-- `rev_l(i)`, the reversal of the low `l` bits of `i`. -/
def revBits : Nat → Nat → Nat
  | 0, _ => 0
  | l + 1, i => i % 2 * 2 ^ l + revBits l (i / 2)

/-- The pairs `(i, rev_l(i))` with `i < rev_l(i)`, in ascending `i`, for indices below `n`. -/
def revPairs (l n : Nat) : List SwapPair :=
  ((List.range n).filter fun i => decide (i < revBits l i)).map fun i => { i := i, j := revBits l i }

/-! ### The phasor of a row (42_phase_correction.md R161) -/

/-- The phasor that meets column `j` of a row: `(1.0, +0.0)` advanced `j` times by the row's step. `d` is the row's first draw. -/
def phasorAt (a : ArithSource) (d : Draw) (om : TrigPair) : Nat → Cplx
  | 0 => phasorOne
  | j + 1 => phadv a (drawAt d (16 * j + 7)) (phasorAt a d om j) om

/-! ### Illegal words (30_encoding.md R105) -/

/-- The operations without buffer operand (R101). -/
def hasNoBuffer (op : Nat) : Bool := op == 1 || op == 2 || op == 3 || op == 9 || op == 10 || op == 11

/-- A word is illegal: a reserved operation, a field `z` that is not 000, or `b = 1` without a buffer operand (R105). The fields are
read off the word as a number: `op` bits 7 to 4, `b` bit 3, `z` bits 2 to 0. -/
def illegalWord (w : CmdWord) : Bool :=
  let op := w.toNat / 16
  op == 0 || decide (12 ≤ op) || w.toNat % 8 != 0 || (w.toNat / 8 % 2 == 1 && hasNoBuffer op)

end Sys2Proof.Machine
end

