-- ==== Sys2Proof/Certificates/Slice0/Obligations.lean ====
section
/-! DEFINITION. The statements for the provers, each about the machine and from the numbered rules of the spec. -/

open Sys2Proof Sys2Proof.Machine

/-! ### Encoding -/

/-- The 16 legal words of 30_encoding.md R101 decode to the commands they stand for. -/
def Obligations.EncodedWordsOfTheTable : Prop :=
  decode 0x10#8 = .ok .twgen ∧ decode 0x20#8 = .ok .brgen ∧ decode 0x30#8 = .ok .ctgen
    ∧ decode 0x40#8 = .ok (.ingest .A) ∧ decode 0x48#8 = .ok (.ingest .B)
    ∧ decode 0x50#8 = .ok (.transpose .A) ∧ decode 0x58#8 = .ok (.transpose .B)
    ∧ decode 0x60#8 = .ok (.fft .A) ∧ decode 0x68#8 = .ok (.fft .B)
    ∧ decode 0x70#8 = .ok (.correct .A) ∧ decode 0x78#8 = .ok (.correct .B)
    ∧ decode 0x80#8 = .ok (.emit .A) ∧ decode 0x88#8 = .ok (.emit .B)
    ∧ decode 0x90#8 = .ok .barrier ∧ decode 0xA0#8 = .ok .next ∧ decode 0xB0#8 = .ok .halt

/-- Decoding an encoded command gives it back (30_encoding.md R100, R101). -/
def Obligations.DecodeOfEncode : Prop := ∀ i : Instr, i.wf = true → decode (encode i) = .ok i

/-- A word decodes exactly when R105 does not call it illegal, and then it is the encoding of what it decodes to; 16 of the 256
words are legal. -/
def Obligations.IllegalWordsAreRejected : Prop :=
  (∀ w : CmdWord, illegalWord w = false ↔ ∃ i, decode w = .ok i)
    ∧ (∀ (w : CmdWord) (i : Instr), decode w = .ok i → encode i = w)
    ∧ ((List.range 256).filter fun k => !illegalWord (BitVec.ofNat 8 k)).length = 16

/-! ### The step -/

/-- Where the word at `PC` decodes, the step of a running sequencer is exec of the command: at once where no event is listed, and with the
turn taken off the list where the list says it is node `q`'s turn (44_pipeline_driver.md R200). -/
def Obligations.StepRunsTheDecodedCommand : Prop :=
  (∀ (s : State) (w : CmdWord) (i : Instr), s.legal = true → s.events = [] → s.cur.run = .running →
      s.params.prog[s.cur.pc.toNat]? = some w → decode w = .ok i → step s = exec i s)
    ∧ ∀ (s : State) (q : Nat) (rest : List Event) (w : CmdWord) (i : Instr), s.legal = true →
      s.events = .sequencer q :: rest → (s.eng q).run = .running →
      s.params.prog[(s.eng q).pc.toNat]? = some w → decode w = .ok i →
      step s = exec i { s with events := rest, node := q }

/-- A fetch at or beyond the program's end, or of an illegal word, is the fatal fault ILLEGAL_CMD: `RUN = FATAL`, `CODE = 3`, `PC` the index
fetched, nothing else changed (60_exceptions.md R228, R230). No word of the ROM is illegal. -/
def Obligations.IllegalFetchIsFatal : Prop :=
  (∀ s : State, s.legal = true → s.node < s.engines.length → s.events = [] → s.cur.run = .running →
      (s.params.prog.length ≤ s.cur.pc.toNat
        ∨ ∃ w, s.params.prog[s.cur.pc.toNat]? = some w ∧ illegalWord w = true) →
      ∃ t, step s = .next t ∧ t.cur.run = .fatal ∧ flagOf t.cur.status Flag.fatal = true ∧ codeOf t.cur.status = 3
        ∧ (∀ k, k ≠ Flag.fatal → (k < 8 ∨ 16 ≤ k) → t.cur.status.getLsbD k = s.cur.status.getLsbD k)
        ∧ t.cur.pc = s.cur.pc ∧ t.cur.cfg = s.cur.cfg ∧ t.cur.iterLeft = s.cur.iterLeft
        ∧ s.cur.KeepsBuffers t.cur ∧ s.cur.KeepsTables t.cur ∧ s.cur.KeepsExchange t.cur ∧ t.cur.work = s.cur.work
        ∧ t.cur.commCycles = s.cur.commCycles ∧ t.cur.compCycles = s.cur.compCycles
        ∧ s.KeepsOthers t ∧ s.KeepsWorld t)
    ∧ ∀ w ∈ Config.rom, illegalWord w = false

/-- In IDLE, DONE and FATAL the sequencer takes no step (44_pipeline_driver.md R200). -/
def Obligations.SequencerRestsUnlessRunning : Prop :=
  ∀ s : State, s.legal = true → s.events = [] → s.cur.run ≠ .running → step s = .next s

/-- An illegal configuration has no step (00_scope.md R13). -/
def Obligations.IllegalConfigurationIsRefused : Prop :=
  ∀ s : State, s.legal = false → step s = .refused .illegalConfig

/-- What reset leaves (10_state.md R49, 70_reset_and_hazards.md R256, R257). The configuration and the working registers are the model's choice
(logs 5, 6) and are not part of it. -/
def Obligations.ResetLeavesTheSpecValues : Prop :=
  (∀ e ∈ State.reset.engines,
      e.run = .idle ∧ e.pc = 0 ∧ e.status = 0 ∧ e.iterLeft = 0 ∧ e.twLen = 0 ∧ e.brLen = 0 ∧ e.rdv = 0
        ∧ e.outstanding = [] ∧ e.pendingAdd = [] ∧ e.commCycles = 0 ∧ e.compCycles = 0 ∧ e.log = []
        ∧ ∀ k, e.bufA.readElem k = none ∧ e.bufB.readElem k = none ∧ e.tw.readElem k = none
            ∧ e.br.readElem k = none ∧ e.ct.readElem k = none)
    ∧ (∀ k ∈ State.reset.arrivals, k = 0)
    ∧ State.reset.params.prog =
        [0x10#8, 0x20#8, 0x30#8, 0x90#8, 0x40#8, 0x50#8, 0x68#8, 0x58#8, 0x70#8, 0x60#8, 0x50#8, 0x88#8, 0x90#8,
          0xA0#8, 0xB0#8]
    ∧ State.reset.params.iterEntry = 4

/-- The host's start (44_pipeline_driver.md R201): accepted in IDLE only, where it sets `RUN`, `STARTED` and `ITER_LEFT` and leaves `PC`;
in any other run state nothing but the event itself is gone. -/
def Obligations.StartBeginsTheRun : Prop :=
  ∀ (s : State) (q : Nat) (rest : List Event), s.legal = true → q < s.engines.length → s.events = .start q :: rest →
    ((s.eng q).run ≠ .idle → step s = .next { s with events := rest })
      ∧ ((s.eng q).run = .idle → ∃ t, step s = .next t
          ∧ (t.eng q).run = .running ∧ flagOf (t.eng q).status Flag.started = true
          ∧ StatusKeptBut Flag.started (s.eng q).status (t.eng q).status
          ∧ (t.eng q).iterLeft = (s.eng q).cfg.nIter ∧ (t.eng q).pc = (s.eng q).pc ∧ (t.eng q).cfg = (s.eng q).cfg
          ∧ (t.eng q).stage = (s.eng q).stage
          ∧ (s.eng q).KeepsBuffers (t.eng q) ∧ (s.eng q).KeepsTables (t.eng q) ∧ (s.eng q).KeepsExchange (t.eng q)
          ∧ (t.eng q).commCycles = (s.eng q).commCycles ∧ (t.eng q).compCycles = (s.eng q).compCycles
          ∧ (t.eng q).work = (s.eng q).work
          ∧ t.engines.length = s.engines.length ∧ (∀ p, p ≠ q → t.eng p = s.eng p)
          ∧ t = { s with engines := t.engines, events := rest })

/-- The host's reset (70_reset_and_hazards.md R255, R257): every engine at its reset values under its own configuration, the unspecified working
registers left out, and every arrival count zero. That the regions and the parameters stay, and that a reset while something is in flight is
refused, is the model's (log 19). -/
def Obligations.HostResetRestoresResetValues : Prop :=
  ∀ (s : State) (rest : List Event), s.legal = true → s.events = .reset :: rest →
    (s.resettable = true → ∃ t, step s = .next t ∧ t.engines.length = s.engines.length
        ∧ (∀ q, q < s.engines.length → t.eng q = { Engine.reset (s.eng q).cfg with work := (t.eng q).work }) ∧ (∀ q, t.arrivalsOf q = 0)
        ∧ t.inRegion = s.inRegion ∧ t.outRegion = s.outRegion ∧ t.params = s.params)
      ∧ ((∃ q, q < s.engines.length ∧ ((s.eng q).outstanding ≠ [] ∨ (s.eng q).pendingAdd ≠ [])) →
          step s = .refused .resetInFlight)

/-- The host's register reads (10_state.md R26, R48). -/
def Obligations.HostReadsTheRegisterMap : Prop :=
  ∀ e : Engine, (e.readRegister 0x00).toNat = e.cfg.nodeId.toNat ∧ (e.readRegister 0x01).toNat = e.cfg.nbWorkers.toNat
    ∧ (e.readRegister 0x02).toNat = e.cfg.nbCores.toNat ∧ e.readRegister 0x03 = e.cfg.tile
    ∧ e.readRegister 0x04 = e.cfg.width ∧ e.readRegister 0x05 = e.cfg.height ∧ e.readRegister 0x06 = e.cfg.nIter
    ∧ e.readRegister 0x07 = 0 ∧ e.readRegister 0x08 = e.status ∧ (e.readRegister 0x09).toNat = e.pc.toNat
    ∧ e.readRegister 0x0A = e.iterLeft ∧ e.readRegister 0x0B = e.twLen ∧ e.readRegister 0x0C = e.brLen
    ∧ e.readRegister 0x0D = e.rdv
    ∧ e.readRegister 0x0F ++ e.readRegister 0x0E = e.commCycles
    ∧ e.readRegister 0x11 ++ e.readRegister 0x10 = e.compCycles
    ∧ ∀ n, 0x12 ≤ n → e.readRegister n = 0

/-! ### Table generation -/

/-- TWGEN (40_precompute.md R121, R122): with enough capacity it completes, the entry of stage `M = 2^st`, block `blk` and butterfly `j` is
`TRIG(j, M)` at index `(st-1)*(N/2) + blk*(M/2) + j`, `TW_LEN = (N/2)*L`, `TW_VALID` is set; nothing else changes but the unspecified
working registers and the compute cycles. -/
def Obligations.TwgenFillsTheTable : Prop :=
  ∀ s : State, s.ready → twNeed s.cur.cfg ≤ s.cur.cfg.twCap →
    ∃ t, exec .twgen s = .next t ∧ t.cur.pc = s.cur.pc + 1 ∧ t.cur.stage = .begin
      ∧ t.cur.twLen.toNat = cfgN s.cur.cfg / 2 * cfgL s.cur.cfg
      ∧ flagOf t.cur.status Flag.twValid = true ∧ StatusKeptBut Flag.twValid s.cur.status t.cur.status
      ∧ (∀ st blk j, 1 ≤ st → st ≤ cfgL s.cur.cfg → blk < cfgN s.cur.cfg / 2 ^ st → j < 2 ^ st / 2 →
          t.cur.tw.readElem ((st - 1) * (cfgN s.cur.cfg / 2) + blk * (2 ^ st / 2) + j)
            = some (TrigPair.toCplx (trig s.params.numerics.trig j (2 ^ st))))
      ∧ Memory.KeptFrom (8 * twNeed s.cur.cfg) s.cur.tw t.cur.tw
      ∧ t.cur.br = s.cur.br ∧ t.cur.brLen = s.cur.brLen ∧ t.cur.ct = s.cur.ct
      ∧ s.cur.KeepsBuffers t.cur ∧ s.cur.KeepsExchange t.cur ∧ s.cur.KeepsControl t.cur
      ∧ t.cur.commCycles = s.cur.commCycles ∧ s.KeepsOthers t ∧ s.KeepsWorld t

/-- A generator whose table is too small raises ALLOC_FAIL before any write (60_exceptions.md R226, R230): `RUN = FATAL`, `CODE = 1`, `PC` names
the generator, its valid bit is 0 and so is its length register, and no table, no buffer and nothing of the exchange has changed. -/
def Obligations.SmallTableIsAllocFail : Prop :=
  ∀ (s : State) (i : Instr) (v : Nat), s.legal = true → s.node < s.engines.length → s.cur.run = .running →
    ((i = .twgen ∧ v = Flag.twValid ∧ s.cur.cfg.twCap < cfgN s.cur.cfg / 2 * cfgL s.cur.cfg)
      ∨ (i = .brgen ∧ v = Flag.brValid ∧ s.cur.cfg.brCap < cfgN s.cur.cfg)
      ∨ (i = .ctgen ∧ v = Flag.ctValid ∧ s.cur.cfg.ctCap < cfgTH s.cur.cfg)) →
    ∃ t, exec i s = .next t ∧ t.cur.run = .fatal ∧ codeOf t.cur.status = 1 ∧ flagOf t.cur.status Flag.fatal = true
      ∧ flagOf t.cur.status v = false
      ∧ (∀ k, k ≠ Flag.fatal → k ≠ v → (k < 8 ∨ 16 ≤ k) → t.cur.status.getLsbD k = s.cur.status.getLsbD k)
      ∧ t.cur.pc = s.cur.pc ∧ t.cur.tw = s.cur.tw ∧ t.cur.br = s.cur.br ∧ t.cur.ct = s.cur.ct
      ∧ t.cur.twLen = (if i = .twgen then 0 else s.cur.twLen) ∧ t.cur.brLen = (if i = .brgen then 0 else s.cur.brLen)
      ∧ s.cur.KeepsBuffers t.cur ∧ s.cur.KeepsExchange t.cur ∧ t.cur.cfg = s.cur.cfg
      ∧ t.cur.iterLeft = s.cur.iterLeft ∧ t.cur.commCycles = s.cur.commCycles ∧ s.KeepsOthers t ∧ s.KeepsWorld t

/-- BRGEN (40_precompute.md R125, R126): with enough capacity it completes, and the table holds exactly the pairs `(i, rev(i))` with
`i < rev(i)`, in ascending `i`. -/
def Obligations.BrgenStoresTheBitReversalPairs : Prop :=
  ∀ s : State, s.ready → cfgN s.cur.cfg ≤ s.cur.cfg.brCap →
    ∃ t, exec .brgen s = .next t ∧ t.cur.pc = s.cur.pc + 1 ∧ t.cur.stage = .begin
      ∧ t.cur.brLen.toNat = (revPairs (cfgL s.cur.cfg) (cfgN s.cur.cfg)).length
      ∧ flagOf t.cur.status Flag.brValid = true ∧ StatusKeptBut Flag.brValid s.cur.status t.cur.status
      ∧ (∀ p, p < (revPairs (cfgL s.cur.cfg) (cfgN s.cur.cfg)).length →
          (t.cur.br.readElem p).map SwapPair.ofCplx = (revPairs (cfgL s.cur.cfg) (cfgN s.cur.cfg))[p]?)
      ∧ Memory.KeptFrom (8 * (revPairs (cfgL s.cur.cfg) (cfgN s.cur.cfg)).length) s.cur.br t.cur.br
      ∧ t.cur.tw = s.cur.tw ∧ t.cur.twLen = s.cur.twLen ∧ t.cur.ct = s.cur.ct
      ∧ s.cur.KeepsBuffers t.cur ∧ s.cur.KeepsExchange t.cur ∧ s.cur.KeepsControl t.cur
      ∧ t.cur.commCycles = s.cur.commCycles ∧ s.KeepsOthers t ∧ s.KeepsWorld t

/-- The number of bit-reversal pairs of `N = 2^L` is `(N - 2^ceil(L/2)) / 2`, less than `N` (R126 e). -/
def Obligations.BitReversalPairCount : Prop :=
  ∀ l : Nat, (revPairs l (2 ^ l)).length = (2 ^ l - 2 ^ ((l + 1) / 2)) / 2 ∧ (revPairs l (2 ^ l)).length < 2 ^ l

/-- LUT_OVERFLOW cannot occur: the passes of BRGEN never emit `N` pairs (40_precompute.md R127, 60_exceptions.md R227), and so BRGEN of
a legal configuration ends FATAL only for its capacity. -/
def Obligations.LutOverflowIsUnreachable : Prop :=
  (∀ n k : Nat, (brRun n k).overflow = false)
    ∧ ∀ s t : State, s.ready → cfgN s.cur.cfg ≤ s.cur.cfg.brCap → s.cur.run = .running → exec .brgen s = .next t →
      t.cur.run = .running

/-- CTGEN (40_precompute.md R129): with enough capacity it completes, and entry `r` is `TRIG(NODE_ID*TH + r, WIDTH*HEIGHT)`. -/
def Obligations.CtgenFillsTheTable : Prop :=
  ∀ s : State, s.ready → cfgTH s.cur.cfg ≤ s.cur.cfg.ctCap →
    ∃ t, exec .ctgen s = .next t ∧ t.cur.pc = s.cur.pc + 1 ∧ t.cur.stage = .begin
      ∧ flagOf t.cur.status Flag.ctValid = true ∧ StatusKeptBut Flag.ctValid s.cur.status t.cur.status
      ∧ (∀ r, r < cfgTH s.cur.cfg →
          t.cur.ct.readElem r = some (TrigPair.toCplx (trig s.params.numerics.trig
            (s.cur.cfg.nodeId.toNat * cfgTH s.cur.cfg + r) (s.cur.cfg.width.toNat * s.cur.cfg.height.toNat))))
      ∧ Memory.KeptFrom (8 * cfgTH s.cur.cfg) s.cur.ct t.cur.ct
      ∧ t.cur.tw = s.cur.tw ∧ t.cur.twLen = s.cur.twLen ∧ t.cur.br = s.cur.br ∧ t.cur.brLen = s.cur.brLen
      ∧ s.cur.KeepsBuffers t.cur ∧ s.cur.KeepsExchange t.cur ∧ s.cur.KeepsControl t.cur
      ∧ t.cur.commCycles = s.cur.commCycles ∧ s.KeepsOthers t ∧ s.KeepsWorld t

/-- The reference `TRIG` at the angles whose values 40_precompute.md R120 prints, for every denominator. -/
def Obligations.TrigReferenceValues : Prop :=
  ∀ k : Nat, 0 < k →
    trig .reference 0 k = { c := 0x3F800000#32, ns := 0x80000000#32 }
      ∧ trig .reference k (4 * k) = { c := 0x00000000#32, ns := 0xBF800000#32 }
      ∧ trig .reference k (8 * k) = { c := 0x3F3504F3#32, ns := 0xBF3504F3#32 }
      ∧ trig .reference (3 * k) (8 * k) = { c := 0xBF3504F3#32, ns := 0xBF3504F3#32 }
      ∧ trig .reference k (16 * k) = { c := 0x3F6C835E#32, ns := 0xBEC3EF15#32 }

/-! ### The FFT kernel -/

/-- The row partition (41_fft_kernel.md R141): the counts and starts, each core's rows consecutive, the counts differing by at most 1 and
adding up to `H`, the ranges disjoint and covering `[0, H)`, idle cores owning no row. -/
def Obligations.RowPartitionCoversEveryRow : Prop :=
  ∀ h c : Nat, 0 < c →
    (∀ k, k < c → coreCount h c k = h / c + (if k < h % c then 1 else 0) ∧ coreStart h c k = k * (h / c) + min k (h % c)
        ∧ coreRows h c k = (List.range h).filter fun r =>
            decide (coreStart h c k ≤ r) && decide (r < coreStart h c k + coreCount h c k))
      ∧ (∀ j k, j < c → k < c → coreCount h c j ≤ coreCount h c k + 1)
      ∧ ((List.range c).map (coreCount h c)).sum = h
      ∧ forkRows h c = List.range h
      ∧ (∀ r, r < h → ∃ k, k < c ∧ r ∈ coreRows h c k ∧ ∀ j, j < c → r ∈ coreRows h c j → j = k)
      ∧ (∀ k, h ≤ k → k < c → coreRows h c k = [])

/-- FFT (41_fft_kernel.md R140, R143) for rows of two columns or more: with the tables valid and every element of the buffer holding a value
it completes, and each row is what the swaps and the butterflies, in the order of the loop nest, make of the row as it was. -/
def Obligations.FftTransformsEveryRow : Prop :=
  ∀ (b : Buf) (s : State) (br tw : List Cplx), s.ready → 2 ≤ cfgN s.cur.cfg →
    (s.cur.brLen = 0 ∨ flagOf s.cur.status Flag.brValid = true) → flagOf s.cur.status Flag.twValid = true →
    twNeed s.cur.cfg ≤ s.cur.twLen.toNat →
    s.cur.br.readElems 0 s.cur.brLen.toNat = some br → s.cur.tw.readElems 0 (twNeed s.cur.cfg) = some tw →
    (∀ v ∈ br, v.x.toNat < cfgN s.cur.cfg ∧ v.y.toNat < cfgN s.cur.cfg) →
    (s.cur.buf b).holds (bufElems s.cur.cfg) →
    ∃ t, exec (.fft b) s = .next t ∧ t.cur.pc = s.cur.pc + 1 ∧ t.cur.stage = .begin
      ∧ (∀ r, r < cfgTH s.cur.cfg → ∃ row,
          (s.cur.buf b).readElems (r * cfgN s.cur.cfg) (cfgN s.cur.cfg) = some row
            ∧ (t.cur.buf b).readElems (r * cfgN s.cur.cfg) (cfgN s.cur.cfg)
              = some (fftRow s.params.numerics.arith (s.incoming s.node b) (r * cfgN s.cur.cfg) (rowDraw s.draws r)
                  (br.map SwapPair.ofCplx)
                  ((loopNest (cfgN s.cur.cfg) (cfgL s.cur.cfg)).zip (tw.map TrigPair.ofCplx)) row))
      ∧ Memory.KeptFrom (8 * bufElems s.cur.cfg) (s.cur.buf b) (t.cur.buf b)
      ∧ t.cur.buf (other b) = s.cur.buf (other b) ∧ s.cur.KeepsTables t.cur ∧ t.cur.status = s.cur.status
      ∧ t.cur.rdv = s.cur.rdv ∧ t.cur.pendingAdd = s.cur.pendingAdd ∧ t.cur.outPending = s.cur.outPending
      ∧ t.cur.log = s.cur.log ∧ s.cur.KeepsControl t.cur ∧ t.cur.commCycles = s.cur.commCycles ∧ s.KeepsWorld t
      ∧ (s.incoming s.node b = [] → t.cur.outstanding = s.cur.outstanding ∧ s.KeepsOthers t)

/-- FFT of rows of one column (R150): no swap, no stage, so it completes with the buffers unchanged, whatever they hold. -/
def Obligations.FftOfOneColumnIsTheIdentity : Prop :=
  ∀ (b : Buf) (s : State), s.ready → cfgN s.cur.cfg = 1 → s.cur.brLen = 0 → s.incoming s.node b = [] →
    ∃ t, exec (.fft b) s = .next t ∧ t.cur.pc = s.cur.pc + 1 ∧ s.cur.KeepsBuffers t.cur ∧ s.cur.KeepsTables t.cur
      ∧ s.cur.KeepsExchange t.cur ∧ s.cur.KeepsControl t.cur ∧ t.cur.status = s.cur.status
      ∧ t.cur.commCycles = s.cur.commCycles ∧ s.KeepsOthers t ∧ s.KeepsWorld t

/-- What FFT and CORRECT make of a buffer does not depend on the number of cores (41_fft_kernel.md R148, 42_phase_correction.md R164). -/
def Obligations.ResultIndependentOfCoreCount : Prop :=
  ∀ (a : ArithSource) (n : Nat) (inc : Incoming) (e : Engine) (b : Buf) (c : BitVec 5),
    0 < c.toNat → 0 < e.cfg.nbCores.toNat →
    fftBuffer a n inc { e with cfg := { e.cfg with nbCores := c } } b = fftBuffer a n inc e b
      ∧ correctBuffer a n inc { e with cfg := { e.cfg with nbCores := c } } b = correctBuffer a n inc e b

/-- Every butterfly of the loops stays inside the row and pairs two different columns, and the twiddle pointer stays inside the table
(41_fft_kernel.md R147). -/
def Obligations.ButterflyIndicesStayInTheRow : Prop :=
  ∀ l : Nat,
    (∀ q ∈ loopNest (2 ^ l) l, q.k + q.j < q.k + q.j + q.m / 2 ∧ q.k + q.j + q.m / 2 ≤ q.k + q.m - 1
        ∧ q.k + q.m - 1 ≤ 2 ^ l - 1)
      ∧ (loopNest (2 ^ l) l).length = 2 ^ l / 2 * l

/-- BFLY (41_fft_kernel.md R146) where no racing write is in flight: the two columns become `u + t` and `u - t` with
`t` the product of the twiddle pair and the lower element, both read before either is written, and no other column changes. -/
def Obligations.ButterflyReplacesTwoColumns : Prop :=
  ∀ (a : ArithSource) (base : Nat) (d : Draw) (ia ib : Nat) (x : TrigPair) (row : List Cplx) (u v : Cplx),
    ia ≠ ib → row[ia]? = some u → row[ib]? = some v →
    ∃ tx ty,
      tx = fsub a (drawAt d 4) (fmul a (drawAt d 2) x.c v.x) (fmul a (drawAt d 3) x.ns v.y)
        ∧ ty = fadd a (drawAt d 7) (fmul a (drawAt d 5) x.c v.y) (fmul a (drawAt d 6) x.ns v.x)
        ∧ (bfly a [] base d ia ib x row)[ia]?
            = some { x := fadd a (drawAt d 8) u.x tx, y := fadd a (drawAt d 9) u.y ty }
        ∧ (bfly a [] base d ia ib x row)[ib]?
            = some { x := fsub a (drawAt d 10) u.x tx, y := fsub a (drawAt d 11) u.y ty }
        ∧ ∀ k, k ≠ ia → k ≠ ib → (bfly a [] base d ia ib x row)[k]? = row[k]?

/-- The swaps of the table BRGEN emits put into column `i` of a row what column `rev(i)` held (40_precompute.md R126 d, 41_fft_kernel.md R144). -/
def Obligations.SwapsBitReverseARow : Prop :=
  ∀ (l base k : Nat) (d : Draw) (row : List Cplx), row.length = 2 ^ l →
    ∀ i, i < 2 ^ l → (swapAll [] base d (brRun (2 ^ l) k).pairs row)[i]? = row[revBits l i]?

/-- The reads of what holds no value that FFT, CORRECT, EMIT and TRANSPOSE stop at (10_state.md R39, 40_precompute.md R133, 41_fft_kernel.md R151,
42_phase_correction.md R167): a table whose valid bit is 0, for the LUT where its length is not 0 as well, and, with valid tables, a buffer of which
an element that is read holds no value: any element for FFT of two columns or more, CORRECT and EMIT, one of the retained quadrant for TRANSPOSE. -/
def Obligations.UnwrittenReadsFault : Prop :=
  ∀ (b : Buf) (s : State), s.legal = true → s.node < s.engines.length →
    (2 ≤ cfgN s.cur.cfg → flagOf s.cur.status Flag.twValid = false → exec (.fft b) s = .fault .unwrittenRead)
      ∧ (s.cur.brLen ≠ 0 → flagOf s.cur.status Flag.brValid = false → exec (.fft b) s = .fault .unwrittenRead)
      ∧ (∀ br tw e, 2 ≤ cfgN s.cur.cfg → (s.cur.brLen = 0 ∨ flagOf s.cur.status Flag.brValid = true) →
          flagOf s.cur.status Flag.twValid = true → twNeed s.cur.cfg ≤ s.cur.twLen.toNat →
          s.cur.br.readElems 0 s.cur.brLen.toNat = some br → s.cur.tw.readElems 0 (twNeed s.cur.cfg) = some tw →
          (∀ v ∈ br, v.x.toNat < cfgN s.cur.cfg ∧ v.y.toNat < cfgN s.cur.cfg) →
          e < bufElems s.cur.cfg → (s.cur.buf b).readElem e = none → exec (.fft b) s = .fault .unwrittenRead)
      ∧ (flagOf s.cur.status Flag.ctValid = false → exec (.correct b) s = .fault .unwrittenRead)
      ∧ (∀ e, flagOf s.cur.status Flag.ctValid = true → s.cur.ct.holds (cfgTH s.cur.cfg) → e < bufElems s.cur.cfg →
          (s.cur.buf b).readElem e = none → exec (.correct b) s = .fault .unwrittenRead)
      ∧ (∀ e, e < bufElems s.cur.cfg → (s.cur.buf b).readElem e = none → s.cur.stage = .begin →
          exec (.emit b) s = .fault .unwrittenRead)
      ∧ (∀ r xc, r < cfgTH s.cur.cfg → xc < cfgTH s.cur.cfg →
          (s.cur.buf b).readElem (r * cfgN s.cur.cfg + (cfgP s.cur.cfg * cfgTH s.cur.cfg + xc)) = none →
          s.cur.stage = .begin → exec (.transpose b) s = .fault .unwrittenRead)

/-! ### The phase-correction stage -/

/-- CORRECT (42_phase_correction.md R160 to R163): with the table valid and every element holding a value it completes, and column `j` of row `r`
is the sample times the phasor that `j` steps of the row's table entry make of `(1.0, +0.0)`. -/
def Obligations.CorrectRotatesByTheRunningPhasor : Prop :=
  ∀ (b : Buf) (s : State), s.ready → flagOf s.cur.status Flag.ctValid = true → s.cur.ct.holds (cfgTH s.cur.cfg) →
    (s.cur.buf b).holds (bufElems s.cur.cfg) →
    ∃ t, exec (.correct b) s = .next t ∧ t.cur.pc = s.cur.pc + 1 ∧ t.cur.stage = .begin
      ∧ (∀ r j om v, r < cfgTH s.cur.cfg → j < cfgN s.cur.cfg → s.cur.ct.readElem r = some om →
          (s.cur.buf b).readElem (r * cfgN s.cur.cfg + j) = some v →
          (t.cur.buf b).readElem (r * cfgN s.cur.cfg + j)
            = some (cmul s.params.numerics.arith (drawAt (rowDraw s.draws r) (16 * j + 1))
                (raceRead (s.incoming s.node b) (drawAt (rowDraw s.draws r) (16 * j)) (r * cfgN s.cur.cfg + j) v)
                (phasorAt s.params.numerics.arith (rowDraw s.draws r) (TrigPair.ofCplx om) j)))
      ∧ Memory.KeptFrom (8 * bufElems s.cur.cfg) (s.cur.buf b) (t.cur.buf b)
      ∧ t.cur.buf (other b) = s.cur.buf (other b) ∧ s.cur.KeepsTables t.cur ∧ t.cur.status = s.cur.status
      ∧ t.cur.rdv = s.cur.rdv ∧ t.cur.pendingAdd = s.cur.pendingAdd ∧ t.cur.outPending = s.cur.outPending
      ∧ t.cur.log = s.cur.log ∧ s.cur.KeepsControl t.cur ∧ t.cur.commCycles = s.cur.commCycles ∧ s.KeepsWorld t
      ∧ (s.incoming s.node b = [] → t.cur.outstanding = s.cur.outstanding ∧ s.KeepsOthers t)

/-! ### INGEST, EMIT, the fence -/

/-- INGEST (44_pipeline_driver.md R202, 60_exceptions.md R233): its first turn posts the read and changes nothing else, it waits without a change
until the fabric answers, and once the bytes are here it completes: local element `(r, c)` receives global element `(BAND_OFFSET + r, c)`
of `IN` with its bits unchanged, every other byte keeps its value. That the wait begins and ends in turns of its own is the model's form (log 22),
and nothing is said of the cycle counters before the completion (log 10). -/
def Obligations.IngestCopiesTheBand : Prop :=
  (∀ (b : Buf) (s : State), s.legal = true → s.node < s.engines.length →
    (s.cur.stage = .begin → ∃ t, exec (.ingest b) s = .next t
        ∧ t.cur = { s.cur with stage := .reading, commCycles := t.cur.commCycles, compCycles := t.cur.compCycles }
        ∧ s.KeepsOthers t ∧ s.KeepsWorld t)
      ∧ (s.cur.stage = .reading → exec (.ingest b) s = .next s
        ∧ ∀ rest, s.events = .answer s.node :: rest → ∃ t, step s = .next t ∧ t.cur = { s.cur with stage := .read }
          ∧ s.KeepsOthers t ∧ t = { s with engines := t.engines, events := rest }))
  ∧ ∀ (b : Buf) (s : State), s.readyAt .read →
    ∃ t, exec (.ingest b) s = .next t ∧ t.cur.pc = s.cur.pc + 1 ∧ t.cur.stage = .begin
      ∧ (∀ r c, r < cfgTH s.cur.cfg → c < cfgN s.cur.cfg →
          (t.cur.buf b).readElem (r * cfgN s.cur.cfg + c)
            = some (s.inElem (8 * ((bandOffset s.cur.cfg + r) * s.cur.cfg.width.toNat + c))))
      ∧ Memory.KeptFrom (8 * bufElems s.cur.cfg) (s.cur.buf b) (t.cur.buf b)
      ∧ t.cur.buf (other b) = s.cur.buf (other b) ∧ s.cur.KeepsTables t.cur ∧ t.cur.status = s.cur.status
      ∧ t.cur.rdv = s.cur.rdv ∧ t.cur.pendingAdd = s.cur.pendingAdd ∧ t.cur.outPending = s.cur.outPending
      ∧ t.cur.log = s.cur.log ∧ s.cur.KeepsControl t.cur ∧ t.cur.compCycles = s.cur.compCycles ∧ s.KeepsWorld t
      ∧ (s.incoming s.node b = [] → t.cur.outstanding = s.cur.outstanding ∧ s.KeepsOthers t)

/-- EMIT's hand-over (44_pipeline_driver.md R203, 20_memory.md R70): with every element holding a value, the band is handed to the fabric byte by byte,
the 8 bytes of local `(r, c)` for the byte offset of global `(BAND_OFFSET + r, c)`, the real part first, each half little-endian, and the sequencer
waits for the write to be locally complete with `PC` where it was and the buffers unchanged. Nothing is said of the cycle counters (log 10). -/
def Obligations.EmitHandsOverTheBand : Prop :=
  ∀ (b : Buf) (s : State), s.ready → (s.cur.buf b).holds (bufElems s.cur.cfg) → s.incoming s.node b = [] →
    ∃ t ws, exec (.emit b) s = .next t ∧ t.cur.stage = .writing ∧ t.cur.pc = s.cur.pc
      ∧ t.cur.outPending = s.cur.outPending ++ ws ∧ ws.length = 8 * bufElems s.cur.cfg
      ∧ (∀ r c v k, r < cfgTH s.cur.cfg → c < cfgN s.cur.cfg →
          (s.cur.buf b).readElem (r * cfgN s.cur.cfg + c) = some v →
          (k < 4 → ws[8 * (r * cfgN s.cur.cfg + c) + k]?
              = some { off := 8 * ((bandOffset s.cur.cfg + r) * s.cur.cfg.width.toNat + c) + k, val := v.x.extractLsb' (8 * k) 8 })
            ∧ (k < 4 → ws[8 * (r * cfgN s.cur.cfg + c) + 4 + k]?
              = some { off := 8 * ((bandOffset s.cur.cfg + r) * s.cur.cfg.width.toNat + c) + 4 + k, val := v.y.extractLsb' (8 * k) 8 }))
      ∧ s.cur.KeepsBuffers t.cur ∧ s.cur.KeepsTables t.cur ∧ s.cur.KeepsControl t.cur ∧ t.cur.status = s.cur.status
      ∧ t.cur.rdv = s.cur.rdv ∧ t.cur.outstanding = s.cur.outstanding ∧ t.cur.pendingAdd = s.cur.pendingAdd
      ∧ t.cur.log = s.cur.log ∧ t.cur.work = s.cur.work ∧ s.KeepsOthers t ∧ s.KeepsWorld t

/-- EMIT behind its hand-over (44_pipeline_driver.md R203, R204, 60_exceptions.md R233): it waits without a change until the fabric answers that the write is
locally complete, which takes it to the fence; there it waits without a change while a byte it handed over is not visible, and completes once
every one is. -/
def Obligations.EmitCompletesBehindTheFence : Prop :=
  ∀ (b : Buf) (s : State), s.legal = true → s.node < s.engines.length →
    (s.cur.stage = .writing → exec (.emit b) s = .next s
      ∧ ∀ rest, s.events = .answer s.node :: rest → ∃ t, step s = .next t ∧ t.cur = { s.cur with stage := .fence }
        ∧ s.KeepsOthers t ∧ t = { s with engines := t.engines, events := rest })
      ∧ (s.cur.stage = .fence → s.cur.outPending ≠ [] → exec (.emit b) s = .next s)
      ∧ (s.cur.stage = .fence → s.cur.outPending = [] → s.cur.pc ≠ 255#8 → ∃ t, exec (.emit b) s = .next t
          ∧ t.cur.pc = s.cur.pc + 1 ∧ t.cur.stage = .begin ∧ s.cur.KeepsBuffers t.cur ∧ s.cur.KeepsTables t.cur
          ∧ s.cur.KeepsExchange t.cur ∧ s.cur.KeepsControl t.cur ∧ t.cur.status = s.cur.status
          ∧ t.cur.compCycles = s.cur.compCycles ∧ s.KeepsOthers t ∧ s.KeepsWorld t)

/-- A byte handed to the fabric becomes visible in `OUT` (20_memory.md R80, R89, 70_reset_and_hazards.md R271): it alone, so that before the fence the host
may see any mixture of old and new bytes; no other byte of the region changes, and the byte is no longer pending. -/
def Obligations.OutputWriteBecomesVisible : Prop :=
  ∀ (s : State) (p i : Nat) (w : OutWrite) (rest : List Event), s.legal = true → p < s.engines.length →
    s.events = .outWrite p i :: rest → (s.eng p).outPending[i]? = some w → w.off < regionBytes (s.eng p).cfg →
    ∃ t, step s = .next t
      ∧ t.outRegion.read w.off = some w.val ∧ (∀ a, a ≠ w.off → t.outRegion.read a = s.outRegion.read a)
      ∧ (t.eng p).outPending = (s.eng p).outPending.eraseIdx i
      ∧ t.eng p = { s.eng p with outPending := (t.eng p).outPending }
      ∧ (∀ q, q ≠ p → t.eng q = s.eng q) ∧ t.inRegion = s.inRegion ∧ t.arrivals = s.arrivals

/-! ### BARRIER, NEXT, HALT -/

/-- BARRIER (44_pipeline_driver.md R206): while a node is missing the first turn is the arrival, `ARR_P <- ARR_P + 1`, after which the sequencer waits with
`PC` where it was, and a turn in the wait changes nothing; once every node has begun as many barriers it completes, from the wait and for the node that
arrives last at once. Nothing is said of the cycle counters before the completion (log 10). -/
def Obligations.BarrierJoinsAllNodes : Prop :=
  (∀ (s : State) (q : Nat), s.legal = true → s.node < s.engines.length → q < s.engines.length →
    (s.cur.stage = .begin → q ≠ s.node → s.arrivalsOf q ≤ s.arrivalsOf s.node → ∃ t, exec .barrier s = .next t
        ∧ t.arrivalsOf s.node = s.arrivalsOf s.node + 1 ∧ (∀ p, p ≠ s.node → t.arrivalsOf p = s.arrivalsOf p)
        ∧ t.cur = { s.cur with stage := .barrier, commCycles := t.cur.commCycles, compCycles := t.cur.compCycles } ∧ s.KeepsOthers t
        ∧ t = { s with engines := t.engines, arrivals := t.arrivals })
      ∧ (s.cur.stage = .barrier → s.arrivalsOf q < s.arrivalsOf s.node → exec .barrier s = .next s))
  ∧ ∀ s : State, s.legal = true → s.node < s.engines.length → s.cur.pc ≠ 255#8 →
    (s.cur.stage = .barrier ∧ (∀ q, q < s.engines.length → s.arrivalsOf s.node ≤ s.arrivalsOf q)
      ∨ s.cur.stage = .begin ∧ (∀ q, q < s.engines.length → q ≠ s.node → s.arrivalsOf s.node + 1 ≤ s.arrivalsOf q)) →
    ∃ t, exec .barrier s = .next t ∧ t.cur.pc = s.cur.pc + 1 ∧ t.cur.stage = .begin
      ∧ t.arrivalsOf s.node = s.arrivalsOf s.node + (if s.cur.stage = .begin then 1 else 0)
      ∧ (∀ p, p ≠ s.node → t.arrivalsOf p = s.arrivalsOf p)
      ∧ s.cur.KeepsBuffers t.cur ∧ s.cur.KeepsTables t.cur ∧ s.cur.KeepsExchange t.cur ∧ s.cur.KeepsControl t.cur
      ∧ t.cur.status = s.cur.status ∧ t.cur.compCycles = s.cur.compCycles ∧ s.KeepsOthers t
      ∧ t.params = s.params ∧ t.inRegion = s.inRegion ∧ t.outRegion = s.outRegion

/-- NEXT, word 0xA0 (44_pipeline_driver.md R207): while more than one iteration is left, one less and back to `ITER_ENTRY`, from any index;
else none left and on to the next index, where `ITER_LEFT = 0` stays 0. The last index of all, from which no advance exists, is
left out of the second case (log 17). -/
def Obligations.NextCountsIterations : Prop :=
  encode .next = 0xA0#8 ∧ ∀ s : State, s.legal = true → s.node < s.engines.length →
    (1 < s.cur.iterLeft.toNat ∨ s.cur.pc ≠ 255#8) →
    ∃ t, exec .next s = .next t
      ∧ (1 < s.cur.iterLeft.toNat →
          t.cur.iterLeft.toNat = s.cur.iterLeft.toNat - 1 ∧ t.cur.pc = s.params.iterEntry)
      ∧ (s.cur.iterLeft.toNat ≤ 1 → t.cur.iterLeft = 0 ∧ t.cur.pc = s.cur.pc + 1)
      ∧ t.cur.stage = .begin ∧ t.cur.cfg = s.cur.cfg ∧ t.cur.run = s.cur.run ∧ t.cur.status = s.cur.status
      ∧ s.cur.KeepsBuffers t.cur ∧ s.cur.KeepsTables t.cur ∧ s.cur.KeepsExchange t.cur ∧ s.KeepsOthers t ∧ s.KeepsWorld t

/-- HALT, word 0xB0 (44_pipeline_driver.md R208): `RUN <- DONE`, `STATUS.DONE <- 1`, `PC` left at its index; no other flag and no
storage, in-flight set or log changes, and the sequencer takes no step in any system where its run state is still what HALT made it. -/
def Obligations.HaltStopsTheSequencer : Prop :=
  encode .halt = 0xB0#8 ∧ ∀ s : State, s.legal = true → s.node < s.engines.length →
    ∃ t, exec .halt s = .next t ∧ t.cur.run = .done ∧ flagOf t.cur.status Flag.done = true
      ∧ StatusKeptBut Flag.done s.cur.status t.cur.status ∧ t.cur.pc = s.cur.pc ∧ t.cur.cfg = s.cur.cfg
      ∧ t.cur.iterLeft = s.cur.iterLeft ∧ t.cur.stage = .begin
      ∧ s.cur.KeepsBuffers t.cur ∧ s.cur.KeepsTables t.cur ∧ s.cur.KeepsExchange t.cur ∧ s.KeepsOthers t ∧ s.KeepsWorld t
      ∧ ∀ u : State, u.legal = true → u.events = [] → u.cur.run = t.cur.run → step u = .next u

/-- A command that completes at index 255 leaves `PC` there and is ILLEGAL_CMD (10_state.md R28: `PC` never wraps and running past the last entry is
that fault), whatever the command: after the turn it stands in no wait, it is not HALT, which ends the run, nor a NEXT that loops back, and a generator has the
capacity it needs. That the fault is taken at the completion is the model's choice (log 17). -/
def Obligations.CompletionAtTheLastIndexIsFatal : Prop :=
  ∀ (s t : State) (i : Instr), s.legal = true → s.node < s.engines.length → s.cur.pc = 255#8 → s.cur.run = .running →
    exec i s = .next t → t.cur.stage = .begin → i ≠ .halt → (i = .next → s.cur.iterLeft.toNat ≤ 1) →
    (i = .twgen → twNeed s.cur.cfg ≤ s.cur.cfg.twCap) → (i = .brgen → cfgN s.cur.cfg ≤ s.cur.cfg.brCap) →
    (i = .ctgen → cfgTH s.cur.cfg ≤ s.cur.cfg.ctCap) →
    t.cur.run = .fatal ∧ flagOf t.cur.status Flag.fatal = true ∧ codeOf t.cur.status = 3 ∧ t.cur.pc = 255#8

/-! ### The transpose/exchange engine -/

/-- TRANSPOSE, phases 1 and 2, whatever the fabric answers (43_transpose_exchange.md R175, R178, R179, R181, R182, R191): it comes to a state `t` that waits in
phase 3 and goes straight on from there. In `t` the retained quadrant stands transposed in the destination; the accepted transfers have joined
`OUTSTANDING` in order with their sources captured; each refused enqueue has left one log event naming this node, the peer and, where the
enqueue served one row, the row; one refusal sets `XFER_ERR` and changes nothing else; the source outside the retained quadrant and the
destination outside the written quadrant are byte for byte unchanged. `Q` holds the last peer served, `R` and `XC` a pair of the quadrant (10_state.md R33).
That a PER_PEER enqueue joins one member per row is the model's choice (log 16), and nothing is said of the cycle counters (log 10). -/
def Obligations.TransposeSends : Prop :=
  ∀ (b : Buf) (s : State), s.ready → (s.cur.buf b).holds (bufElems s.cur.cfg) → s.incoming s.node b = [] →
    (xferGroups s.params.grouping s.cur.cfg b).length ≤ s.answers.length →
    ∃ t ts evs, exec (.transpose b) s = exec (.transpose b) t ∧ (t.cur.outstanding ≠ [] → exec (.transpose b) s = .next t)
      ∧ t.cur.stage = .transfers ∧ t.cur.pc = s.cur.pc
      ∧ (∀ r xc, r < cfgTH s.cur.cfg → xc < cfgTH s.cur.cfg →
          (t.cur.buf (other b)).readElem (xc * cfgN s.cur.cfg + (cfgP s.cur.cfg * cfgTH s.cur.cfg + r))
            = (s.cur.buf b).readElem (r * cfgN s.cur.cfg + (cfgP s.cur.cfg * cfgTH s.cur.cfg + xc)))
      ∧ (∀ a, (∀ p ∈ quadrant s.cur.cfg, a < 8 * quadDst s.cur.cfg p ∨ 8 * quadDst s.cur.cfg p + 8 ≤ a) →
          (t.cur.buf (other b)).read a = (s.cur.buf (other b)).read a)
      ∧ (∀ a, (∀ p ∈ quadrant s.cur.cfg, a < 8 * quadSrc s.cur.cfg p ∨ 8 * quadSrc s.cur.cfg p + 8 ≤ a) →
          (t.cur.buf b).read a = (s.cur.buf b).read a)
      ∧ t.cur.outstanding = s.cur.outstanding ++ ts
      ∧ ts.map (fun tr => tr.desc)
          = (((xferGroups s.params.grouping s.cur.cfg b).zip s.answers).filter fun q => q.2).flatMap (fun q => q.1.descs)
      ∧ (∀ tr ∈ ts, (∀ x h, (x, h) ∈ tr.pending ↔ x < cfgTH s.cur.cfg) ∧ tr.pending.Nodup
          ∧ ∀ x, x < cfgTH s.cur.cfg → (s.cur.buf b).readElem (tr.desc.srcAt x) = some (tr.valueAt x))
      ∧ t.cur.log = s.cur.log ++ evs
      ∧ List.Forall₂ (fun (ev : LogEvent) (q : XferGroup × Bool) => ev.kind = .xferEnqFail ∧ ev.node = cfgP s.cur.cfg
            ∧ ev.dstNode = q.1.dst ∧ ∀ r, q.1.row = some r → ev.srcRow = r)
          evs (((xferGroups s.params.grouping s.cur.cfg b).zip s.answers).filter fun q => !q.2)
      ∧ (evs = [] → t.cur.status = s.cur.status) ∧ (evs ≠ [] → flagOf t.cur.status Flag.xferErr = true)
      ∧ StatusKeptBut Flag.xferErr s.cur.status t.cur.status
      ∧ t.answers = s.answers.drop (xferGroups s.params.grouping s.cur.cfg b).length
      ∧ t.cur.rdv = s.cur.rdv ∧ t.cur.pendingAdd = s.cur.pendingAdd ∧ t.cur.outPending = s.cur.outPending
      ∧ (∀ q, (peers s.cur.cfg).getLast? = some q → t.cur.work.xpose.q.toNat = q)
      ∧ t.cur.work.xpose.r.toNat < cfgTH s.cur.cfg ∧ t.cur.work.xpose.xc.toNat < cfgTH s.cur.cfg
      ∧ s.cur.KeepsTables t.cur ∧ s.cur.KeepsControl t.cur ∧ s.KeepsOthers t
      ∧ t.params = s.params ∧ t.inRegion = s.inRegion ∧ t.outRegion = s.outRegion ∧ t.arrivals = s.arrivals

/-- What the fabric's answers do to the enqueues (43_transpose_exchange.md R179, R191; 60_exceptions.md R229): the accepted ones, in order, are the
transfers that join; each refused one leaves one log event naming this node, the peer and the row where it has one, and nothing else; every
answer used is used once, and the call never stops for a refusal. -/
def Obligations.EnqueueAnswersDecide : Prop :=
  ∀ (rd : Nat → Option Cplx) (p n k : Nat) (gs : List XferGroup) (ans : List Bool),
    gs.length ≤ ans.length → (∀ g ∈ gs, ∀ d ∈ g.descs, ∀ x, x < d.count → (rd (d.srcAt x)).isSome = true) →
    ∃ t, enqueueAll rd p n k gs ans = some t
      ∧ t.out.map (fun tr => tr.desc) = ((gs.zip ans).filter fun q => q.2).flatMap (fun q => q.1.descs)
      ∧ (∀ tr ∈ t.out, (∀ x h, (x, h) ∈ tr.pending ↔ x < tr.desc.count) ∧ tr.pending.Nodup
          ∧ ∀ x, x < tr.desc.count → rd (tr.desc.srcAt x) = some (tr.valueAt x))
      ∧ List.Forall₂ (fun (ev : LogEvent) (q : XferGroup × Bool) => ev.kind = .xferEnqFail ∧ ev.node = p ∧ ev.dstNode = q.1.dst
            ∧ ∀ r, q.1.row = some r → ev.srcRow = r)
          t.events ((gs.zip ans).filter fun q => !q.2)
      ∧ (t.failed = true ↔ false ∈ ans.take gs.length) ∧ t.answers = ans.drop gs.length

/-- Where the transfers and the local transpose put the elements (43_transpose_exchange.md R176, R178, R194): element `x` of `XFER(P, Q, R)` is source element
`[R][Q*TH + x]` and destination element `[x][P*TH + R]`, quadrant pair `(R, XC)` is `[R][P*TH + XC]` and `[XC][P*TH + R]`; per call and node there
are `(NB-1)*TH` transfers to the peers, enqueued one by one or, once per peer, with the same row transfers (the model's choice, log 16, where R194 has
one descriptor per peer). -/
def Obligations.DescriptorsPlaceTheTranspose : Prop :=
  ∀ (c : NodeCfg) (b : Buf), c.wf = true →
    (∀ q r x, (xferDesc c b q r).srcAt x = elemOffset c r (q * cfgTH c + x)
        ∧ (xferDesc c b q r).dstAt x = elemOffset c x (cfgP c * cfgTH c + r)
        ∧ (xferDesc c b q r).srcNode = cfgP c ∧ (xferDesc c b q r).dstNode = q
        ∧ (xferDesc c b q r).srcBuf = b ∧ (xferDesc c b q r).dstBuf = other b ∧ (xferDesc c b q r).count = cfgTH c)
      ∧ (∀ r xc, quadSrc c (r, xc) = elemOffset c r (cfgP c * cfgTH c + xc)
        ∧ quadDst c (r, xc) = elemOffset c xc (cfgP c * cfgTH c + r))
      ∧ (xferGroups .perRow c b).length = (cfgNB c - 1) * cfgTH c
      ∧ (∀ g, g ∈ xferGroups .perRow c b ↔ ∃ q r, q < cfgNB c ∧ q ≠ cfgP c ∧ r < cfgTH c
          ∧ g = { dst := q, row := some r, descs := [xferDesc c b q r] })
      ∧ (xferGroups .perPeer c b).length = cfgNB c - 1
      ∧ (xferGroups .perPeer c b).flatMap (fun g => g.descs) = (xferGroups .perRow c b).flatMap (fun g => g.descs)

/-- Every element of a destination buffer is written exactly once per call (43_transpose_exchange.md R176, R178, R181): each element of node `q`'s buffer is
the destination of exactly one pair `(r, x)` of exactly one node `p`, of its local transpose where `p` is `q` itself and of element `x` of its transfer
`XFER(p, q, r)` where `p` is a peer. -/
def Obligations.EveryDestinationElementWrittenOnce : Prop :=
  ∀ (s : State) (b : Buf) (q e : Nat), s.legal = true → q < s.engines.length → e < bufElems (s.eng q).cfg →
    ∃ p r x, (p < s.engines.length ∧ r < cfgTH (s.eng p).cfg ∧ x < cfgTH (s.eng p).cfg
        ∧ (if p = q then quadDst (s.eng q).cfg (r, x) else (xferDesc (s.eng p).cfg b q r).dstAt x) = e)
      ∧ ∀ p' r' x', p' < s.engines.length → r' < cfgTH (s.eng p').cfg → x' < cfgTH (s.eng p').cfg →
        (if p' = q then quadDst (s.eng q).cfg (r', x') else (xferDesc (s.eng p').cfg b q r').dstAt x') = e →
        p' = p ∧ r' = r ∧ x' = x

/-- A transfer's agent (43_transpose_exchange.md R180, R192, 20_memory.md R76): one half of one element of the target's buffer becomes the captured one and no
other byte of it changes, whatever the target's run state; the write is no longer pending, and a transfer with nothing left has left `OUTSTANDING`;
nothing else of any node changes. Both halves performed one after the other leave the captured element. -/
def Obligations.DeliverWritesOneElement : Prop :=
  ∀ (s : State) (p i x : Nat) (h : Half) (tr : Transfer) (rest : List Event), s.legal = true → s.events = .deliver p i x h :: rest →
    s.transfersAlive = true → p < s.engines.length → (s.eng p).outstanding[i]? = some tr → (x, h) ∈ tr.pending →
    tr.pending.Nodup →
    tr.desc.dstNode < s.engines.length → tr.desc.dstNode ≠ p → tr.desc.dstAt x < bufElems (s.eng tr.desc.dstNode).cfg →
    ∃ t, step s = .next t
      ∧ (h = .x → ((t.eng tr.desc.dstNode).buf tr.desc.dstBuf).read32 (8 * tr.desc.dstAt x) = some (tr.valueAt x).x)
      ∧ (h = .y → ((t.eng tr.desc.dstNode).buf tr.desc.dstBuf).read32 (8 * tr.desc.dstAt x + 4) = some (tr.valueAt x).y)
      ∧ (∀ a, (a < halfAt (tr.desc.dstAt x) h ∨ halfAt (tr.desc.dstAt x) h + 4 ≤ a) →
          ((t.eng tr.desc.dstNode).buf tr.desc.dstBuf).read a = ((s.eng tr.desc.dstNode).buf tr.desc.dstBuf).read a)
      ∧ t.eng tr.desc.dstNode
          = (s.eng tr.desc.dstNode).setBuf tr.desc.dstBuf ((t.eng tr.desc.dstNode).buf tr.desc.dstBuf)
      ∧ (tr.pending = [(x, h)] → (t.eng p).outstanding = (s.eng p).outstanding.eraseIdx i)
      ∧ (tr.pending ≠ [(x, h)] → (t.eng p).outstanding
          = (s.eng p).outstanding.set i { tr with pending := tr.pending.filter fun w => w != (x, h) })
      ∧ t.eng p = { s.eng p with outstanding := (t.eng p).outstanding }
      ∧ (∀ q, q ≠ p → q ≠ tr.desc.dstNode → t.eng q = s.eng q)
      ∧ t = { s with engines := t.engines, events := rest }
      ∧ (∀ rest', h = .x → (x, Half.y) ∈ tr.pending → rest = .deliver p i x .y :: rest' → ∃ u, step t = .next u
        ∧ ((u.eng tr.desc.dstNode).buf tr.desc.dstBuf).readElem (tr.desc.dstAt x) = some (tr.valueAt x))

/-- An increment's agent (43_transpose_exchange.md R185): `RDV_Q <- RDV_Q + 1` on the target's counter, the poster's included, and the increment leaves
`PENDING_ADD`; no node takes a step and nothing else changes. -/
def Obligations.AddIncrementsTheTarget : Prop :=
  ∀ (s : State) (p i q : Nat) (rest : List Event), s.legal = true → s.events = .add p i :: rest → p < s.engines.length →
    (s.eng p).pendingAdd[i]? = some q → q < s.engines.length →
    ∃ t, step s = .next t ∧ (t.eng q).rdv = (s.eng q).rdv + 1 ∧ (∀ r, r ≠ q → (t.eng r).rdv = (s.eng r).rdv)
      ∧ (t.eng p).pendingAdd = (s.eng p).pendingAdd.eraseIdx i
      ∧ (∀ r, r ≠ p → (t.eng r).pendingAdd = (s.eng r).pendingAdd)
      ∧ (∀ r, t.eng r = { s.eng r with rdv := (t.eng r).rdv, pendingAdd := (t.eng r).pendingAdd })
      ∧ t = { s with engines := t.engines, events := rest }

/-- TRANSPOSE in phases 3 to 5 (43_transpose_exchange.md R183, R184, R186, R187): while a transfer is outstanding it waits without a change; once none is, one
increment to every node, its own included, is posted, and `Q` holds the last of them (10_state.md R33); below `RDV = NB` it waits without a change, and at
`RDV >= NB`, in the same turn or a later one, it subtracts `NB` and completes. Nothing is said of the cycle counters (log 10). -/
def Obligations.TransposeAnnouncesAndPasses : Prop :=
  ∀ (b : Buf) (s : State), s.legal = true → s.node < s.engines.length →
    (s.cur.stage = .transfers → s.cur.outstanding ≠ [] → exec (.transpose b) s = .next s)
      ∧ (s.cur.stage = .transfers → s.cur.outstanding = [] → s.cur.rdv.toNat < cfgNB s.cur.cfg →
        ∃ t, exec (.transpose b) s = .next t
          ∧ t.cur = { s.cur with
              pendingAdd := s.cur.pendingAdd ++ List.range (cfgNB s.cur.cfg), stage := .rendezvous, work := t.cur.work
              commCycles := t.cur.commCycles, compCycles := t.cur.compCycles }
          ∧ t.cur.work = { s.cur.work with xpose := { s.cur.work.xpose with q := t.cur.work.xpose.q } }
          ∧ t.cur.work.xpose.q.toNat = cfgNB s.cur.cfg - 1
          ∧ s.KeepsOthers t ∧ t = { s with engines := t.engines })
      ∧ (s.cur.stage = .rendezvous → s.cur.rdv.toNat < cfgNB s.cur.cfg → exec (.transpose b) s = .next s)
      ∧ (s.cur.stage = .rendezvous ∨ s.cur.stage = .transfers ∧ s.cur.outstanding = [] →
        cfgNB s.cur.cfg ≤ s.cur.rdv.toNat → s.cur.pc ≠ 255#8 → ∃ t, exec (.transpose b) s = .next t
          ∧ t.cur.rdv.toNat = s.cur.rdv.toNat - cfgNB s.cur.cfg ∧ t.cur.pc = s.cur.pc + 1 ∧ t.cur.stage = .begin
          ∧ s.cur.KeepsBuffers t.cur ∧ s.cur.KeepsTables t.cur ∧ s.cur.KeepsControl t.cur
          ∧ t.cur.outstanding = s.cur.outstanding
          ∧ t.cur.pendingAdd = s.cur.pendingAdd ++ (if s.cur.stage = .transfers then List.range (cfgNB s.cur.cfg) else [])
          ∧ t.cur.outPending = s.cur.outPending ∧ t.cur.log = s.cur.log ∧ t.cur.status = s.cur.status
          ∧ s.KeepsOthers t ∧ s.KeepsWorld t)

/-- TRANSPOSE on one node (43_transpose_exchange.md R189): no transfer, no log event, the destination is the exact transpose of the source. -/
def Obligations.OneNodeTransposeIsLocal : Prop :=
  ∀ (b : Buf) (s : State), s.ready → cfgNB s.cur.cfg = 1 → (s.cur.buf b).holds (bufElems s.cur.cfg) →
    s.cur.outstanding = [] → s.incoming s.node b = [] →
    ∃ t, exec (.transpose b) s = .next t ∧ t.cur.outstanding = [] ∧ t.cur.log = s.cur.log ∧ t.answers = s.answers
      ∧ ∀ x y, x < cfgN s.cur.cfg → y < cfgN s.cur.cfg →
          (t.cur.buf (other b)).readElem (x * cfgN s.cur.cfg + y) = (s.cur.buf b).readElem (y * cfgN s.cur.cfg + x)

/-- A read of an element with writes in flight gives, half by half, the old value or that of one of the writes to that half (20_memory.md R76, R91), and the
half held where none is. -/
def Obligations.RacingReadsAreOldOrNewPerHalf : Prop :=
  ∀ (inc : Incoming) (d : Draw) (e : Nat) (old : Cplx),
    ((raceRead inc d e old).x = old.x ∨ ((e, Half.x), (raceRead inc d e old).x) ∈ inc)
      ∧ ((raceRead inc d e old).y = old.y ∨ ((e, Half.y), (raceRead inc d e old).y) ∈ inc)
      ∧ ((∀ w ∈ inc, w.1.1 ≠ e) → raceRead inc d e old = old)

/-! ### Invariants and whole-machine rules -/

/-- Every step keeps every memory in its canonical form. -/
def Obligations.StepKeepsMemoriesCanonical : Prop :=
  ∀ s t : State, s.memWf = true → step s = .next t → t.memWf = true

/-- Every step keeps `STATUS` in agreement with `RUN` and its reserved bits zero (10_state.md R31, R32). -/
def Obligations.StepKeepsStatusAgreeing : Prop :=
  ∀ s t : State, s.statusAgrees = true → step s = .next t → t.statusAgrees = true

/-- Every step keeps the system legal, every configuration register as it is, and the program as it is (10_state.md R26, 20_memory.md R94). -/
def Obligations.StepKeepsTheConfiguration : Prop :=
  ∀ s t : State, step s = .next t → t.legal = true ∧ t.params = s.params ∧ t.engines.length = s.engines.length
    ∧ ∀ q, (t.eng q).cfg = (s.eng q).cfg

/-- No step writes outside a buffer's range (20_memory.md R65, R79): under a legal configuration nothing beyond `TH*N` elements is ever
listed. -/
def Obligations.StepKeepsBuffersInRange : Prop :=
  ∀ s t : State, s.buffersInRange = true → step s = .next t → t.buffersInRange = true

/-- A transfer leaves `OUTSTANDING` when its last element is written (43_transpose_exchange.md R180): every step keeps each member of it with something
left to write. -/
def Obligations.StepKeepsTransfersAlive : Prop :=
  ∀ s t : State, s.transfersAlive = true → step s = .next t → t.transfersAlive = true

/-- Every step keeps the tables as their valid bits say (10_state.md R40 to R42, 40_precompute.md R132): a valid table holds what its generator writes, every
pair of a valid LUT is a pair of columns, and the length of a table that is not valid is 0. -/
def Obligations.StepKeepsTablesValid : Prop :=
  ∀ s t : State, s.tablesHold → step s = .next t → t.tablesHold

/-- The invariants hold right after reset. -/
def Obligations.ResetMeetsTheInvariants : Prop :=
  State.reset.legal = true ∧ State.reset.memWf = true ∧ State.reset.statusAgrees = true
    ∧ State.reset.buffersInRange = true ∧ State.reset.transfersAlive = true ∧ State.reset.tablesHold

/-- The run states change only as 10_state.md R30 says: DONE and FATAL are left only by the host's reset (60_exceptions.md R231), IDLE only to RUNNING,
and RUNNING never to IDLE. -/
def Obligations.DoneAndFatalAreLeftOnlyByReset : Prop :=
  ∀ (s t : State) (q : Nat), step s = .next t → s.events.head? ≠ some .reset →
    ((s.eng q).run = .done → (t.eng q).run = .done) ∧ ((s.eng q).run = .fatal → (t.eng q).run = .fatal)
      ∧ ((s.eng q).run = .idle → (t.eng q).run = .idle ∨ (t.eng q).run = .running)
      ∧ ((s.eng q).run = .running → (t.eng q).run ≠ .idle)

/-- `PC` and `ITER_LEFT` change only as 10_state.md R28 and R29 say (44_pipeline_driver.md R200, R201, R207): but for reset, `PC` only where the node's sequencer completes
a command other than HALT, to the next index without a wrap or, for NEXT, to `ITER_ENTRY`; `ITER_LEFT` only by NEXT, which takes one off where one is left,
and by the host's start, which loads `CFG_N_ITER`. -/
def Obligations.ControlRegistersChangeOnlyAsStated : Prop :=
  ∀ (s t : State) (q : Nat), step s = .next t → s.events.head? ≠ some .reset →
    ((t.eng q).pc = (s.eng q).pc
        ∨ (t.eng q).stage = .begin ∧ ∃ i, s.runs q i ∧ i ≠ .halt
          ∧ ((s.eng q).pc ≠ 255#8 ∧ (t.eng q).pc = (s.eng q).pc + 1 ∨ i = .next ∧ (t.eng q).pc = s.params.iterEntry))
      ∧ ((t.eng q).iterLeft = (s.eng q).iterLeft
        ∨ s.runs q .next ∧ (t.eng q).iterLeft.toNat = (s.eng q).iterLeft.toNat - 1
        ∨ s.events.head? = some (.start q) ∧ (s.eng q).run = .idle ∧ (t.eng q).iterLeft = (s.eng q).cfg.nIter)

/-- But for reset, the log only grows at its end, `XFER_ERR` stays set and the cycle counters never fall (10_state.md R32, R46, R47). -/
def Obligations.LogAndErrorFlagOnlyGrow : Prop :=
  ∀ (s t : State) (q : Nat), step s = .next t → s.events.head? ≠ some .reset →
    (s.eng q).log <+: (t.eng q).log
      ∧ (flagOf (s.eng q).status Flag.xferErr = true → flagOf (t.eng q).status Flag.xferErr = true)
      ∧ (s.eng q).commCycles.toNat ≤ (t.eng q).commCycles.toNat
      ∧ (s.eng q).compCycles.toNat ≤ (t.eng q).compCycles.toNat

/-- A table, its length and its valid bit change only in its own generator, executed by its own node, and in reset (40_precompute.md R132, 10_state.md R32). -/
def Obligations.TablesChangeOnlyInTheirGenerator : Prop :=
  ∀ (s t : State) (q : Nat), step s = .next t → s.events.head? ≠ some .reset →
    (¬s.runs q .twgen → (t.eng q).tw = (s.eng q).tw ∧ (t.eng q).twLen = (s.eng q).twLen
        ∧ flagOf (t.eng q).status Flag.twValid = flagOf (s.eng q).status Flag.twValid)
      ∧ (¬s.runs q .brgen → (t.eng q).br = (s.eng q).br ∧ (t.eng q).brLen = (s.eng q).brLen
        ∧ flagOf (t.eng q).status Flag.brValid = flagOf (s.eng q).status Flag.brValid)
      ∧ (¬s.runs q .ctgen → (t.eng q).ct = (s.eng q).ct
        ∧ flagOf (t.eng q).status Flag.ctValid = flagOf (s.eng q).status Flag.ctValid)

/-- The rendezvous counter changes in exactly two ways (10_state.md R43): the agent of an increment that names the node adds 1, and the node's own sequencer,
executing a TRANSPOSE with at least `NB` counted, subtracts `NB`. -/
def Obligations.RendezvousCounterChangesInTwoWays : Prop :=
  ∀ (s t : State) (q : Nat), step s = .next t → s.events.head? ≠ some .reset →
    (t.eng q).rdv = (s.eng q).rdv
      ∨ ((∃ p i, s.events.head? = some (.add p i) ∧ (s.eng p).pendingAdd[i]? = some q) ∧ (t.eng q).rdv = (s.eng q).rdv + 1)
      ∨ ((∃ b, s.runs q (.transpose b)) ∧ cfgNB (s.eng q).cfg ≤ (s.eng q).rdv.toNat
          ∧ (t.eng q).rdv.toNat = (s.eng q).rdv.toNat - cfgNB (s.eng q).cfg)

/-- A command writes nothing of another node, neither region and no other node's arrival count: what reaches a peer is posted to the agents
(20_memory.md R66, R67, R77; 60_exceptions.md R244). What it can change of a peer is only which racing writes are still in flight (R91, log 4): the
transfers that survive keep their descriptors and values, in order, and each has no write pending that was not. -/
def Obligations.CommandsStayOnTheirNode : Prop :=
  ∀ (i : Instr) (s t : State) (q : Nat), exec i s = .next t → q ≠ s.node →
    t.eng q = { s.eng q with outstanding := (t.eng q).outstanding }
      ∧ t.inRegion = s.inRegion ∧ t.outRegion = s.outRegion ∧ t.arrivalsOf q = s.arrivalsOf q
      ∧ ∃ kept : List Transfer, kept.Sublist (s.eng q).outstanding
        ∧ List.Forall₂ (fun tr tr' : Transfer => tr'.desc = tr.desc ∧ tr'.values = tr.values ∧ tr'.pending.Sublist tr.pending)
          kept (t.eng q).outstanding

/-! ### Arithmetic -/

/-- Where no NaN arises, addition and multiplication commute, and so does the complex product, bit for bit (00_scope.md R20). -/
def Obligations.ArithmeticCommutes : Prop :=
  (∀ (d d' : Draw) (a b : F32), F32.isNaN (fadd .ieee754 d a b) = false → fadd .ieee754 d' b a = fadd .ieee754 d a b)
    ∧ (∀ (d d' : Draw) (a b : F32), F32.isNaN (fmul .ieee754 d a b) = false → fmul .ieee754 d' b a = fmul .ieee754 d a b)
    ∧ ∀ (d d' : Draw) (a b : Cplx), F32.isNaN (cmul .ieee754 d a b).x = false →
        F32.isNaN (cmul .ieee754 d a b).y = false → cmul .ieee754 d' b a = cmul .ieee754 d a b

/-- The NaN and signed-zero rules of the reference arithmetic (00_scope.md R18, R19): a NaN operand, the difference of equal infinities and zero times
infinity give a NaN; `x - x = +0` for finite `x`; `(-0) + (-0) = -0`; `(+0) + (-0) = +0`; a product with a zero is a zero whose sign is the exclusive
or; `fneg` flips bit 31 and nothing else. -/
def Obligations.NaNAndSignedZeroRules : Prop :=
  (∀ (d : Draw) (a b : F32), (F32.isNaN a = true ∨ F32.isNaN b = true) →
      F32.isNaN (fadd .ieee754 d a b) = true ∧ F32.isNaN (fsub .ieee754 d a b) = true
        ∧ F32.isNaN (fmul .ieee754 d a b) = true)
    ∧ (∀ (d : Draw) (a : F32), F32.isInf a = true → F32.isNaN (fsub .ieee754 d a a) = true)
    ∧ (∀ (d : Draw) (a b : F32), F32.isInf a = true → F32.isZero b = true →
        F32.isNaN (fmul .ieee754 d a b) = true ∧ F32.isNaN (fmul .ieee754 d b a) = true)
    ∧ (∀ (d : Draw) (a : F32), F32.isFinite a = true → fsub .ieee754 d a a = 0x00000000#32)
    ∧ (∀ d : Draw, fadd .ieee754 d 0x80000000#32 0x80000000#32 = 0x80000000#32
        ∧ fadd .ieee754 d 0x00000000#32 0x80000000#32 = 0x00000000#32)
    ∧ (∀ (d : Draw) (a b : F32), F32.isFinite a = true → F32.isZero b = true →
        fmul .ieee754 d a b = if F32.sign a = F32.sign b then 0x00000000#32 else 0x80000000#32)
    ∧ ∀ (a : F32) (k : Nat), k < 32 → (fneg a).getLsbD k = if k = 31 then !a.getLsbD 31 else a.getLsbD k

/-- Rounding to nearest (00_scope.md R18): a finite sum or product is at least as near to the exact result as any finite datum is. Values are in
units of 2^-149, products in units of 2^-298. -/
def Obligations.ArithmeticRoundsToNearest : Prop :=
  ∀ (d : Draw) (a b f : F32), F32.isFinite a = true → F32.isFinite b = true → F32.isFinite f = true →
    (F32.isFinite (fadd .ieee754 d a b) = true →
        |F32.value (fadd .ieee754 d a b) - (F32.value a + F32.value b)| ≤ |F32.value f - (F32.value a + F32.value b)|)
      ∧ (F32.isFinite (fmul .ieee754 d a b) = true →
        |F32.value (fmul .ieee754 d a b) * 2 ^ 149 - F32.value a * F32.value b|
          ≤ |F32.value f * 2 ^ 149 - F32.value a * F32.value b|)
end

