-- ==== Sys2Proof/Laws/State.lean ====
section
/-! SUPPORT. What each update of an engine or of the system leaves in each field. -/

namespace Sys2Proof.Machine

/-! ### A flag of `STATUS` -/

@[simp] theorem Engine.flag_cfg (e : Engine) (i : Nat) (v : Bool) : (e.flag i v).cfg = e.cfg := rfl
@[simp] theorem Engine.flag_pc (e : Engine) (i : Nat) (v : Bool) : (e.flag i v).pc = e.pc := rfl
@[simp] theorem Engine.flag_iterLeft (e : Engine) (i : Nat) (v : Bool) : (e.flag i v).iterLeft = e.iterLeft := rfl
@[simp] theorem Engine.flag_run (e : Engine) (i : Nat) (v : Bool) : (e.flag i v).run = e.run := rfl
@[simp] theorem Engine.flag_stage (e : Engine) (i : Nat) (v : Bool) : (e.flag i v).stage = e.stage := rfl
@[simp] theorem Engine.flag_bufA (e : Engine) (i : Nat) (v : Bool) : (e.flag i v).bufA = e.bufA := rfl
@[simp] theorem Engine.flag_bufB (e : Engine) (i : Nat) (v : Bool) : (e.flag i v).bufB = e.bufB := rfl
@[simp] theorem Engine.flag_tw (e : Engine) (i : Nat) (v : Bool) : (e.flag i v).tw = e.tw := rfl
@[simp] theorem Engine.flag_twLen (e : Engine) (i : Nat) (v : Bool) : (e.flag i v).twLen = e.twLen := rfl
@[simp] theorem Engine.flag_br (e : Engine) (i : Nat) (v : Bool) : (e.flag i v).br = e.br := rfl
@[simp] theorem Engine.flag_brLen (e : Engine) (i : Nat) (v : Bool) : (e.flag i v).brLen = e.brLen := rfl
@[simp] theorem Engine.flag_ct (e : Engine) (i : Nat) (v : Bool) : (e.flag i v).ct = e.ct := rfl
@[simp] theorem Engine.flag_rdv (e : Engine) (i : Nat) (v : Bool) : (e.flag i v).rdv = e.rdv := rfl
@[simp] theorem Engine.flag_outstanding (e : Engine) (i : Nat) (v : Bool) : (e.flag i v).outstanding = e.outstanding := rfl
@[simp] theorem Engine.flag_pendingAdd (e : Engine) (i : Nat) (v : Bool) : (e.flag i v).pendingAdd = e.pendingAdd := rfl
@[simp] theorem Engine.flag_outPending (e : Engine) (i : Nat) (v : Bool) : (e.flag i v).outPending = e.outPending := rfl
@[simp] theorem Engine.flag_commCycles (e : Engine) (i : Nat) (v : Bool) : (e.flag i v).commCycles = e.commCycles := rfl
@[simp] theorem Engine.flag_compCycles (e : Engine) (i : Nat) (v : Bool) : (e.flag i v).compCycles = e.compCycles := rfl
@[simp] theorem Engine.flag_log (e : Engine) (i : Nat) (v : Bool) : (e.flag i v).log = e.log := rfl
@[simp] theorem Engine.flag_work (e : Engine) (i : Nat) (v : Bool) : (e.flag i v).work = e.work := rfl
@[simp] theorem Engine.flag_status (e : Engine) (i : Nat) (v : Bool) : (e.flag i v).status = setFlag e.status i v := rfl
/-! ### A buffer replaced -/

@[simp] theorem Engine.setBuf_cfg (e : Engine) (b : Buf) (m : Memory) : (e.setBuf b m).cfg = e.cfg := by cases b <;> rfl
@[simp] theorem Engine.setBuf_pc (e : Engine) (b : Buf) (m : Memory) : (e.setBuf b m).pc = e.pc := by cases b <;> rfl
@[simp] theorem Engine.setBuf_iterLeft (e : Engine) (b : Buf) (m : Memory) : (e.setBuf b m).iterLeft = e.iterLeft := by cases b <;> rfl
@[simp] theorem Engine.setBuf_run (e : Engine) (b : Buf) (m : Memory) : (e.setBuf b m).run = e.run := by cases b <;> rfl
@[simp] theorem Engine.setBuf_status (e : Engine) (b : Buf) (m : Memory) : (e.setBuf b m).status = e.status := by cases b <;> rfl
@[simp] theorem Engine.setBuf_stage (e : Engine) (b : Buf) (m : Memory) : (e.setBuf b m).stage = e.stage := by cases b <;> rfl
@[simp] theorem Engine.setBuf_tw (e : Engine) (b : Buf) (m : Memory) : (e.setBuf b m).tw = e.tw := by cases b <;> rfl
@[simp] theorem Engine.setBuf_twLen (e : Engine) (b : Buf) (m : Memory) : (e.setBuf b m).twLen = e.twLen := by cases b <;> rfl
@[simp] theorem Engine.setBuf_br (e : Engine) (b : Buf) (m : Memory) : (e.setBuf b m).br = e.br := by cases b <;> rfl
@[simp] theorem Engine.setBuf_brLen (e : Engine) (b : Buf) (m : Memory) : (e.setBuf b m).brLen = e.brLen := by cases b <;> rfl
@[simp] theorem Engine.setBuf_ct (e : Engine) (b : Buf) (m : Memory) : (e.setBuf b m).ct = e.ct := by cases b <;> rfl
@[simp] theorem Engine.setBuf_rdv (e : Engine) (b : Buf) (m : Memory) : (e.setBuf b m).rdv = e.rdv := by cases b <;> rfl
@[simp] theorem Engine.setBuf_outstanding (e : Engine) (b : Buf) (m : Memory) : (e.setBuf b m).outstanding = e.outstanding := by cases b <;> rfl
@[simp] theorem Engine.setBuf_pendingAdd (e : Engine) (b : Buf) (m : Memory) : (e.setBuf b m).pendingAdd = e.pendingAdd := by cases b <;> rfl
@[simp] theorem Engine.setBuf_outPending (e : Engine) (b : Buf) (m : Memory) : (e.setBuf b m).outPending = e.outPending := by cases b <;> rfl
@[simp] theorem Engine.setBuf_commCycles (e : Engine) (b : Buf) (m : Memory) : (e.setBuf b m).commCycles = e.commCycles := by cases b <;> rfl
@[simp] theorem Engine.setBuf_compCycles (e : Engine) (b : Buf) (m : Memory) : (e.setBuf b m).compCycles = e.compCycles := by cases b <;> rfl
@[simp] theorem Engine.setBuf_log (e : Engine) (b : Buf) (m : Memory) : (e.setBuf b m).log = e.log := by cases b <;> rfl
@[simp] theorem Engine.setBuf_work (e : Engine) (b : Buf) (m : Memory) : (e.setBuf b m).work = e.work := by cases b <;> rfl
@[simp] theorem Engine.setBuf_buf_self (e : Engine) (b : Buf) (m : Memory) : (e.setBuf b m).buf b = m := by cases b <;> rfl
@[simp] theorem Engine.setBuf_buf_other (e : Engine) (b : Buf) (m : Memory) : (e.setBuf b m).buf (other b) = e.buf (other b) := by
  cases b <;> rfl
@[simp] theorem Engine.setBuf_other_buf (e : Engine) (b : Buf) (m : Memory) : (e.setBuf (other b) m).buf b = e.buf b := by
  cases b <;> rfl
theorem Engine.setBuf_buf (e : Engine) (b c : Buf) (m : Memory) : (e.setBuf b m).buf c = if c = b then m else e.buf c := by
  cases b <;> cases c <;> rfl
@[simp] theorem other_other (b : Buf) : other (other b) = b := by cases b <;> rfl
theorem other_ne (b : Buf) : other b ≠ b := by cases b <;> decide

/-- The buffers read back are the two fields. -/
theorem Engine.keepsBuffers_iff (e e' : Engine) (b : Buf) :
    (e'.bufA = e.bufA ∧ e'.bufB = e.bufB) ↔ (e'.buf b = e.buf b ∧ e'.buf (other b) = e.buf (other b)) := by
  cases b
  · exact Iff.rfl
  · exact and_comm

/-! ### The cycle counters -/

@[simp] theorem Engine.chargeComm_cfg (e : Engine) (n : Nat) : (e.chargeComm n).cfg = e.cfg := rfl
@[simp] theorem Engine.chargeComm_pc (e : Engine) (n : Nat) : (e.chargeComm n).pc = e.pc := rfl
@[simp] theorem Engine.chargeComm_iterLeft (e : Engine) (n : Nat) : (e.chargeComm n).iterLeft = e.iterLeft := rfl
@[simp] theorem Engine.chargeComm_run (e : Engine) (n : Nat) : (e.chargeComm n).run = e.run := rfl
@[simp] theorem Engine.chargeComm_status (e : Engine) (n : Nat) : (e.chargeComm n).status = e.status := rfl
@[simp] theorem Engine.chargeComm_stage (e : Engine) (n : Nat) : (e.chargeComm n).stage = e.stage := rfl
@[simp] theorem Engine.chargeComm_bufA (e : Engine) (n : Nat) : (e.chargeComm n).bufA = e.bufA := rfl
@[simp] theorem Engine.chargeComm_bufB (e : Engine) (n : Nat) : (e.chargeComm n).bufB = e.bufB := rfl
@[simp] theorem Engine.chargeComm_tw (e : Engine) (n : Nat) : (e.chargeComm n).tw = e.tw := rfl
@[simp] theorem Engine.chargeComm_twLen (e : Engine) (n : Nat) : (e.chargeComm n).twLen = e.twLen := rfl
@[simp] theorem Engine.chargeComm_br (e : Engine) (n : Nat) : (e.chargeComm n).br = e.br := rfl
@[simp] theorem Engine.chargeComm_brLen (e : Engine) (n : Nat) : (e.chargeComm n).brLen = e.brLen := rfl
@[simp] theorem Engine.chargeComm_ct (e : Engine) (n : Nat) : (e.chargeComm n).ct = e.ct := rfl
@[simp] theorem Engine.chargeComm_rdv (e : Engine) (n : Nat) : (e.chargeComm n).rdv = e.rdv := rfl
@[simp] theorem Engine.chargeComm_outstanding (e : Engine) (n : Nat) : (e.chargeComm n).outstanding = e.outstanding := rfl
@[simp] theorem Engine.chargeComm_pendingAdd (e : Engine) (n : Nat) : (e.chargeComm n).pendingAdd = e.pendingAdd := rfl
@[simp] theorem Engine.chargeComm_outPending (e : Engine) (n : Nat) : (e.chargeComm n).outPending = e.outPending := rfl
@[simp] theorem Engine.chargeComm_compCycles (e : Engine) (n : Nat) : (e.chargeComm n).compCycles = e.compCycles := rfl
@[simp] theorem Engine.chargeComm_log (e : Engine) (n : Nat) : (e.chargeComm n).log = e.log := rfl
@[simp] theorem Engine.chargeComm_work (e : Engine) (n : Nat) : (e.chargeComm n).work = e.work := rfl
@[simp] theorem Engine.chargeComp_cfg (e : Engine) (n : Nat) : (e.chargeComp n).cfg = e.cfg := rfl
@[simp] theorem Engine.chargeComp_pc (e : Engine) (n : Nat) : (e.chargeComp n).pc = e.pc := rfl
@[simp] theorem Engine.chargeComp_iterLeft (e : Engine) (n : Nat) : (e.chargeComp n).iterLeft = e.iterLeft := rfl
@[simp] theorem Engine.chargeComp_run (e : Engine) (n : Nat) : (e.chargeComp n).run = e.run := rfl
@[simp] theorem Engine.chargeComp_status (e : Engine) (n : Nat) : (e.chargeComp n).status = e.status := rfl
@[simp] theorem Engine.chargeComp_stage (e : Engine) (n : Nat) : (e.chargeComp n).stage = e.stage := rfl
@[simp] theorem Engine.chargeComp_bufA (e : Engine) (n : Nat) : (e.chargeComp n).bufA = e.bufA := rfl
@[simp] theorem Engine.chargeComp_bufB (e : Engine) (n : Nat) : (e.chargeComp n).bufB = e.bufB := rfl
@[simp] theorem Engine.chargeComp_tw (e : Engine) (n : Nat) : (e.chargeComp n).tw = e.tw := rfl
@[simp] theorem Engine.chargeComp_twLen (e : Engine) (n : Nat) : (e.chargeComp n).twLen = e.twLen := rfl
@[simp] theorem Engine.chargeComp_br (e : Engine) (n : Nat) : (e.chargeComp n).br = e.br := rfl
@[simp] theorem Engine.chargeComp_brLen (e : Engine) (n : Nat) : (e.chargeComp n).brLen = e.brLen := rfl
@[simp] theorem Engine.chargeComp_ct (e : Engine) (n : Nat) : (e.chargeComp n).ct = e.ct := rfl
@[simp] theorem Engine.chargeComp_rdv (e : Engine) (n : Nat) : (e.chargeComp n).rdv = e.rdv := rfl
@[simp] theorem Engine.chargeComp_outstanding (e : Engine) (n : Nat) : (e.chargeComp n).outstanding = e.outstanding := rfl
@[simp] theorem Engine.chargeComp_pendingAdd (e : Engine) (n : Nat) : (e.chargeComp n).pendingAdd = e.pendingAdd := rfl
@[simp] theorem Engine.chargeComp_outPending (e : Engine) (n : Nat) : (e.chargeComp n).outPending = e.outPending := rfl
@[simp] theorem Engine.chargeComp_commCycles (e : Engine) (n : Nat) : (e.chargeComp n).commCycles = e.commCycles := rfl
@[simp] theorem Engine.chargeComp_log (e : Engine) (n : Nat) : (e.chargeComp n).log = e.log := rfl
@[simp] theorem Engine.chargeComp_work (e : Engine) (n : Nat) : (e.chargeComp n).work = e.work := rfl

theorem addCycles_mono (c a : BitVec 64) : c.toNat ≤ (addCycles c a).toNat := by
  unfold addCycles
  split_ifs with h
  · rw [BitVec.toNat_add, Nat.mod_eq_of_lt h]; omega
  · rw [BitVec.toNat_allOnes]; omega

theorem Engine.chargeComm_mono (e : Engine) (n : Nat) : e.commCycles.toNat ≤ (e.chargeComm n).commCycles.toNat :=
  addCycles_mono _ _

theorem Engine.chargeComp_mono (e : Engine) (n : Nat) : e.compCycles.toNat ≤ (e.chargeComp n).compCycles.toNat :=
  addCycles_mono _ _

/-! ### The fatal entry, the end of a command -/

@[simp] theorem Engine.fatalEntry_cfg (e : Engine) (c : FatalCause) : (e.fatalEntry c).cfg = e.cfg := rfl
@[simp] theorem Engine.fatalEntry_pc (e : Engine) (c : FatalCause) : (e.fatalEntry c).pc = e.pc := rfl
@[simp] theorem Engine.fatalEntry_iterLeft (e : Engine) (c : FatalCause) : (e.fatalEntry c).iterLeft = e.iterLeft := rfl
@[simp] theorem Engine.fatalEntry_bufA (e : Engine) (c : FatalCause) : (e.fatalEntry c).bufA = e.bufA := rfl
@[simp] theorem Engine.fatalEntry_bufB (e : Engine) (c : FatalCause) : (e.fatalEntry c).bufB = e.bufB := rfl
@[simp] theorem Engine.fatalEntry_tw (e : Engine) (c : FatalCause) : (e.fatalEntry c).tw = e.tw := rfl
@[simp] theorem Engine.fatalEntry_twLen (e : Engine) (c : FatalCause) : (e.fatalEntry c).twLen = e.twLen := rfl
@[simp] theorem Engine.fatalEntry_br (e : Engine) (c : FatalCause) : (e.fatalEntry c).br = e.br := rfl
@[simp] theorem Engine.fatalEntry_brLen (e : Engine) (c : FatalCause) : (e.fatalEntry c).brLen = e.brLen := rfl
@[simp] theorem Engine.fatalEntry_ct (e : Engine) (c : FatalCause) : (e.fatalEntry c).ct = e.ct := rfl
@[simp] theorem Engine.fatalEntry_rdv (e : Engine) (c : FatalCause) : (e.fatalEntry c).rdv = e.rdv := rfl
@[simp] theorem Engine.fatalEntry_outstanding (e : Engine) (c : FatalCause) : (e.fatalEntry c).outstanding = e.outstanding := rfl
@[simp] theorem Engine.fatalEntry_pendingAdd (e : Engine) (c : FatalCause) : (e.fatalEntry c).pendingAdd = e.pendingAdd := rfl
@[simp] theorem Engine.fatalEntry_outPending (e : Engine) (c : FatalCause) : (e.fatalEntry c).outPending = e.outPending := rfl
@[simp] theorem Engine.fatalEntry_commCycles (e : Engine) (c : FatalCause) : (e.fatalEntry c).commCycles = e.commCycles := rfl
@[simp] theorem Engine.fatalEntry_compCycles (e : Engine) (c : FatalCause) : (e.fatalEntry c).compCycles = e.compCycles := rfl
@[simp] theorem Engine.fatalEntry_log (e : Engine) (c : FatalCause) : (e.fatalEntry c).log = e.log := rfl
@[simp] theorem Engine.fatalEntry_work (e : Engine) (c : FatalCause) : (e.fatalEntry c).work = e.work := rfl
@[simp] theorem Engine.fatalEntry_run (e : Engine) (c : FatalCause) : (e.fatalEntry c).run = .fatal := rfl
@[simp] theorem Engine.fatalEntry_stage (e : Engine) (c : FatalCause) : (e.fatalEntry c).stage = .begin := rfl
@[simp] theorem Engine.fatalEntry_status (e : Engine) (c : FatalCause) : (e.fatalEntry c).status = setCode (setFlag e.status Flag.fatal true) (fatalCode c) := rfl
@[simp] theorem Engine.leave_cfg (e : Engine) (n : Nat) : (e.leave n).cfg = e.cfg := rfl
@[simp] theorem Engine.leave_pc (e : Engine) (n : Nat) : (e.leave n).pc = e.pc := rfl
@[simp] theorem Engine.leave_iterLeft (e : Engine) (n : Nat) : (e.leave n).iterLeft = e.iterLeft := rfl
@[simp] theorem Engine.leave_run (e : Engine) (n : Nat) : (e.leave n).run = e.run := rfl
@[simp] theorem Engine.leave_status (e : Engine) (n : Nat) : (e.leave n).status = e.status := rfl
@[simp] theorem Engine.leave_bufA (e : Engine) (n : Nat) : (e.leave n).bufA = e.bufA := rfl
@[simp] theorem Engine.leave_bufB (e : Engine) (n : Nat) : (e.leave n).bufB = e.bufB := rfl
@[simp] theorem Engine.leave_tw (e : Engine) (n : Nat) : (e.leave n).tw = e.tw := rfl
@[simp] theorem Engine.leave_twLen (e : Engine) (n : Nat) : (e.leave n).twLen = e.twLen := rfl
@[simp] theorem Engine.leave_br (e : Engine) (n : Nat) : (e.leave n).br = e.br := rfl
@[simp] theorem Engine.leave_brLen (e : Engine) (n : Nat) : (e.leave n).brLen = e.brLen := rfl
@[simp] theorem Engine.leave_ct (e : Engine) (n : Nat) : (e.leave n).ct = e.ct := rfl
@[simp] theorem Engine.leave_rdv (e : Engine) (n : Nat) : (e.leave n).rdv = e.rdv := rfl
@[simp] theorem Engine.leave_outstanding (e : Engine) (n : Nat) : (e.leave n).outstanding = e.outstanding := rfl
@[simp] theorem Engine.leave_pendingAdd (e : Engine) (n : Nat) : (e.leave n).pendingAdd = e.pendingAdd := rfl
@[simp] theorem Engine.leave_outPending (e : Engine) (n : Nat) : (e.leave n).outPending = e.outPending := rfl
@[simp] theorem Engine.leave_commCycles (e : Engine) (n : Nat) : (e.leave n).commCycles = e.commCycles := rfl
@[simp] theorem Engine.leave_compCycles (e : Engine) (n : Nat) : (e.leave n).compCycles = e.compCycles := rfl
@[simp] theorem Engine.leave_log (e : Engine) (n : Nat) : (e.leave n).log = e.log := rfl
@[simp] theorem Engine.leave_stage (e : Engine) (n : Nat) : (e.leave n).stage = .begin := rfl
@[simp] theorem Engine.complete_cfg (e : Engine) (n : Nat) : (e.complete n).cfg = e.cfg := by unfold Engine.complete Engine.advance; split <;> rfl
@[simp] theorem Engine.complete_iterLeft (e : Engine) (n : Nat) : (e.complete n).iterLeft = e.iterLeft := by unfold Engine.complete Engine.advance; split <;> rfl
@[simp] theorem Engine.complete_bufA (e : Engine) (n : Nat) : (e.complete n).bufA = e.bufA := by unfold Engine.complete Engine.advance; split <;> rfl
@[simp] theorem Engine.complete_bufB (e : Engine) (n : Nat) : (e.complete n).bufB = e.bufB := by unfold Engine.complete Engine.advance; split <;> rfl
@[simp] theorem Engine.complete_tw (e : Engine) (n : Nat) : (e.complete n).tw = e.tw := by unfold Engine.complete Engine.advance; split <;> rfl
@[simp] theorem Engine.complete_twLen (e : Engine) (n : Nat) : (e.complete n).twLen = e.twLen := by unfold Engine.complete Engine.advance; split <;> rfl
@[simp] theorem Engine.complete_br (e : Engine) (n : Nat) : (e.complete n).br = e.br := by unfold Engine.complete Engine.advance; split <;> rfl
@[simp] theorem Engine.complete_brLen (e : Engine) (n : Nat) : (e.complete n).brLen = e.brLen := by unfold Engine.complete Engine.advance; split <;> rfl
@[simp] theorem Engine.complete_ct (e : Engine) (n : Nat) : (e.complete n).ct = e.ct := by unfold Engine.complete Engine.advance; split <;> rfl
@[simp] theorem Engine.complete_rdv (e : Engine) (n : Nat) : (e.complete n).rdv = e.rdv := by unfold Engine.complete Engine.advance; split <;> rfl
@[simp] theorem Engine.complete_outstanding (e : Engine) (n : Nat) : (e.complete n).outstanding = e.outstanding := by unfold Engine.complete Engine.advance; split <;> rfl
@[simp] theorem Engine.complete_pendingAdd (e : Engine) (n : Nat) : (e.complete n).pendingAdd = e.pendingAdd := by unfold Engine.complete Engine.advance; split <;> rfl
@[simp] theorem Engine.complete_outPending (e : Engine) (n : Nat) : (e.complete n).outPending = e.outPending := by unfold Engine.complete Engine.advance; split <;> rfl
@[simp] theorem Engine.complete_commCycles (e : Engine) (n : Nat) : (e.complete n).commCycles = e.commCycles := by unfold Engine.complete Engine.advance; split <;> rfl
@[simp] theorem Engine.complete_compCycles (e : Engine) (n : Nat) : (e.complete n).compCycles = e.compCycles := by unfold Engine.complete Engine.advance; split <;> rfl
@[simp] theorem Engine.complete_log (e : Engine) (n : Nat) : (e.complete n).log = e.log := by unfold Engine.complete Engine.advance; split <;> rfl
@[simp] theorem Engine.complete_stage (e : Engine) (n : Nat) : (e.complete n).stage = .begin := by
  unfold Engine.complete Engine.advance; split <;> rfl

/-- A command that does not stand at the last index of all completes by advancing `PC`. -/
theorem Engine.complete_of_ne {e : Engine} (n : Nat) (h : e.pc ≠ 255#8) :
    e.complete n = { e.leave n with pc := e.pc + 1 } := by
  unfold Engine.complete Engine.advance
  exact if_neg h

/-- A command at the last index of all completes into the fatal fault. -/
theorem Engine.complete_of_eq {e : Engine} (n : Nat) (h : e.pc = 255#8) :
    e.complete n = (e.leave n).fatalEntry .illegalCmd := by
  unfold Engine.complete Engine.advance
  exact if_pos h

/-! ### The working registers of the generators -/

@[simp] theorem Engine.setGen_cfg (e : Engine) (g : GenRegs) : (e.setGen g).cfg = e.cfg := rfl
@[simp] theorem Engine.setGen_pc (e : Engine) (g : GenRegs) : (e.setGen g).pc = e.pc := rfl
@[simp] theorem Engine.setGen_iterLeft (e : Engine) (g : GenRegs) : (e.setGen g).iterLeft = e.iterLeft := rfl
@[simp] theorem Engine.setGen_run (e : Engine) (g : GenRegs) : (e.setGen g).run = e.run := rfl
@[simp] theorem Engine.setGen_status (e : Engine) (g : GenRegs) : (e.setGen g).status = e.status := rfl
@[simp] theorem Engine.setGen_stage (e : Engine) (g : GenRegs) : (e.setGen g).stage = e.stage := rfl
@[simp] theorem Engine.setGen_bufA (e : Engine) (g : GenRegs) : (e.setGen g).bufA = e.bufA := rfl
@[simp] theorem Engine.setGen_bufB (e : Engine) (g : GenRegs) : (e.setGen g).bufB = e.bufB := rfl
@[simp] theorem Engine.setGen_tw (e : Engine) (g : GenRegs) : (e.setGen g).tw = e.tw := rfl
@[simp] theorem Engine.setGen_twLen (e : Engine) (g : GenRegs) : (e.setGen g).twLen = e.twLen := rfl
@[simp] theorem Engine.setGen_br (e : Engine) (g : GenRegs) : (e.setGen g).br = e.br := rfl
@[simp] theorem Engine.setGen_brLen (e : Engine) (g : GenRegs) : (e.setGen g).brLen = e.brLen := rfl
@[simp] theorem Engine.setGen_ct (e : Engine) (g : GenRegs) : (e.setGen g).ct = e.ct := rfl
@[simp] theorem Engine.setGen_rdv (e : Engine) (g : GenRegs) : (e.setGen g).rdv = e.rdv := rfl
@[simp] theorem Engine.setGen_outstanding (e : Engine) (g : GenRegs) : (e.setGen g).outstanding = e.outstanding := rfl
@[simp] theorem Engine.setGen_pendingAdd (e : Engine) (g : GenRegs) : (e.setGen g).pendingAdd = e.pendingAdd := rfl
@[simp] theorem Engine.setGen_outPending (e : Engine) (g : GenRegs) : (e.setGen g).outPending = e.outPending := rfl
@[simp] theorem Engine.setGen_commCycles (e : Engine) (g : GenRegs) : (e.setGen g).commCycles = e.commCycles := rfl
@[simp] theorem Engine.setGen_compCycles (e : Engine) (g : GenRegs) : (e.setGen g).compCycles = e.compCycles := rfl
@[simp] theorem Engine.setGen_log (e : Engine) (g : GenRegs) : (e.setGen g).log = e.log := rfl
/-! ### What peers and the fabric do to an engine -/

@[simp] theorem Engine.cntAdd_cfg (e : Engine) : (e.cntAdd).cfg = e.cfg := rfl
@[simp] theorem Engine.cntAdd_pc (e : Engine) : (e.cntAdd).pc = e.pc := rfl
@[simp] theorem Engine.cntAdd_iterLeft (e : Engine) : (e.cntAdd).iterLeft = e.iterLeft := rfl
@[simp] theorem Engine.cntAdd_run (e : Engine) : (e.cntAdd).run = e.run := rfl
@[simp] theorem Engine.cntAdd_status (e : Engine) : (e.cntAdd).status = e.status := rfl
@[simp] theorem Engine.cntAdd_stage (e : Engine) : (e.cntAdd).stage = e.stage := rfl
@[simp] theorem Engine.cntAdd_bufA (e : Engine) : (e.cntAdd).bufA = e.bufA := rfl
@[simp] theorem Engine.cntAdd_bufB (e : Engine) : (e.cntAdd).bufB = e.bufB := rfl
@[simp] theorem Engine.cntAdd_tw (e : Engine) : (e.cntAdd).tw = e.tw := rfl
@[simp] theorem Engine.cntAdd_twLen (e : Engine) : (e.cntAdd).twLen = e.twLen := rfl
@[simp] theorem Engine.cntAdd_br (e : Engine) : (e.cntAdd).br = e.br := rfl
@[simp] theorem Engine.cntAdd_brLen (e : Engine) : (e.cntAdd).brLen = e.brLen := rfl
@[simp] theorem Engine.cntAdd_ct (e : Engine) : (e.cntAdd).ct = e.ct := rfl
@[simp] theorem Engine.cntAdd_outstanding (e : Engine) : (e.cntAdd).outstanding = e.outstanding := rfl
@[simp] theorem Engine.cntAdd_pendingAdd (e : Engine) : (e.cntAdd).pendingAdd = e.pendingAdd := rfl
@[simp] theorem Engine.cntAdd_outPending (e : Engine) : (e.cntAdd).outPending = e.outPending := rfl
@[simp] theorem Engine.cntAdd_commCycles (e : Engine) : (e.cntAdd).commCycles = e.commCycles := rfl
@[simp] theorem Engine.cntAdd_compCycles (e : Engine) : (e.cntAdd).compCycles = e.compCycles := rfl
@[simp] theorem Engine.cntAdd_log (e : Engine) : (e.cntAdd).log = e.log := rfl
@[simp] theorem Engine.cntAdd_work (e : Engine) : (e.cntAdd).work = e.work := rfl
@[simp] theorem Engine.cntAdd_rdv (e : Engine) : (e.cntAdd).rdv = e.rdv + 1 := rfl
@[simp] theorem Engine.performed_cfg (e : Engine) (i : Nat) (w : Nat × Half) : (e.performed i w).cfg = e.cfg := rfl
@[simp] theorem Engine.performed_pc (e : Engine) (i : Nat) (w : Nat × Half) : (e.performed i w).pc = e.pc := rfl
@[simp] theorem Engine.performed_iterLeft (e : Engine) (i : Nat) (w : Nat × Half) : (e.performed i w).iterLeft = e.iterLeft := rfl
@[simp] theorem Engine.performed_run (e : Engine) (i : Nat) (w : Nat × Half) : (e.performed i w).run = e.run := rfl
@[simp] theorem Engine.performed_status (e : Engine) (i : Nat) (w : Nat × Half) : (e.performed i w).status = e.status := rfl
@[simp] theorem Engine.performed_stage (e : Engine) (i : Nat) (w : Nat × Half) : (e.performed i w).stage = e.stage := rfl
@[simp] theorem Engine.performed_bufA (e : Engine) (i : Nat) (w : Nat × Half) : (e.performed i w).bufA = e.bufA := rfl
@[simp] theorem Engine.performed_bufB (e : Engine) (i : Nat) (w : Nat × Half) : (e.performed i w).bufB = e.bufB := rfl
@[simp] theorem Engine.performed_tw (e : Engine) (i : Nat) (w : Nat × Half) : (e.performed i w).tw = e.tw := rfl
@[simp] theorem Engine.performed_twLen (e : Engine) (i : Nat) (w : Nat × Half) : (e.performed i w).twLen = e.twLen := rfl
@[simp] theorem Engine.performed_br (e : Engine) (i : Nat) (w : Nat × Half) : (e.performed i w).br = e.br := rfl
@[simp] theorem Engine.performed_brLen (e : Engine) (i : Nat) (w : Nat × Half) : (e.performed i w).brLen = e.brLen := rfl
@[simp] theorem Engine.performed_ct (e : Engine) (i : Nat) (w : Nat × Half) : (e.performed i w).ct = e.ct := rfl
@[simp] theorem Engine.performed_rdv (e : Engine) (i : Nat) (w : Nat × Half) : (e.performed i w).rdv = e.rdv := rfl
@[simp] theorem Engine.performed_pendingAdd (e : Engine) (i : Nat) (w : Nat × Half) : (e.performed i w).pendingAdd = e.pendingAdd := rfl
@[simp] theorem Engine.performed_outPending (e : Engine) (i : Nat) (w : Nat × Half) : (e.performed i w).outPending = e.outPending := rfl
@[simp] theorem Engine.performed_commCycles (e : Engine) (i : Nat) (w : Nat × Half) : (e.performed i w).commCycles = e.commCycles := rfl
@[simp] theorem Engine.performed_compCycles (e : Engine) (i : Nat) (w : Nat × Half) : (e.performed i w).compCycles = e.compCycles := rfl
@[simp] theorem Engine.performed_log (e : Engine) (i : Nat) (w : Nat × Half) : (e.performed i w).log = e.log := rfl
@[simp] theorem Engine.performed_work (e : Engine) (i : Nat) (w : Nat × Half) : (e.performed i w).work = e.work := rfl
@[simp] theorem Engine.atStage_cfg (e : Engine) (st : Stage) : (e.atStage st).cfg = e.cfg := rfl
@[simp] theorem Engine.atStage_pc (e : Engine) (st : Stage) : (e.atStage st).pc = e.pc := rfl
@[simp] theorem Engine.atStage_iterLeft (e : Engine) (st : Stage) : (e.atStage st).iterLeft = e.iterLeft := rfl
@[simp] theorem Engine.atStage_run (e : Engine) (st : Stage) : (e.atStage st).run = e.run := rfl
@[simp] theorem Engine.atStage_status (e : Engine) (st : Stage) : (e.atStage st).status = e.status := rfl
@[simp] theorem Engine.atStage_bufA (e : Engine) (st : Stage) : (e.atStage st).bufA = e.bufA := rfl
@[simp] theorem Engine.atStage_bufB (e : Engine) (st : Stage) : (e.atStage st).bufB = e.bufB := rfl
@[simp] theorem Engine.atStage_tw (e : Engine) (st : Stage) : (e.atStage st).tw = e.tw := rfl
@[simp] theorem Engine.atStage_twLen (e : Engine) (st : Stage) : (e.atStage st).twLen = e.twLen := rfl
@[simp] theorem Engine.atStage_br (e : Engine) (st : Stage) : (e.atStage st).br = e.br := rfl
@[simp] theorem Engine.atStage_brLen (e : Engine) (st : Stage) : (e.atStage st).brLen = e.brLen := rfl
@[simp] theorem Engine.atStage_ct (e : Engine) (st : Stage) : (e.atStage st).ct = e.ct := rfl
@[simp] theorem Engine.atStage_rdv (e : Engine) (st : Stage) : (e.atStage st).rdv = e.rdv := rfl
@[simp] theorem Engine.atStage_outstanding (e : Engine) (st : Stage) : (e.atStage st).outstanding = e.outstanding := rfl
@[simp] theorem Engine.atStage_pendingAdd (e : Engine) (st : Stage) : (e.atStage st).pendingAdd = e.pendingAdd := rfl
@[simp] theorem Engine.atStage_outPending (e : Engine) (st : Stage) : (e.atStage st).outPending = e.outPending := rfl
@[simp] theorem Engine.atStage_commCycles (e : Engine) (st : Stage) : (e.atStage st).commCycles = e.commCycles := rfl
@[simp] theorem Engine.atStage_compCycles (e : Engine) (st : Stage) : (e.atStage st).compCycles = e.compCycles := rfl
@[simp] theorem Engine.atStage_log (e : Engine) (st : Stage) : (e.atStage st).log = e.log := rfl
@[simp] theorem Engine.atStage_work (e : Engine) (st : Stage) : (e.atStage st).work = e.work := rfl
@[simp] theorem Engine.atStage_stage (e : Engine) (st : Stage) : (e.atStage st).stage = st := rfl
theorem Engine.answered_eq (e : Engine) : e.answered = e.atStage e.answered.stage := by
  unfold Engine.answered
  split <;> rfl

@[simp] theorem Engine.answered_cfg (e : Engine) : (e.answered).cfg = e.cfg := by rw [e.answered_eq]; rfl
@[simp] theorem Engine.answered_pc (e : Engine) : (e.answered).pc = e.pc := by rw [e.answered_eq]; rfl
@[simp] theorem Engine.answered_iterLeft (e : Engine) : (e.answered).iterLeft = e.iterLeft := by rw [e.answered_eq]; rfl
@[simp] theorem Engine.answered_run (e : Engine) : (e.answered).run = e.run := by rw [e.answered_eq]; rfl
@[simp] theorem Engine.answered_status (e : Engine) : (e.answered).status = e.status := by rw [e.answered_eq]; rfl
@[simp] theorem Engine.answered_bufA (e : Engine) : (e.answered).bufA = e.bufA := by rw [e.answered_eq]; rfl
@[simp] theorem Engine.answered_bufB (e : Engine) : (e.answered).bufB = e.bufB := by rw [e.answered_eq]; rfl
@[simp] theorem Engine.answered_tw (e : Engine) : (e.answered).tw = e.tw := by rw [e.answered_eq]; rfl
@[simp] theorem Engine.answered_twLen (e : Engine) : (e.answered).twLen = e.twLen := by rw [e.answered_eq]; rfl
@[simp] theorem Engine.answered_br (e : Engine) : (e.answered).br = e.br := by rw [e.answered_eq]; rfl
@[simp] theorem Engine.answered_brLen (e : Engine) : (e.answered).brLen = e.brLen := by rw [e.answered_eq]; rfl
@[simp] theorem Engine.answered_ct (e : Engine) : (e.answered).ct = e.ct := by rw [e.answered_eq]; rfl
@[simp] theorem Engine.answered_rdv (e : Engine) : (e.answered).rdv = e.rdv := by rw [e.answered_eq]; rfl
@[simp] theorem Engine.answered_outstanding (e : Engine) : (e.answered).outstanding = e.outstanding := by rw [e.answered_eq]; rfl
@[simp] theorem Engine.answered_pendingAdd (e : Engine) : (e.answered).pendingAdd = e.pendingAdd := by rw [e.answered_eq]; rfl
@[simp] theorem Engine.answered_outPending (e : Engine) : (e.answered).outPending = e.outPending := by rw [e.answered_eq]; rfl
@[simp] theorem Engine.answered_commCycles (e : Engine) : (e.answered).commCycles = e.commCycles := by rw [e.answered_eq]; rfl
@[simp] theorem Engine.answered_compCycles (e : Engine) : (e.answered).compCycles = e.compCycles := by rw [e.answered_eq]; rfl
@[simp] theorem Engine.answered_log (e : Engine) : (e.answered).log = e.log := by rw [e.answered_eq]; rfl
@[simp] theorem Engine.answered_work (e : Engine) : (e.answered).work = e.work := by rw [e.answered_eq]; rfl
@[simp] theorem Engine.announced_cfg (e : Engine) : (e.announced).cfg = e.cfg := rfl
@[simp] theorem Engine.announced_pc (e : Engine) : (e.announced).pc = e.pc := rfl
@[simp] theorem Engine.announced_iterLeft (e : Engine) : (e.announced).iterLeft = e.iterLeft := rfl
@[simp] theorem Engine.announced_run (e : Engine) : (e.announced).run = e.run := rfl
@[simp] theorem Engine.announced_status (e : Engine) : (e.announced).status = e.status := rfl
@[simp] theorem Engine.announced_bufA (e : Engine) : (e.announced).bufA = e.bufA := rfl
@[simp] theorem Engine.announced_bufB (e : Engine) : (e.announced).bufB = e.bufB := rfl
@[simp] theorem Engine.announced_tw (e : Engine) : (e.announced).tw = e.tw := rfl
@[simp] theorem Engine.announced_twLen (e : Engine) : (e.announced).twLen = e.twLen := rfl
@[simp] theorem Engine.announced_br (e : Engine) : (e.announced).br = e.br := rfl
@[simp] theorem Engine.announced_brLen (e : Engine) : (e.announced).brLen = e.brLen := rfl
@[simp] theorem Engine.announced_ct (e : Engine) : (e.announced).ct = e.ct := rfl
@[simp] theorem Engine.announced_rdv (e : Engine) : (e.announced).rdv = e.rdv := rfl
@[simp] theorem Engine.announced_outstanding (e : Engine) : (e.announced).outstanding = e.outstanding := rfl
@[simp] theorem Engine.announced_outPending (e : Engine) : (e.announced).outPending = e.outPending := rfl
@[simp] theorem Engine.announced_commCycles (e : Engine) : (e.announced).commCycles = e.commCycles := rfl
@[simp] theorem Engine.announced_compCycles (e : Engine) : (e.announced).compCycles = e.compCycles := rfl
@[simp] theorem Engine.announced_log (e : Engine) : (e.announced).log = e.log := rfl
@[simp] theorem Engine.announced_stage (e : Engine) : (e.announced).stage = .rendezvous := rfl
@[simp] theorem Engine.announced_pendingAdd (e : Engine) : (e.announced).pendingAdd = e.pendingAdd ++ List.range (cfgNB e.cfg) := rfl
@[simp] theorem Engine.settle_cfg (e : Engine) (n q : Nat) (b : Buf) : (e.settle n q b).cfg = e.cfg := rfl
@[simp] theorem Engine.settle_pc (e : Engine) (n q : Nat) (b : Buf) : (e.settle n q b).pc = e.pc := rfl
@[simp] theorem Engine.settle_iterLeft (e : Engine) (n q : Nat) (b : Buf) : (e.settle n q b).iterLeft = e.iterLeft := rfl
@[simp] theorem Engine.settle_run (e : Engine) (n q : Nat) (b : Buf) : (e.settle n q b).run = e.run := rfl
@[simp] theorem Engine.settle_status (e : Engine) (n q : Nat) (b : Buf) : (e.settle n q b).status = e.status := rfl
@[simp] theorem Engine.settle_stage (e : Engine) (n q : Nat) (b : Buf) : (e.settle n q b).stage = e.stage := rfl
@[simp] theorem Engine.settle_bufA (e : Engine) (n q : Nat) (b : Buf) : (e.settle n q b).bufA = e.bufA := rfl
@[simp] theorem Engine.settle_bufB (e : Engine) (n q : Nat) (b : Buf) : (e.settle n q b).bufB = e.bufB := rfl
@[simp] theorem Engine.settle_tw (e : Engine) (n q : Nat) (b : Buf) : (e.settle n q b).tw = e.tw := rfl
@[simp] theorem Engine.settle_twLen (e : Engine) (n q : Nat) (b : Buf) : (e.settle n q b).twLen = e.twLen := rfl
@[simp] theorem Engine.settle_br (e : Engine) (n q : Nat) (b : Buf) : (e.settle n q b).br = e.br := rfl
@[simp] theorem Engine.settle_brLen (e : Engine) (n q : Nat) (b : Buf) : (e.settle n q b).brLen = e.brLen := rfl
@[simp] theorem Engine.settle_ct (e : Engine) (n q : Nat) (b : Buf) : (e.settle n q b).ct = e.ct := rfl
@[simp] theorem Engine.settle_rdv (e : Engine) (n q : Nat) (b : Buf) : (e.settle n q b).rdv = e.rdv := rfl
@[simp] theorem Engine.settle_pendingAdd (e : Engine) (n q : Nat) (b : Buf) : (e.settle n q b).pendingAdd = e.pendingAdd := rfl
@[simp] theorem Engine.settle_outPending (e : Engine) (n q : Nat) (b : Buf) : (e.settle n q b).outPending = e.outPending := rfl
@[simp] theorem Engine.settle_commCycles (e : Engine) (n q : Nat) (b : Buf) : (e.settle n q b).commCycles = e.commCycles := rfl
@[simp] theorem Engine.settle_compCycles (e : Engine) (n q : Nat) (b : Buf) : (e.settle n q b).compCycles = e.compCycles := rfl
@[simp] theorem Engine.settle_log (e : Engine) (n q : Nat) (b : Buf) : (e.settle n q b).log = e.log := rfl
@[simp] theorem Engine.settle_work (e : Engine) (n q : Nat) (b : Buf) : (e.settle n q b).work = e.work := rfl
@[simp] theorem Engine.peerWrite_cfg (e : Engine) (b : Buf) (off : Nat) (h : Half) (v : F32) : (e.peerWrite b off h v).cfg = e.cfg := by cases b <;> rfl
@[simp] theorem Engine.peerWrite_pc (e : Engine) (b : Buf) (off : Nat) (h : Half) (v : F32) : (e.peerWrite b off h v).pc = e.pc := by cases b <;> rfl
@[simp] theorem Engine.peerWrite_iterLeft (e : Engine) (b : Buf) (off : Nat) (h : Half) (v : F32) : (e.peerWrite b off h v).iterLeft = e.iterLeft := by cases b <;> rfl
@[simp] theorem Engine.peerWrite_run (e : Engine) (b : Buf) (off : Nat) (h : Half) (v : F32) : (e.peerWrite b off h v).run = e.run := by cases b <;> rfl
@[simp] theorem Engine.peerWrite_status (e : Engine) (b : Buf) (off : Nat) (h : Half) (v : F32) : (e.peerWrite b off h v).status = e.status := by cases b <;> rfl
@[simp] theorem Engine.peerWrite_stage (e : Engine) (b : Buf) (off : Nat) (h : Half) (v : F32) : (e.peerWrite b off h v).stage = e.stage := by cases b <;> rfl
@[simp] theorem Engine.peerWrite_tw (e : Engine) (b : Buf) (off : Nat) (h : Half) (v : F32) : (e.peerWrite b off h v).tw = e.tw := by cases b <;> rfl
@[simp] theorem Engine.peerWrite_twLen (e : Engine) (b : Buf) (off : Nat) (h : Half) (v : F32) : (e.peerWrite b off h v).twLen = e.twLen := by cases b <;> rfl
@[simp] theorem Engine.peerWrite_br (e : Engine) (b : Buf) (off : Nat) (h : Half) (v : F32) : (e.peerWrite b off h v).br = e.br := by cases b <;> rfl
@[simp] theorem Engine.peerWrite_brLen (e : Engine) (b : Buf) (off : Nat) (h : Half) (v : F32) : (e.peerWrite b off h v).brLen = e.brLen := by cases b <;> rfl
@[simp] theorem Engine.peerWrite_ct (e : Engine) (b : Buf) (off : Nat) (h : Half) (v : F32) : (e.peerWrite b off h v).ct = e.ct := by cases b <;> rfl
@[simp] theorem Engine.peerWrite_rdv (e : Engine) (b : Buf) (off : Nat) (h : Half) (v : F32) : (e.peerWrite b off h v).rdv = e.rdv := by cases b <;> rfl
@[simp] theorem Engine.peerWrite_outstanding (e : Engine) (b : Buf) (off : Nat) (h : Half) (v : F32) : (e.peerWrite b off h v).outstanding = e.outstanding := by cases b <;> rfl
@[simp] theorem Engine.peerWrite_pendingAdd (e : Engine) (b : Buf) (off : Nat) (h : Half) (v : F32) : (e.peerWrite b off h v).pendingAdd = e.pendingAdd := by cases b <;> rfl
@[simp] theorem Engine.peerWrite_outPending (e : Engine) (b : Buf) (off : Nat) (h : Half) (v : F32) : (e.peerWrite b off h v).outPending = e.outPending := by cases b <;> rfl
@[simp] theorem Engine.peerWrite_commCycles (e : Engine) (b : Buf) (off : Nat) (h : Half) (v : F32) : (e.peerWrite b off h v).commCycles = e.commCycles := by cases b <;> rfl
@[simp] theorem Engine.peerWrite_compCycles (e : Engine) (b : Buf) (off : Nat) (h : Half) (v : F32) : (e.peerWrite b off h v).compCycles = e.compCycles := by cases b <;> rfl
@[simp] theorem Engine.peerWrite_log (e : Engine) (b : Buf) (off : Nat) (h : Half) (v : F32) : (e.peerWrite b off h v).log = e.log := by cases b <;> rfl
@[simp] theorem Engine.peerWrite_work (e : Engine) (b : Buf) (off : Nat) (h : Half) (v : F32) : (e.peerWrite b off h v).work = e.work := by cases b <;> rfl

/-! ### Engines of the system -/

@[simp] theorem State.modEng_params (s : State) (q : Nat) (f : Engine → Engine) : (s.modEng q f).params = s.params := rfl
@[simp] theorem State.modEng_arrivals (s : State) (q : Nat) (f : Engine → Engine) : (s.modEng q f).arrivals = s.arrivals := rfl
@[simp] theorem State.modEng_inRegion (s : State) (q : Nat) (f : Engine → Engine) : (s.modEng q f).inRegion = s.inRegion := rfl
@[simp] theorem State.modEng_outRegion (s : State) (q : Nat) (f : Engine → Engine) : (s.modEng q f).outRegion = s.outRegion := rfl
@[simp] theorem State.modEng_node (s : State) (q : Nat) (f : Engine → Engine) : (s.modEng q f).node = s.node := rfl
@[simp] theorem State.modEng_events (s : State) (q : Nat) (f : Engine → Engine) : (s.modEng q f).events = s.events := rfl
@[simp] theorem State.modEng_answers (s : State) (q : Nat) (f : Engine → Engine) : (s.modEng q f).answers = s.answers := rfl
@[simp] theorem State.modEng_draws (s : State) (q : Nat) (f : Engine → Engine) : (s.modEng q f).draws = s.draws := rfl
@[simp] theorem State.modCur_params (s : State) (f : Engine → Engine) : (s.modCur f).params = s.params := rfl
@[simp] theorem State.modCur_arrivals (s : State) (f : Engine → Engine) : (s.modCur f).arrivals = s.arrivals := rfl
@[simp] theorem State.modCur_inRegion (s : State) (f : Engine → Engine) : (s.modCur f).inRegion = s.inRegion := rfl
@[simp] theorem State.modCur_outRegion (s : State) (f : Engine → Engine) : (s.modCur f).outRegion = s.outRegion := rfl
@[simp] theorem State.modCur_node (s : State) (f : Engine → Engine) : (s.modCur f).node = s.node := rfl
@[simp] theorem State.modCur_events (s : State) (f : Engine → Engine) : (s.modCur f).events = s.events := rfl
@[simp] theorem State.modCur_answers (s : State) (f : Engine → Engine) : (s.modCur f).answers = s.answers := rfl
@[simp] theorem State.modCur_draws (s : State) (f : Engine → Engine) : (s.modCur f).draws = s.draws := rfl
@[simp] theorem State.tick_params (s : State) : s.tick.params = s.params := rfl
@[simp] theorem State.tick_engines (s : State) : s.tick.engines = s.engines := rfl
@[simp] theorem State.tick_arrivals (s : State) : s.tick.arrivals = s.arrivals := rfl
@[simp] theorem State.tick_inRegion (s : State) : s.tick.inRegion = s.inRegion := rfl
@[simp] theorem State.tick_outRegion (s : State) : s.tick.outRegion = s.outRegion := rfl
@[simp] theorem State.tick_node (s : State) : s.tick.node = s.node := rfl
@[simp] theorem State.tick_events (s : State) : s.tick.events = s.events := rfl
@[simp] theorem State.tick_answers (s : State) : s.tick.answers = s.answers := rfl
@[simp] theorem State.settle_params (s : State) (b : Buf) : (s.settle b).params = s.params := by unfold State.settle; split <;> rfl
@[simp] theorem State.settle_arrivals (s : State) (b : Buf) : (s.settle b).arrivals = s.arrivals := by unfold State.settle; split <;> rfl
@[simp] theorem State.settle_inRegion (s : State) (b : Buf) : (s.settle b).inRegion = s.inRegion := by unfold State.settle; split <;> rfl
@[simp] theorem State.settle_outRegion (s : State) (b : Buf) : (s.settle b).outRegion = s.outRegion := by unfold State.settle; split <;> rfl
@[simp] theorem State.settle_node (s : State) (b : Buf) : (s.settle b).node = s.node := by unfold State.settle; split <;> rfl
@[simp] theorem State.settle_events (s : State) (b : Buf) : (s.settle b).events = s.events := by unfold State.settle; split <;> rfl
@[simp] theorem State.settle_answers (s : State) (b : Buf) : (s.settle b).answers = s.answers := by unfold State.settle; split <;> rfl
@[simp] theorem State.settle_draws (s : State) (b : Buf) : (s.settle b).draws = s.draws := by unfold State.settle; split <;> rfl
@[simp] theorem State.tick_eng (s : State) (q : Nat) : s.tick.eng q = s.eng q := rfl
@[simp] theorem State.tick_cur (s : State) : s.tick.cur = s.cur := rfl

@[simp] theorem State.length_modEng (s : State) (q : Nat) (f : Engine → Engine) :
    (s.modEng q f).engines.length = s.engines.length := by
  simp [State.modEng]

@[simp] theorem State.length_modCur (s : State) (f : Engine → Engine) :
    (s.modCur f).engines.length = s.engines.length :=
  s.length_modEng _ f

theorem State.eng_eq_getElem (s : State) {q : Nat} (h : q < s.engines.length) : s.eng q = s.engines[q] := by
  simp [State.eng, h]

theorem State.eng_mem (s : State) {q : Nat} (h : q < s.engines.length) : s.eng q ∈ s.engines := by
  rw [s.eng_eq_getElem h]; exact List.getElem_mem h

theorem State.mem_engines (s : State) {e : Engine} : e ∈ s.engines ↔ ∃ q, q < s.engines.length ∧ s.eng q = e := by
  constructor
  · intro h
    obtain ⟨q, hq, rfl⟩ := List.mem_iff_getElem.1 h
    exact ⟨q, hq, s.eng_eq_getElem hq⟩
  · rintro ⟨q, hq, rfl⟩
    exact s.eng_mem hq

theorem State.eng_of_le (s : State) {q : Nat} (h : s.engines.length ≤ q) : s.eng q = Engine.absent := by
  simp [State.eng, h]

theorem State.eng_modEng (s : State) (q p : Nat) (f : Engine → Engine) :
    (s.modEng q f).eng p = if p = q ∧ q < s.engines.length then f (s.eng q) else s.eng p := by
  unfold State.eng State.modEng
  rw [List.getD_eq_getElem?_getD, List.getElem?_set]
  by_cases h : p = q
  · subst h
    by_cases hq : p < s.engines.length
    · simp [hq, State.eng]
    · simp [hq]
  · simp [h, Ne.symm h]

@[simp] theorem State.eng_modEng_self (s : State) {q : Nat} (f : Engine → Engine) (h : q < s.engines.length) :
    (s.modEng q f).eng q = f (s.eng q) := by
  simp [State.eng_modEng, h]

theorem State.eng_modEng_of_ne (s : State) {q p : Nat} (f : Engine → Engine) (h : p ≠ q) :
    (s.modEng q f).eng p = s.eng p := by
  simp [State.eng_modEng, h]

@[simp] theorem State.cur_modCur (s : State) (f : Engine → Engine) (h : s.node < s.engines.length) :
    (s.modCur f).cur = f s.cur :=
  s.eng_modEng_self f h

theorem State.eng_modCur_of_ne (s : State) {p : Nat} (f : Engine → Engine) (h : p ≠ s.node) :
    (s.modCur f).eng p = s.eng p :=
  s.eng_modEng_of_ne f h

/-- A field that an update keeps is kept in every engine of the system. -/
theorem State.eng_modEng_keeps {α : Type} (s : State) (q p : Nat) (f : Engine → Engine) (g : Engine → α)
    (h : ∀ e, g (f e) = g e) : g ((s.modEng q f).eng p) = g (s.eng p) := by
  rw [State.eng_modEng]
  split_ifs with hp
  · rw [h, hp.1]
  · rfl

/-! ### The writes in flight after a command has written a buffer -/

@[simp] theorem State.length_settle (s : State) (b : Buf) : (s.settle b).engines.length = s.engines.length := by
  unfold State.settle; split <;> simp

theorem State.settle_of_quiet {s : State} {b : Buf} (h : s.incoming s.node b = []) : s.settle b = s := by
  simp [State.settle, h]

/-- What a settling leaves of any engine: all but `OUTSTANDING`. -/
theorem State.eng_settle (s : State) (b : Buf) (q : Nat) :
    (s.settle b).eng q = { s.eng q with outstanding := ((s.settle b).eng q).outstanding } := by
  unfold State.settle
  split
  · rfl
  · by_cases hq : q < s.engines.length
    · simp [State.eng, hq, Engine.settle]
    · simp [State.eng, List.getElem?_eq_none (Nat.le_of_not_lt hq)]

theorem State.cur_settle (s : State) (b : Buf) :
    (s.settle b).cur = { s.cur with outstanding := (s.settle b).cur.outstanding } := by
  have h := s.eng_settle b s.node
  simpa [State.cur] using h

end Sys2Proof.Machine
end

