-- ==== Sys2Proof/Laws/Legal.lean ====
section
/-! SUPPORT. What a legal configuration and a legal system give: the arithmetic of the derived constants, and that the legality of a system
depends on the configurations, the number of arrival counts and the program alone. -/

namespace Sys2Proof.Machine

/-! ### One configuration -/

/-- What the legality of one configuration says, as arithmetic. -/
theorem NodeCfg.wf_spec {c : NodeCfg} (h : c.wf = true) :
    (∃ k, k ≤ 4 ∧ cfgNB c = 2 ^ k) ∧ 1 ≤ cfgC c ∧ cfgC c ≤ 16 ∧ cfgN c = 2 ^ cfgL c ∧ cfgNB c ≤ cfgN c
      ∧ cfgN c ≤ 2 ^ 15 ∧ c.width = c.tile ∧ c.height = c.tile ∧ cfgP c < cfgNB c ∧ 1 ≤ c.nIter.toNat := by
  simp only [NodeCfg.wf, Bool.and_eq_true, Bool.or_eq_true, beq_iff_eq, decide_eq_true_eq, Config.maxLog2Tile] at h
  obtain ⟨⟨⟨⟨⟨⟨h1, h2, h3⟩, h4⟩, h5, h6⟩, h7, h8⟩, h9⟩, h10⟩ := h
  refine ⟨?_, h2, h3, h4, h5, of_decide_eq_true h6, h7, h8, h9, h10⟩
  unfold cfgNB
  rcases h1 with (((h1 | h1) | h1) | h1) | h1
  · exact ⟨0, by omega, h1⟩
  · exact ⟨1, by omega, h1⟩
  · exact ⟨2, by omega, h1⟩
  · exact ⟨3, by omega, h1⟩
  · exact ⟨4, by omega, h1⟩

/-- `N = NB * TH`: the number of nodes divides the side. -/
theorem NodeCfg.nb_mul_th {c : NodeCfg} (h : c.wf = true) : cfgNB c * cfgTH c = cfgN c := by
  obtain ⟨⟨k, _, hk⟩, _, _, hN, hle, _⟩ := NodeCfg.wf_spec h
  unfold cfgTH
  refine Nat.mul_div_cancel' ?_
  rw [hk, hN]
  rw [hk, hN] at hle
  exact pow_dvd_pow 2 ((Nat.pow_le_pow_iff_right (by norm_num)).1 hle)

theorem NodeCfg.th_pos {c : NodeCfg} (h : c.wf = true) : 0 < cfgTH c := by
  have h1 := NodeCfg.nb_mul_th h
  have h2 : 0 < cfgN c := by rw [(NodeCfg.wf_spec h).2.2.2.1]; positivity
  rcases Nat.eq_zero_or_pos (cfgTH c) with h0 | h0
  · rw [h0] at h1; omega
  · exact h0

theorem NodeCfg.n_pos {c : NodeCfg} (h : c.wf = true) : 0 < cfgN c := by
  rw [(NodeCfg.wf_spec h).2.2.2.1]; positivity

/-- A column of node `q`'s share lies inside a row. -/
theorem NodeCfg.share_lt {c : NodeCfg} (h : c.wf = true) {q x : Nat} (hq : q < cfgNB c) (hx : x < cfgTH c) :
    q * cfgTH c + x < cfgN c := by
  rw [← NodeCfg.nb_mul_th h]
  calc q * cfgTH c + x < q * cfgTH c + cfgTH c := by omega
    _ = (q + 1) * cfgTH c := by ring
    _ ≤ cfgNB c * cfgTH c := Nat.mul_le_mul_right _ hq

/-- An element of a row of the band lies inside the buffer. -/
theorem elemOffset_lt {c : NodeCfg} {r x : Nat} (hr : r < cfgTH c) (hx : x < cfgN c) : elemOffset c r x < bufElems c := by
  unfold elemOffset bufElems
  calc r * cfgN c + x < r * cfgN c + cfgN c := by omega
    _ = (r + 1) * cfgN c := by ring
    _ ≤ cfgTH c * cfgN c := Nat.mul_le_mul_right _ hr

theorem mem_quadrant {c : NodeCfg} {p : Nat × Nat} : p ∈ quadrant c ↔ p.1 < cfgTH c ∧ p.2 < cfgTH c := by
  obtain ⟨r, x⟩ := p
  simp [quadrant]

theorem quadSrc_lt {c : NodeCfg} (h : c.wf = true) {p : Nat × Nat} (hp : p ∈ quadrant c) : quadSrc c p < bufElems c :=
  elemOffset_lt (mem_quadrant.1 hp).1 (NodeCfg.share_lt h (NodeCfg.wf_spec h).2.2.2.2.2.2.2.2.1 (mem_quadrant.1 hp).2)

theorem quadDst_lt {c : NodeCfg} (h : c.wf = true) {p : Nat × Nat} (hp : p ∈ quadrant c) : quadDst c p < bufElems c :=
  elemOffset_lt (mem_quadrant.1 hp).2 (NodeCfg.share_lt h (NodeCfg.wf_spec h).2.2.2.2.2.2.2.2.1 (mem_quadrant.1 hp).1)

/-! ### Rows of the cores -/

/-- A core's rows end where the next core's begin, and the last core's at `th`. -/
theorem coreStart_succ (th cores c : Nat) : coreStart th cores (c + 1) = coreStart th cores c + coreCount th cores c := by
  unfold coreStart coreCount
  rw [Nat.succ_mul]
  split_ifs <;> omega

theorem coreStart_cores {cores : Nat} (th : Nat) (h : 0 < cores) : coreStart th cores cores = th := by
  unfold coreStart
  rw [Nat.min_eq_right (Nat.mod_lt _ h).le]
  exact Nat.div_add_mod th cores

theorem forkRows_prefix (th cores : Nat) : ∀ k, ((List.range k).flatMap fun c => coreRows th cores c) = List.range (coreStart th cores k) := by
  intro k
  induction k with
  | zero => simp [coreStart]
  | succ k ih =>
    rw [List.range_succ, List.flatMap_append, ih, coreStart_succ, List.range_eq_range', List.range_eq_range']
    simp only [List.flatMap_cons, List.flatMap_nil, List.append_nil, coreRows]
    have := @List.range'_append 0 (coreStart th cores k) (coreCount th cores k) 1
    simpa using this

/-! ### The system -/

theorem enginesLegal_iff {c0 : NodeCfg} {es : List Engine} {k : Nat} :
    enginesLegal c0 k es = true ↔ ∀ q e, es[q]? = some e → cfgAgrees c0 (k + q) e.cfg = true := by
  induction es generalizing k with
  | nil => simp [enginesLegal]
  | cons e es ih =>
    simp only [enginesLegal, Bool.and_eq_true, ih]
    constructor
    · rintro ⟨h1, h2⟩ q d hd
      cases q with
      | zero => simp at hd; subst hd; simpa using h1
      | succ q => rw [show k + (q + 1) = k + 1 + q by omega]; exact h2 q d (by simpa using hd)
    · intro h
      refine ⟨by simpa using h 0 e rfl, fun q d hd => ?_⟩
      rw [show k + 1 + q = k + (q + 1) by omega]
      exact h (q + 1) d (by simpa using hd)

/-- What the legality of a system gives of each node. -/
theorem State.legal_eng {s : State} (h : s.legal = true) {q : Nat} (hq : q < s.engines.length) :
    (s.eng q).cfg.wf = true ∧ cfgP (s.eng q).cfg = q ∧ cfgNB (s.eng q).cfg = s.engines.length
      ∧ s.arrivals.length = s.engines.length := by
  unfold State.legal at h
  split at h
  · cases h
  · rename_i e0 es he
    simp only [Bool.and_eq_true, beq_iff_eq] at h
    obtain ⟨⟨⟨h1, h2⟩, h3⟩, _⟩ := h
    have hc := enginesLegal_iff.1 h1 q (s.eng q) (by rw [s.eng_eq_getElem hq]; simp)
    simp only [cfgAgrees, Bool.and_eq_true, beq_iff_eq] at hc
    obtain ⟨⟨⟨⟨⟨⟨hw, hp⟩, hn⟩, _⟩, _⟩, _⟩, _⟩ := hc
    refine ⟨hw, by simpa [cfgP] using hp, ?_, by rw [h3, h2]⟩
    rw [h2]
    simp [cfgNB, hn]

/-- All nodes of a legal system agree on what is the same in every engine. -/
theorem State.legal_agree {s : State} (h : s.legal = true) {p q : Nat} (hp : p < s.engines.length)
    (hq : q < s.engines.length) :
    (s.eng p).cfg.tile = (s.eng q).cfg.tile ∧ (s.eng p).cfg.nbWorkers = (s.eng q).cfg.nbWorkers
      ∧ (s.eng p).cfg.nIter = (s.eng q).cfg.nIter := by
  unfold State.legal at h
  split at h
  · cases h
  · rename_i e0 es he
    simp only [Bool.and_eq_true, beq_iff_eq] at h
    have key : ∀ q, q < s.engines.length → (s.eng q).cfg.nbWorkers = e0.cfg.nbWorkers ∧ (s.eng q).cfg.tile = e0.cfg.tile
        ∧ (s.eng q).cfg.nIter = e0.cfg.nIter := by
      intro q hq
      have hc := enginesLegal_iff.1 h.1.1.1 q (s.eng q) (by rw [s.eng_eq_getElem hq]; simp)
      simp only [cfgAgrees, Bool.and_eq_true, beq_iff_eq] at hc
      exact ⟨hc.1.1.1.1.2, hc.1.1.1.2, hc.2⟩
    obtain ⟨a1, a2, a3⟩ := key p hp
    obtain ⟨b1, b2, b3⟩ := key q hq
    exact ⟨a2.trans b2.symm, a1.trans b1.symm, a3.trans b3.symm⟩

/-- Legality looks at the configurations, the number of arrival counts and the program alone. -/
theorem State.legal_congr {s t : State} (hc : t.engines.map (fun e => e.cfg) = s.engines.map fun e => e.cfg)
    (ha : t.arrivals.length = s.arrivals.length) (hp : t.params.prog = s.params.prog) : t.legal = s.legal := by
  have key : ∀ (es es' : List Engine) (c0 : NodeCfg) (k : Nat),
      es'.map (fun e => e.cfg) = es.map (fun e => e.cfg) → enginesLegal c0 k es' = enginesLegal c0 k es := by
    intro es
    induction es with
    | nil => intro es' c0 k h; rw [List.map_eq_nil_iff.1 h]
    | cons e es ih =>
      intro es' c0 k h
      cases es' with
      | nil => cases h
      | cons e' es' =>
        simp only [List.map_cons, List.cons.injEq] at h
        simp [enginesLegal, h.1, ih es' c0 (k + 1) h.2]
  have hlen : t.engines.length = s.engines.length := by simpa using congrArg List.length hc
  unfold State.legal
  cases hs : s.engines with
  | nil =>
    rw [hs] at hc
    simp only [List.map_nil, List.map_eq_nil_iff] at hc
    rw [hc]
  | cons e es =>
    cases ht : t.engines with
    | nil => rw [hs, ht] at hlen; cases hlen
    | cons e' es' =>
      rw [hs, ht] at hc hlen
      have h0 : e'.cfg = e.cfg := by simp at hc; exact hc.1
      simp only
      rw [h0, key _ _ _ _ hc, hlen, ha, hp]

end Sys2Proof.Machine
end

