-- ==== Sys2Proof/Laws/Memory.lean ====
section
/-! SUPPORT. Storage: what a read gives after a write, at the same place and at any other, from bytes up to rows of elements, and that
every write keeps the canonical form. -/

namespace Sys2Proof.Machine

/-! ### Bytes -/

@[simp] theorem Memory.read_nil (k : Nat) : Memory.read [] k = none := rfl

theorem Memory.read_write (m : Memory) (k : Nat) (v : Byte) (a : Nat) :
    (m.write k v).read a = if a = k then some v else m.read a := by
  induction m with
  | nil => simp [Memory.write, Memory.read, eq_comm]
  | cons c m ih =>
    obtain ⟨b, w⟩ := c
    simp only [Memory.write]
    by_cases h1 : k < b <;> by_cases h2 : k = b <;> simp only [h1, h2, if_true, if_false, Memory.read, ih] <;> grind [Memory.read]

@[simp] theorem Memory.read_write_self (m : Memory) (k : Nat) (v : Byte) : (m.write k v).read k = some v := by
  simp [Memory.read_write]

theorem Memory.read_write_of_ne (m : Memory) {k a : Nat} (v : Byte) (h : a ≠ k) :
    (m.write k v).read a = m.read a := by
  simp [Memory.read_write, h]

/-! ### The canonical form -/

theorem Memory.wf_cons {a : Nat} {v : Byte} {m : Memory} :
    Memory.wf ((a, v) :: m) = true ↔ (∀ c, m.head? = some c → a < c.1) ∧ Memory.wf m = true := by
  cases m with
  | nil => simp [Memory.wf]
  | cons c m => obtain ⟨b, w⟩ := c; simp [Memory.wf]

theorem Memory.head_write (m : Memory) (k : Nat) (v : Byte) (c : Host.Cell) (h : (m.write k v).head? = some c) :
    c.1 = k ∨ m.head?.map Prod.fst = some c.1 := by
  cases m with
  | nil => simp [Memory.write] at h; subst h; simp
  | cons d m =>
    obtain ⟨b, w⟩ := d
    simp only [Memory.write] at h
    split_ifs at h <;> simp at h <;> subst h <;> simp

theorem Memory.wf_write {m : Memory} (k : Nat) (v : Byte) (h : m.wf = true) : (m.write k v).wf = true := by
  induction m with
  | nil => rfl
  | cons c m ih =>
    obtain ⟨b, w⟩ := c
    simp only [Memory.write]
    rw [Memory.wf_cons] at h
    split_ifs with h1 h2
    · rw [Memory.wf_cons, Memory.wf_cons]
      exact ⟨by simpa using h1, h⟩
    · subst h2; rw [Memory.wf_cons]; exact h
    · rw [Memory.wf_cons]
      refine ⟨fun d hd => ?_, ih h.2⟩
      obtain he | he := Memory.head_write m k v d hd
      · omega
      · cases hm : m.head? with
        | none => simp [hm] at he
        | some e => simp [hm] at he; exact he ▸ h.1 e hm

/-- Two memories in canonical form that read the same everywhere are equal data. -/
theorem Memory.ext_of_wf {m m' : Memory} (h : m.wf = true) (h' : m'.wf = true) (hr : ∀ a, m.read a = m'.read a) :
    m = m' := by
  have none_of_lt : ∀ (m : Memory) (a : Nat), m.wf = true → (∀ c, m.head? = some c → a < c.1) → m.read a = none := by
    intro m
    induction m with
    | nil => simp
    | cons c m ih =>
      obtain ⟨b, w⟩ := c
      intro a hw ha
      have hb : a < b := by simpa using ha
      rw [Memory.wf_cons] at hw
      simp only [Memory.read, show b ≠ a by omega, if_false]
      exact ih a hw.2 fun d hd => lt_trans hb (hw.1 d hd)
  induction m generalizing m' with
  | nil =>
    cases m' with
    | nil => rfl
    | cons c m' => obtain ⟨b, w⟩ := c; simpa [Memory.read] using hr b
  | cons c m ih =>
    obtain ⟨a, v⟩ := c
    cases m' with
    | nil => simpa [Memory.read] using hr a
    | cons d m' =>
      obtain ⟨b, w⟩ := d
      have hw := h; have hw' := h'
      rw [Memory.wf_cons] at h h'
      have hab : a = b := by
        rcases Nat.lt_trichotomy a b with hl | he | hl
        · have := hr a
          rw [none_of_lt _ a hw' (by simpa using hl)] at this
          simp [Memory.read] at this
        · exact he
        · have := hr b
          rw [none_of_lt _ b hw (by simpa using hl)] at this
          simp [Memory.read] at this
      subst hab
      have hv : v = w := by simpa [Memory.read] using hr a
      subst hv
      rw [ih h.2 h'.2 fun x => ?_]
      by_cases hx : a = x
      · subst hx; rw [none_of_lt m a h.2 h.1, none_of_lt m' a h'.2 h'.1]
      · simpa [Memory.read, hx] using hr x

/-! ### Halves and units -/

theorem byteOf_wordOf (b0 b1 b2 b3 : Byte) :
    byteOf (wordOf b0 b1 b2 b3) 0 = b0 ∧ byteOf (wordOf b0 b1 b2 b3) 1 = b1 ∧ byteOf (wordOf b0 b1 b2 b3) 2 = b2
      ∧ byteOf (wordOf b0 b1 b2 b3) 3 = b3 := by
  refine ⟨?_, ?_, ?_, ?_⟩ <;> ext i hi <;> simp [byteOf, wordOf] <;> grind

theorem wordOf_byteOf (v : F32) : wordOf (byteOf v 0) (byteOf v 1) (byteOf v 2) (byteOf v 3) = v := by
  ext i hi
  simp [byteOf, wordOf]
  grind

theorem Memory.read_write32 (m : Memory) (k : Nat) (v : F32) (a : Nat) :
    (m.write32 k v).read a
      = if k ≤ a ∧ a < k + 4 then some (byteOf v (a - k)) else m.read a := by
  simp only [Memory.write32, Memory.read_write]
  by_cases h : k ≤ a ∧ a < k + 4
  · obtain ⟨i, rfl⟩ := Nat.exists_eq_add_of_le h.1
    have : i = 0 ∨ i = 1 ∨ i = 2 ∨ i = 3 := by omega
    rcases this with rfl | rfl | rfl | rfl <;> simp
  · simp only [h, if_false]
    rw [if_neg, if_neg, if_neg, if_neg] <;> omega

theorem Memory.read32_congr {m m' : Memory} {k : Nat} (h : ∀ a, k ≤ a → a < k + 4 → m'.read a = m.read a) :
    m'.read32 k = m.read32 k := by
  simp only [Memory.read32, h k (by omega) (by omega), h (k + 1) (by omega) (by omega),
    h (k + 2) (by omega) (by omega), h (k + 3) (by omega) (by omega)]

@[simp] theorem Memory.read32_write32_self (m : Memory) (k : Nat) (v : F32) : (m.write32 k v).read32 k = some v := by
  simp [Memory.read32, Memory.read_write32, wordOf_byteOf]

theorem Memory.read_writeAt (m : Memory) (k : Nat) (v : Cplx) (a : Nat) :
    (m.writeAt k v).read a
      = if k ≤ a ∧ a < k + 4 then some (byteOf v.x (a - k))
        else if k + 4 ≤ a ∧ a < k + 8 then some (byteOf v.y (a - (k + 4))) else m.read a := by
  simp only [Memory.writeAt, Memory.read_write32]
  split_ifs <;> first | rfl | omega

theorem Memory.read_writeAt_of_outside (m : Memory) {k a : Nat} (v : Cplx) (h : a < k ∨ k + 8 ≤ a) :
    (m.writeAt k v).read a = m.read a := by
  rw [Memory.read_writeAt, if_neg (by omega), if_neg (by omega)]

theorem Memory.readAt_congr {m m' : Memory} {k : Nat} (h : ∀ a, k ≤ a → a < k + 8 → m'.read a = m.read a) :
    m'.readAt k = m.readAt k := by
  simp only [Memory.readAt]
  rw [Memory.read32_congr fun a h1 h2 => h a h1 (by omega), Memory.read32_congr fun a h1 h2 => h a (by omega) (by omega)]

@[simp] theorem Memory.readAt_writeAt_self (m : Memory) (k : Nat) (v : Cplx) : (m.writeAt k v).readAt k = some v := by
  have h : (m.writeAt k v).read32 k = (m.write32 k v.x).read32 k :=
    Memory.read32_congr fun a h1 h2 => by rw [Memory.read_writeAt, if_pos ⟨h1, h2⟩, Memory.read_write32, if_pos ⟨h1, h2⟩]
  simp [Memory.readAt, h]
  simp [Memory.writeAt]

theorem Memory.read_writeElem_of_outside (m : Memory) {e a : Nat} (v : Cplx) (h : a < 8 * e ∨ 8 * e + 8 ≤ a) :
    (m.writeElem e v).read a = m.read a :=
  Memory.read_writeAt_of_outside m v h

theorem Memory.readElem_congr {m m' : Memory} {e : Nat} (h : ∀ a, 8 * e ≤ a → a < 8 * e + 8 → m'.read a = m.read a) :
    m'.readElem e = m.readElem e :=
  Memory.readAt_congr h

@[simp] theorem Memory.readElem_nil (e : Nat) : Memory.readElem [] e = none := rfl

@[simp] theorem Memory.readElem_writeElem_self (m : Memory) (e : Nat) (v : Cplx) :
    (m.writeElem e v).readElem e = some v :=
  Memory.readAt_writeAt_self m (8 * e) v

/-- An element is written as its two halves. -/
theorem Memory.writeElem_eq_halves (m : Memory) (e : Nat) (v : Cplx) :
    m.writeElem e v = (m.writeHalf e .x v.x).writeHalf e .y v.y := rfl

theorem Memory.read_writeHalf_of_outside (m : Memory) {e a : Nat} (h : Half) (v : F32) (ha : a < halfAt e h ∨ halfAt e h + 4 ≤ a) :
    (m.writeHalf e h v).read a = m.read a := by
  rw [Memory.writeHalf, Memory.read_write32, if_neg (by omega)]

@[simp] theorem Memory.read32_writeHalf_self (m : Memory) (e : Nat) (h : Half) (v : F32) :
    (m.writeHalf e h v).read32 (halfAt e h) = some v :=
  Memory.read32_write32_self m _ v

theorem Memory.readElem_writeElem (m : Memory) (e k : Nat) (v : Cplx) :
    (m.writeElem k v).readElem e = if e = k then some v else m.readElem e := by
  split_ifs with h
  · subst h; simp
  · exact Memory.readElem_congr fun a h1 h2 => Memory.read_writeElem_of_outside m v (by omega)

/-! ### Rows and tables -/

theorem Memory.readElem_writeElems (m : Memory) (k : Nat) (vs : List Cplx) (e : Nat) :
    (m.writeElems k vs).readElem e = if k ≤ e ∧ e < k + vs.length then vs[e - k]? else m.readElem e := by
  induction vs generalizing m k with
  | nil => simp only [Memory.writeElems, List.length_nil]; rw [if_neg (by omega)]
  | cons v vs ih =>
    simp only [Memory.writeElems, ih, Memory.readElem_writeElem, List.length_cons]
    by_cases h : k = e
    · subst h; simp
    · by_cases h2 : k + 1 ≤ e ∧ e < k + 1 + vs.length
      · rw [if_pos h2, if_pos (by omega)]
        obtain ⟨i, rfl⟩ := Nat.exists_eq_add_of_le h2.1
        rw [show k + 1 + i - (k + 1) = i by omega, show k + 1 + i - k = i + 1 by omega, List.getElem?_cons_succ]
      · rw [if_neg h2, if_neg (fun h' => h h'.symm), if_neg (by omega)]

theorem Memory.read_writeElems_of_outside (m : Memory) {k a : Nat} (vs : List Cplx)
    (h : a < 8 * k ∨ 8 * (k + vs.length) ≤ a) : (m.writeElems k vs).read a = m.read a := by
  induction vs generalizing m k with
  | nil => rfl
  | cons v vs ih =>
    simp only [List.length_cons] at h
    rw [Memory.writeElems, ih _ (by omega), Memory.read_writeElem_of_outside m v (by omega)]

theorem Memory.readElems_eq_some {m : Memory} {k n : Nat} {vs : List Cplx} :
    m.readElems k n = some vs ↔ vs.length = n ∧ ∀ i, i < n → m.readElem (k + i) = vs[i]? := by
  induction n generalizing k vs with
  | zero => simp [Memory.readElems, eq_comm]
  | succ n ih =>
    simp only [Memory.readElems]
    constructor
    · intro h
      split at h
      · rename_i v ws hv hws
        obtain ⟨h1, h2⟩ := ih.1 hws
        cases h
        refine ⟨by simp [h1], fun i hi => ?_⟩
        cases i with
        | zero => simpa using hv
        | succ i => rw [show k + (i + 1) = k + 1 + i by omega, h2 i (by omega)]; simp
      · cases h
    · rintro ⟨h1, h2⟩
      cases vs with
      | nil => simp at h1
      | cons v vs =>
        have hv : m.readElem k = some v := by simpa using h2 0 (by omega)
        have hvs : m.readElems (k + 1) n = some vs := ih.2 ⟨by simpa using h1, fun i hi => by
          rw [show k + 1 + i = k + (i + 1) by omega, h2 (i + 1) (by omega)]; simp⟩
        simp [hv, hvs]

theorem Memory.readElems_isSome {m : Memory} {k n : Nat} (h : ∀ i, i < n → (m.readElem (k + i)).isSome = true) :
    ∃ vs, m.readElems k n = some vs := by
  induction n generalizing k with
  | zero => exact ⟨[], rfl⟩
  | succ n ih =>
    obtain ⟨v, hv⟩ := Option.isSome_iff_exists.1 (h 0 (by omega))
    obtain ⟨vs, hvs⟩ := ih (k := k + 1) fun i hi => by
      rw [show k + 1 + i = k + (i + 1) by omega]; exact h (i + 1) (by omega)
    exact ⟨v :: vs, by simp at hv; simp [Memory.readElems, hv, hvs]⟩

theorem Memory.readElems_congr {m m' : Memory} {k n : Nat}
    (h : ∀ i, i < n → m'.readElem (k + i) = m.readElem (k + i)) : m'.readElems k n = m.readElems k n := by
  induction n generalizing k with
  | zero => rfl
  | succ n ih =>
    have h0 : m'.readElem k = m.readElem k := by simpa using h 0 (by omega)
    simp only [Memory.readElems, h0]
    rw [ih fun i hi => by rw [show k + 1 + i = k + (i + 1) by omega]; exact h (i + 1) (by omega)]

theorem Memory.readElems_eq_none {m : Memory} {k n : Nat} :
    m.readElems k n = none ↔ ∃ i, i < n ∧ m.readElem (k + i) = none := by
  constructor
  · intro h
    by_contra hc
    push Not at hc
    obtain ⟨vs, hvs⟩ := Memory.readElems_isSome fun i hi => Option.isSome_iff_ne_none.2 (hc i hi)
    simp [h] at hvs
  · rintro ⟨i, hi, he⟩
    by_contra hc
    obtain ⟨vs, hvs⟩ := Option.ne_none_iff_exists'.1 hc
    obtain ⟨h1, h2⟩ := Memory.readElems_eq_some.1 hvs
    rw [h2 i hi, List.getElem?_eq_none_iff] at he
    omega

@[simp] theorem Memory.readElems_writeElems_self (m : Memory) (k : Nat) (vs : List Cplx) :
    (m.writeElems k vs).readElems k vs.length = some vs := by
  refine Memory.readElems_eq_some.2 ⟨rfl, fun i hi => ?_⟩
  rw [Memory.readElem_writeElems, if_pos (by omega)]
  simp

theorem Memory.readElem_writeAll_of_notMem (m : Memory) (l : List (Nat × Cplx)) {e : Nat} (h : ∀ p ∈ l, p.1 ≠ e) :
    (m.writeAll l).readElem e = m.readElem e := by
  induction l generalizing m with
  | nil => rfl
  | cons p l ih =>
    obtain ⟨k, v⟩ := p
    rw [Memory.writeAll, ih _ fun p hp => h p (List.mem_cons_of_mem _ hp), Memory.readElem_writeElem,
      if_neg fun he => h (k, v) List.mem_cons_self he.symm]

theorem Memory.readElem_writeAll_of_mem (m : Memory) {l : List (Nat × Cplx)} {e : Nat} {v : Cplx} (h : (e, v) ∈ l)
    (hd : (l.map Prod.fst).Nodup) : (m.writeAll l).readElem e = some v := by
  induction l generalizing m with
  | nil => cases h
  | cons p l ih =>
    obtain ⟨k, w⟩ := p
    rw [List.map_cons, List.nodup_cons] at hd
    rw [Memory.writeAll]
    rcases List.mem_cons.1 h with he | he
    · cases he
      rw [Memory.readElem_writeAll_of_notMem _ l fun p hp he => hd.1 (List.mem_map.2 ⟨p, hp, he⟩)]
      simp
    · exact ih _ he hd.2

theorem Memory.read_writeAll_of_outside (m : Memory) (l : List (Nat × Cplx)) {a : Nat}
    (h : ∀ p ∈ l, a < 8 * p.1 ∨ 8 * p.1 + 8 ≤ a) : (m.writeAll l).read a = m.read a := by
  induction l generalizing m with
  | nil => rfl
  | cons p l ih =>
    obtain ⟨k, v⟩ := p
    rw [Memory.writeAll, ih _ fun p hp => h p (List.mem_cons_of_mem _ hp),
      Memory.read_writeElem_of_outside m v (h (k, v) List.mem_cons_self)]

/-! ### Every write keeps the canonical form -/

theorem Memory.wf_write32 {m : Memory} (k : Nat) (v : F32) (h : m.wf = true) : (m.write32 k v).wf = true :=
  Memory.wf_write _ _ (Memory.wf_write _ _ (Memory.wf_write _ _ (Memory.wf_write _ _ h)))

theorem Memory.wf_writeAt {m : Memory} (k : Nat) (v : Cplx) (h : m.wf = true) : (m.writeAt k v).wf = true :=
  Memory.wf_write32 _ _ (Memory.wf_write32 _ _ h)

theorem Memory.wf_writeElem {m : Memory} (e : Nat) (v : Cplx) (h : m.wf = true) : (m.writeElem e v).wf = true :=
  Memory.wf_writeAt _ _ h

theorem Memory.wf_writeHalf {m : Memory} (e : Nat) (h : Half) (v : F32) (hm : m.wf = true) : (m.writeHalf e h v).wf = true :=
  Memory.wf_write32 _ _ hm

theorem Memory.wf_writeElems {m : Memory} (e : Nat) (vs : List Cplx) (h : m.wf = true) :
    (m.writeElems e vs).wf = true := by
  induction vs generalizing m e with
  | nil => exact h
  | cons v vs ih => exact ih _ (Memory.wf_writeElem e v h)

theorem Memory.wf_writeAll {m : Memory} (l : List (Nat × Cplx)) (h : m.wf = true) : (m.writeAll l).wf = true := by
  induction l generalizing m with
  | nil => exact h
  | cons p l ih => exact ih (Memory.wf_writeElem p.1 p.2 h)

/-- The memories right after reset are in canonical form. -/
theorem State.reset_memories_wf :
    (∀ e ∈ State.reset.engines, e.bufA.wf = true ∧ e.bufB.wf = true ∧ e.tw.wf = true ∧ e.br.wf = true ∧ e.ct.wf = true)
      ∧ State.reset.inRegion.wf = true ∧ State.reset.outRegion.wf = true := by
  decide

end Sys2Proof.Machine
end

