-- ==== Sys2Proof/Laws/Exchange.lean ====
section
/-! SUPPORT. The transpose/exchange engine: what reading, capturing and enqueueing give, and the cases of its phases. -/

namespace Sys2Proof.Machine

/-! ### Reading and capturing -/

@[simp] theorem mem_allHalves {n x : Nat} {h : Half} : (x, h) ∈ allHalves n ↔ x < n := by
  cases h <;> simp [allHalves]

theorem allHalves_nodup (n : Nat) : (allHalves n).Nodup := by
  unfold allHalves
  rw [List.nodup_flatMap]
  refine ⟨fun x _ => by simp, List.nodup_range.imp ?_⟩
  intro a b hab
  simp [Function.onFun, List.disjoint_left, hab]

theorem allHalves_ne_nil {n : Nat} (h : 0 < n) : allHalves n ≠ [] :=
  List.ne_nil_of_mem (mem_allHalves.2 h : (0, Half.x) ∈ allHalves n)

theorem readAll_eq_some {rd : Nat → Option Cplx} {l : List Nat} {vs : List Cplx} :
    readAll rd l = some vs ↔ l.map rd = vs.map some := by
  induction l generalizing vs with
  | nil => cases vs <;> simp [readAll]
  | cons e l ih =>
    simp only [readAll, List.map_cons]
    cases vs with
    | nil => split <;> simp
    | cons v vs =>
      constructor
      · intro h
        split at h
        · rename_i w ws hw hws; cases h; rw [hw, ih.1 hws]; rfl
        · cases h
      · intro h
        rw [List.map_cons, List.cons.injEq] at h
        rw [h.1, ih.2 h.2]

theorem readAll_isSome {rd : Nat → Option Cplx} {l : List Nat} (h : ∀ e ∈ l, (rd e).isSome = true) :
    ∃ vs, readAll rd l = some vs := by
  induction l with
  | nil => exact ⟨[], rfl⟩
  | cons e l ih =>
    obtain ⟨v, hv⟩ := Option.isSome_iff_exists.1 (h e List.mem_cons_self)
    obtain ⟨vs, hvs⟩ := ih fun e he => h e (List.mem_cons_of_mem _ he)
    exact ⟨v :: vs, by rw [readAll, hv, hvs]⟩

theorem readAll_eq_none {rd : Nat → Option Cplx} {l : List Nat} {e : Nat} (he : e ∈ l) (h : rd e = none) :
    readAll rd l = none := by
  induction l with
  | nil => cases he
  | cons d l ih =>
    rw [readAll]
    rcases List.mem_cons.1 he with rfl | he
    · rw [h]
    · rw [ih he]; split <;> simp_all

/-- A captured transfer: the descriptor it was made from, every element still to write, and the value of each source element. -/
theorem capture_spec {rd : Nat → Option Cplx} {d : XferDesc} {t : Transfer} (h : capture rd d = some t) :
    t.desc = d ∧ t.pending = allHalves d.count ∧ ∀ x, x < d.count → rd (d.srcAt x) = some (t.valueAt x) := by
  unfold capture at h
  split at h
  · rename_i vs hvs
    cases h
    refine ⟨rfl, rfl, fun x hx => ?_⟩
    have hm := readAll_eq_some.1 hvs
    have hl : vs.length = d.count := by have := congrArg List.length hm; simpa using this.symm
    have := congrArg (fun l => l[x]?) hm
    simp [hx, hl] at this
    simp [this, Transfer.valueAt, hl, hx]
  · cases h

theorem capture_isSome {rd : Nat → Option Cplx} {d : XferDesc} (h : ∀ x, x < d.count → (rd (d.srcAt x)).isSome = true) :
    ∃ t, capture rd d = some t := by
  obtain ⟨vs, hvs⟩ := readAll_isSome (rd := rd) (l := (List.range d.count).map d.srcAt) fun e he => by
    obtain ⟨x, hx, rfl⟩ := List.mem_map.1 he
    exact h x (List.mem_range.1 hx)
  exact ⟨_, by rw [capture, hvs]⟩

/-- The captured transfers of one enqueue, in the order of the descriptors. -/
theorem captureAll_spec {rd : Nat → Option Cplx} {ds : List XferDesc} {ts : List Transfer}
    (h : captureAll rd ds = some ts) :
    ts.map (fun t => t.desc) = ds
      ∧ ∀ t ∈ ts, t.pending = allHalves t.desc.count
        ∧ ∀ x, x < t.desc.count → rd (t.desc.srcAt x) = some (t.valueAt x) := by
  induction ds generalizing ts with
  | nil => cases h; simp
  | cons d ds ih =>
    simp only [captureAll] at h
    split at h
    · rename_i t us ht hus
      cases h
      obtain ⟨h1, h2⟩ := ih hus
      obtain ⟨c1, c2, c3⟩ := capture_spec ht
      refine ⟨by simp [c1, h1], fun u hu => ?_⟩
      rcases List.mem_cons.1 hu with rfl | hu
      · exact ⟨by rw [c1, c2], by rw [c1]; exact c3⟩
      · exact h2 u hu
    · cases h

theorem captureAll_isSome {rd : Nat → Option Cplx} {ds : List XferDesc}
    (h : ∀ d ∈ ds, ∀ x, x < d.count → (rd (d.srcAt x)).isSome = true) : ∃ ts, captureAll rd ds = some ts := by
  induction ds with
  | nil => exact ⟨[], rfl⟩
  | cons d ds ih =>
    obtain ⟨t, ht⟩ := capture_isSome (h d List.mem_cons_self)
    obtain ⟨ts, hts⟩ := ih fun d hd => h d (List.mem_cons_of_mem _ hd)
    exact ⟨t :: ts, by rw [captureAll, ht, hts]⟩

/-! ### Enqueueing -/

/-- Every transfer phase 1 lets into `OUTSTANDING` is one of the groups' descriptors with all its elements still to write. -/
theorem enqueueAll_out {rd : Nat → Option Cplx} {p n k : Nat} {gs : List XferGroup} {ans : List Bool} {t : Sent}
    (h : enqueueAll rd p n k gs ans = some t) :
    ∀ u ∈ t.out, (∃ g ∈ gs, u.desc ∈ g.descs) ∧ u.pending = allHalves u.desc.count := by
  induction gs generalizing k ans t with
  | nil => cases h; simp
  | cons g gs ih =>
    simp only [enqueueAll] at h
    split at h
    · split at h
      · rename_i ts r hts hr
        cases h
        intro u hu
        rcases List.mem_append.1 hu with hu | hu
        · obtain ⟨h1, h2⟩ := captureAll_spec hts
          exact ⟨⟨g, List.mem_cons_self, h1 ▸ List.mem_map_of_mem hu⟩, (h2 u hu).1⟩
        · obtain ⟨⟨g', hg', hd⟩, hp⟩ := ih hr u hu
          exact ⟨⟨g', List.mem_cons_of_mem _ hg', hd⟩, hp⟩
      · cases h
    · split at h
      · rename_i r hr
        cases h
        intro u hu
        obtain ⟨⟨g', hg', hd⟩, hp⟩ := ih hr u hu
        exact ⟨⟨g', List.mem_cons_of_mem _ hg', hd⟩, hp⟩
      · cases h

/-! ### The phases -/

/-- Phases 1 and 2 change the current node and the answers not used up, and draw. -/
theorem State.send_cases {s t : State} {b : Buf} (h : s.send b = some t) :
    ∃ quad sent, readAll (s.srcRead b) ((quadrant s.cur.cfg).map (quadSrc s.cur.cfg)) = some quad
      ∧ enqueueAll (s.srcRead b) (cfgP s.cur.cfg) s.draws 0 (xferGroups s.params.grouping s.cur.cfg b) s.answers = some sent
      ∧ t = { (s.modCur (Engine.sent s.draws b quad sent)).tick with answers := sent.answers } := by
  unfold State.send at h
  split at h
  · rename_i quad hq
    split at h
    · rename_i sent hs
      cases h
      exact ⟨quad, sent, hq, hs, rfl⟩
    · cases h
  · cases h

/-- Phase 5: the wait without a change, or the subtraction and the completion. -/
theorem State.pass_cases (s : State) :
    s.cur.rdv.toNat < cfgNB s.cur.cfg ∧ s.pass = s
      ∨ cfgNB s.cur.cfg ≤ s.cur.rdv.toNat ∧ s.pass = (s.modCur fun e =>
          ((({ e with rdv := e.rdv - BitVec.ofNat 32 (cfgNB e.cfg) } : Engine).chargeComm s.draws).chargeComp
            s.draws).complete s.draws).tick := by
  unfold State.pass
  split_ifs with h
  · exact .inr ⟨h, rfl⟩
  · exact .inl ⟨by omega, rfl⟩

/-- Phases 3 and 4: the wait without a change, or the increments posted and phase 5. -/
theorem State.announce_cases (s : State) :
    s.cur.outstanding ≠ [] ∧ s.announce = s
      ∨ s.cur.outstanding = [] ∧ s.announce = (s.modCur Engine.announced).pass := by
  unfold State.announce
  split_ifs with h
  · exact .inr ⟨List.isEmpty_iff.1 h, rfl⟩
  · exact .inl ⟨fun he => h (List.isEmpty_iff.2 he), rfl⟩

theorem execTranspose_cases {b : Buf} {s t : State} (h : execTranspose b s = .next t) :
    s.cur.stage = .transfers ∧ t = s.announce ∨ s.cur.stage = .rendezvous ∧ t = s.pass
      ∨ ∃ u, s.send b = some u ∧ t = u.announce := by
  unfold execTranspose at h
  split at h
  · cases h; exact .inl ⟨‹_›, rfl⟩
  · cases h; exact .inr (.inl ⟨‹_›, rfl⟩)
  all_goals
    split at h
    · rename_i u hu; cases h; exact .inr (.inr ⟨u, hu, rfl⟩)
    · cases h

/-- A transfer agent's turn: nothing to perform, or one half of an element written. -/
theorem State.deliver_cases {s t : State} {p i x : Nat} {k : Half} (h : s.deliver p i x k = .next t) :
    t = s ∨ ∃ tr, (s.eng p).outstanding[i]? = some tr ∧ (x, k) ∈ tr.pending ∧ tr.desc.dstNode < s.engines.length
      ∧ tr.desc.dstAt x < bufElems (s.eng tr.desc.dstNode).cfg
      ∧ t = (s.modEng tr.desc.dstNode
          (Engine.peerWrite tr.desc.dstBuf (tr.desc.dstAt x) k (halfOf (tr.valueAt x) k))).modEng p
            (Engine.performed i (x, k)) := by
  unfold State.deliver at h
  split at h
  · cases h; exact .inl rfl
  · rename_i tr htr
    split_ifs at h with h1 h2
    · cases h; exact .inr ⟨tr, htr, by simpa using h1, h2.1, h2.2, rfl⟩
    · cases h; exact .inl rfl

/-- An increment agent's turn: nothing to perform, or one counter incremented. -/
theorem State.performAdd_cases {s t : State} {p i : Nat} (h : s.performAdd p i = .next t) :
    t = s ∨ ∃ q, (s.eng p).pendingAdd[i]? = some q ∧ q < s.engines.length
      ∧ t = (s.modEng q Engine.cntAdd).modEng p fun e => { e with pendingAdd := e.pendingAdd.eraseIdx i } := by
  unfold State.performAdd at h
  split at h
  · cases h; exact .inl rfl
  · rename_i q hq
    split_ifs at h with h1
    cases h
    exact .inr ⟨q, hq, h1, rfl⟩

end Sys2Proof.Machine
end

