-- ==== Sys2Proof/Laws/Rows.lean ====
section
/-! SUPPORT. Tables and rows: what reading a table gives, what running a task over rows leaves in each row and everywhere else, and the
lengths of rows through the kernels. -/

namespace Sys2Proof.Machine

/-! ### Tables -/

theorem readTable_zero (valid : Bool) (len : Nat) (m : Memory) : readTable valid len m 0 = some [] := rfl

theorem readTable_of_valid {len n : Nat} (m : Memory) (h : n ≤ len) : readTable true len m n = m.readElems 0 n := by
  unfold readTable
  split_ifs with h0 h1
  · subst h0; rfl
  · rfl
  · simp [h] at h1

theorem readTable_of_invalid {len n : Nat} (m : Memory) (h : 0 < n) : readTable false len m n = none := by
  simp [readTable, show n ≠ 0 by omega]

/-! ### Rows -/

/-- Everything a run over rows can do: where it ends in a memory, each row given is `f` of the row as it was, and nothing outside those
rows has changed. -/
theorem overRows_spec {n : Nat} {f : Nat → List Cplx → List Cplx} {rs : List Nat} {m m' : Memory}
    (h : overRows n f rs m = some m') (hd : rs.Nodup) (hf : ∀ r row, (f r row).length = row.length) :
    (∀ r ∈ rs, ∃ row, m.readElems (r * n) n = some row ∧ m'.readElems (r * n) n = some (f r row))
      ∧ ∀ a, (∀ r ∈ rs, a < 8 * (r * n) ∨ 8 * (r * n + n) ≤ a) → m'.read a = m.read a := by
  induction rs generalizing m with
  | nil => cases h; exact ⟨by simp, fun a _ => rfl⟩
  | cons r rs ih =>
    simp only [overRows] at h
    split at h
    · rename_i row hrow
      have hl : (f r row).length = n := by rw [hf, (Memory.readElems_eq_some.1 hrow).1]
      have hsep : ∀ q, q ≠ r → ∀ i, i < n → q * n + i < r * n ∨ r * n + n ≤ q * n + i := by
        intro q hq i hi
        rcases Nat.lt_or_gt_of_ne hq with h' | h'
        · left; have := Nat.mul_le_mul_right n h'; rw [Nat.succ_mul] at this; omega
        · right; have := Nat.mul_le_mul_right n h'; rw [Nat.succ_mul] at this; omega
      have hmid : ∀ q, q ≠ r → (m.writeElems (r * n) (f r row)).readElems (q * n) n = m.readElems (q * n) n :=
        fun q hq => Memory.readElems_congr fun i hi => by
          rw [Memory.readElem_writeElems, if_neg]
          have := hsep q hq i hi
          omega
      rw [List.nodup_cons] at hd
      obtain ⟨h1, h2⟩ := ih h hd.2
      refine ⟨fun q hq => ?_, fun a ha => ?_⟩
      · rcases List.mem_cons.1 hq with rfl | hq
        · refine ⟨row, hrow, ?_⟩
          rw [Memory.readElems_congr fun i hi => Memory.readElem_congr fun a ha1 ha2 => h2 a fun p hp => ?_]
          · rw [← hl]; simp
          · have := hsep p (fun he => hd.1 (he ▸ hp))
            rcases Nat.lt_or_gt_of_ne (fun he : p = q => hd.1 (he ▸ hp)) with h' | h'
            · right; have := Nat.mul_le_mul_right n h'; rw [Nat.succ_mul] at this; omega
            · left; have := Nat.mul_le_mul_right n h'; rw [Nat.succ_mul] at this; omega
        · have hne : q ≠ r := fun he => hd.1 (he ▸ hq)
          obtain ⟨row', hr1, hr2⟩ := h1 q hq
          exact ⟨row', by rw [← hmid q hne, hr1], hr2⟩
      · rw [h2 a fun p hp => ha p (List.mem_cons_of_mem _ hp), Memory.read_writeElems_of_outside]
        have := ha r List.mem_cons_self
        rw [hl]; omega
    · cases h

/-- A run over rows ends in a memory where every row given holds values. -/
theorem overRows_isSome {n : Nat} {f : Nat → List Cplx → List Cplx} {rs : List Nat} {m : Memory}
    (h : ∀ r ∈ rs, ∀ i, i < n → (m.readElem (r * n + i)).isSome = true) : ∃ m', overRows n f rs m = some m' := by
  induction rs generalizing m with
  | nil => exact ⟨m, rfl⟩
  | cons r rs ih =>
    obtain ⟨row, hrow⟩ := Memory.readElems_isSome (h r List.mem_cons_self)
    obtain ⟨m', hm'⟩ := ih (m := m.writeElems (r * n) (f r row)) fun q hq i hi => by
      rw [Memory.readElem_writeElems]
      split_ifs with hc
      · rw [List.getElem?_eq_getElem (by omega)]; rfl
      · exact h q (List.mem_cons_of_mem _ hq) i hi
    exact ⟨m', by simp only [overRows, hrow, hm']⟩

/-- A run over rows stops at a row of which an element holds no value. -/
theorem overRows_eq_none {n : Nat} {f : Nat → List Cplx → List Cplx} {rs : List Nat} {m : Memory} {r i : Nat}
    (hr : r ∈ rs) (hi : i < n) (he : m.readElem (r * n + i) = none)
    (hf : ∀ r row, (f r row).length = row.length) : overRows n f rs m = none := by
  induction rs generalizing m with
  | nil => cases hr
  | cons q rs ih =>
    simp only [overRows]
    by_cases hq : q = r
    · subst hq; rw [Memory.readElems_eq_none.2 ⟨i, hi, he⟩]
    · split
      · rename_i row hrow
        have hl := (Memory.readElems_eq_some.1 hrow).1
        refine ih ((List.mem_cons.1 hr).resolve_left fun h => hq h.symm) ?_
        rw [Memory.readElem_writeElems, if_neg, he]
        rw [hf, hl]
        rcases Nat.lt_or_gt_of_ne hq with h' | h' <;>
          · have := Nat.mul_le_mul_right n h'; rw [Nat.succ_mul] at this; omega
      · rfl

theorem overRows_wf {n : Nat} {f : Nat → List Cplx → List Cplx} {rs : List Nat} {m m' : Memory}
    (h : overRows n f rs m = some m') (hw : m.wf = true) : m'.wf = true := by
  induction rs generalizing m with
  | nil => cases h; exact hw
  | cons r rs ih =>
    simp only [overRows] at h
    split at h
    · exact ih h (Memory.wf_writeElems _ _ hw)
    · cases h

/-! ### Lengths -/

@[simp] theorem length_swapCols (inc : Incoming) (base : Nat) (d : Draw) (p : SwapPair) (row : List Cplx) :
    (swapCols inc base d p row).length = row.length := by
  simp [swapCols]

@[simp] theorem length_swapAll (inc : Incoming) (base : Nat) (d : Draw) (ps : List SwapPair) (row : List Cplx) :
    (swapAll inc base d ps row).length = row.length := by
  induction ps generalizing d row with
  | nil => rfl
  | cons p ps ih => simp [swapAll, ih]

@[simp] theorem length_bfly (a : ArithSource) (inc : Incoming) (base : Nat) (d : Draw) (ia ib : Nat)
    (x : TrigPair) (row : List Cplx) : (bfly a inc base d ia ib x row).length = row.length := by
  simp [bfly]

@[simp] theorem length_bflyAll (a : ArithSource) (inc : Incoming) (base : Nat) (d : Draw)
    (steps : List (Bfly × TrigPair)) (row : List Cplx) :
    (bflyAll a inc base d steps row).length = row.length := by
  induction steps generalizing d row with
  | nil => rfl
  | cons q steps ih => simp [bflyAll, ih]

@[simp] theorem length_fftRow (a : ArithSource) (inc : Incoming) (base : Nat) (d : Draw)
    (swaps : List SwapPair) (steps : List (Bfly × TrigPair)) (row : List Cplx) :
    (fftRow a inc base d swaps steps row).length = row.length := by
  simp [fftRow]

@[simp] theorem length_correctRow (a : ArithSource) (inc : Incoming) (base : Nat) (d : Draw) (om : TrigPair)
    (row : List Cplx) : (correctRow a inc base d om row).length = row.length := by
  have : ∀ d j ph, (correctCols a inc base om d j ph row).length = row.length := by
    induction row with
    | nil => intros; rfl
    | cons v vs ih => intros; simp [correctCols, ih]
  exact this _ _ _

@[simp] theorem length_outWrites (inc : Incoming) (n : Nat) (c : NodeCfg) (k : Nat) (vs : List Cplx) :
    (outWrites inc n c k vs).length = 8 * vs.length := by
  induction vs generalizing k with
  | nil => rfl
  | cons v vs ih => simp [outWrites, elemOut, ih]; omega

@[simp] theorem raceRead_nil (d : Draw) (e : Nat) (old : Cplx) : raceRead [] d e old = old := rfl

@[simp] theorem length_elemOut (off : Nat) (v : Cplx) : (elemOut off v).length = 8 := rfl

/-- Byte `j` of element `i` on its way to `OUT`. -/
theorem getElem?_outWrites_nil (n : Nat) (c : NodeCfg) (k : Nat) (vs : List Cplx) (i : Nat) {j : Nat} (hj : j < 8) :
    (outWrites [] n c k vs)[8 * i + j]? = vs[i]?.map fun v => { off := bandAddress c (k + i) + j, val := elemByte v j } := by
  induction vs generalizing k i with
  | nil => simp [outWrites]
  | cons v vs ih =>
    rw [outWrites, raceRead_nil]
    cases i with
    | zero => rw [List.getElem?_append_left (by simpa using hj)]; simp [elemOut, hj]
    | succ i =>
      rw [List.getElem?_append_right (by simp; omega), length_elemOut, show 8 * (i + 1) + j - 8 = 8 * i + j by omega, ih]
      simp [show k + 1 + i = k + (i + 1) by omega]

/-- The column at `j` of a corrected row, by the phasor met there. -/
theorem correctCols_cons (a : ArithSource) (inc : Incoming) (base : Nat) (om : TrigPair) (d : Draw) (j : Nat)
    (ph v : Cplx) (vs : List Cplx) :
    correctCols a inc base om d j ph (v :: vs)
      = rot a (drawAt d 1) (raceRead inc d (base + j) v) ph
        :: correctCols a inc base om (drawAt d 16) (j + 1) (phadv a (drawAt d 7) ph om) vs :=
  rfl

/-- What FFT makes of a buffer, where it makes anything: the buffer itself, or a run over all rows that keeps their lengths. -/
theorem fftBuffer_ok {a : ArithSource} {n : Nat} {inc : Incoming} {e : Engine} {b : Buf} {m : Memory}
    (h : fftBuffer a n inc e b = .ok m) :
    m = e.buf b ∨ ∃ f : Nat → List Cplx → List Cplx,
      (∀ r row, (f r row).length = row.length) ∧ forkOver e b f = some m := by
  unfold fftBuffer at h
  split at h
  · simp only at h
    split at h
    · split at h
      · cases h; exact .inl rfl
      · split at h
        · rename_i hm; cases h; exact .inr ⟨_, fun r row => by simp, hm⟩
        · cases h
    · cases h
  · cases h

/-- What CORRECT makes of a buffer, where it makes anything: a run over all rows that keeps their lengths. -/
theorem correctBuffer_ok {a : ArithSource} {n : Nat} {inc : Incoming} {e : Engine} {b : Buf} {m : Memory}
    (h : correctBuffer a n inc e b = .ok m) :
    ∃ f : Nat → List Cplx → List Cplx, (∀ r row, (f r row).length = row.length) ∧ forkOver e b f = some m := by
  unfold correctBuffer at h
  split at h
  · split at h
    · rename_i hm; cases h; exact ⟨_, fun r row => by simp, hm⟩
    · cases h
  · cases h

end Sys2Proof.Machine
end

