-- ==== Sys2Proof/Laws/Step.lean ====
section
/-! SUPPORT. Everything a step can do: the turns, and per command the states it can answer. The operations named in these cases are
described in Laws/State.lean, Laws/Exchange.lean and Laws/Rows.lean. -/

namespace Sys2Proof.Machine

/-! ### Turns -/

theorem State.takeTurn_nil {s : State} (h : s.events = []) : s.takeTurn = (.sequencer, s) := by
  unfold State.takeTurn; rw [h]

theorem step_of_no_event {s : State} (hl : s.legal = true) (h : s.events = []) : step s = runSequencer s := by
  simp [step, hl, State.takeTurn_nil h]

theorem step_of_sequencer_event {s : State} {q : Nat} {rest : List Event} (hl : s.legal = true)
    (h : s.events = .sequencer q :: rest) : step s = runSequencer { s with events := rest, node := q } := by
  simp [step, hl, State.takeTurn, h]

theorem step_of_world_event {s : State} {e : Event} {rest : List Event} (hl : s.legal = true) (h : s.events = e :: rest)
    (he : ∀ q, e ≠ .sequencer q) : step s = ({ s with events := rest } : State).perform e := by
  cases e with
  | sequencer q => exact absurd rfl (he q)
  | _ => simp [step, hl, State.takeTurn, h]

/-- The fetch finds the command at `PC`. -/
theorem runSequencer_of_command {s : State} {w : CmdWord} {i : Instr} (hr : s.cur.run = .running)
    (hw : s.params.prog[s.cur.pc.toNat]? = some w) (hd : decode w = .ok i) : runSequencer s = exec i s := by
  have hk := (List.getElem?_eq_some_iff.1 hw).1
  have hdrop : s.params.prog.drop s.cur.pc.toNat = w :: s.params.prog.drop (s.cur.pc.toNat + 1) := by
    rw [List.drop_eq_getElem_cons hk, (List.getElem?_eq_some_iff.1 hw).2]
  simp [runSequencer, State.fetch, hr, show ¬s.params.prog.length ≤ s.cur.pc.toNat by omega, hdrop, decodeBytes, hd]

theorem runSequencer_of_not_running {s : State} (h : s.cur.run ≠ .running) : runSequencer s = .next s := by
  simp [runSequencer, State.fetch, h]

/-- What a sequencer's turn can do: rest, take the fatal fault of an illegal fetch, or run a command. -/
theorem runSequencer_cases {s t : State} (h : runSequencer s = .next t) :
    s.cur.run ≠ .running ∧ t = s
      ∨ s.cur.run = .running ∧ (t = s.illegalFetch ∨ ∃ i, exec i s = .next t) := by
  by_cases hr : s.cur.run = .running
  · refine .inr ⟨hr, ?_⟩
    unfold runSequencer at h
    split at h
    · rename_i hf
      simp only [State.fetch, hr, if_true] at hf
      split_ifs at hf
      split at hf <;> cases hf
    · cases h; exact .inl rfl
    · exact .inr ⟨_, h⟩
  · rw [runSequencer_of_not_running hr] at h
    cases h
    exact .inl ⟨hr, rfl⟩

/-- What a step can do: a sequencer's turn, of the current node or of the node the list of events names, or an event of the world. -/
theorem step_cases {s t : State} (h : step s = .next t) :
    s.legal = true ∧
      ((s.events = [] ∧ runSequencer s = .next t)
        ∨ (∃ q rest, s.events = .sequencer q :: rest ∧ runSequencer { s with events := rest, node := q } = .next t)
        ∨ ∃ e rest, s.events = e :: rest ∧ (∀ q, e ≠ .sequencer q)
          ∧ ({ s with events := rest } : State).perform e = .next t) := by
  have hl : s.legal = true := by
    by_contra hc
    simp [step, hc] at h
  refine ⟨hl, ?_⟩
  cases he : s.events with
  | nil => exact .inl ⟨rfl, by rw [← step_of_no_event hl he]; exact h⟩
  | cons e rest =>
    by_cases hs : ∃ q, e = .sequencer q
    · obtain ⟨q, rfl⟩ := hs
      exact .inr (.inl ⟨q, rest, rfl, by rw [← step_of_sequencer_event hl he]; exact h⟩)
    · have hs' : ∀ q, e ≠ .sequencer q := fun q hq => hs ⟨q, hq⟩
      exact .inr (.inr ⟨e, rest, rfl, hs', by rw [← step_of_world_event hl he hs']; exact h⟩)

/-! ### Commands -/

theorem execFft_cases {b : Buf} {s t : State} (h : execFft b s = .next t) :
    ∃ m, fftBuffer s.params.numerics.arith s.draws (s.incoming s.node b) s.cur b = .ok m ∧ t = s.rewrote b m := by
  unfold execFft at h
  split at h
  · cases h; exact ⟨_, ‹_›, rfl⟩
  · cases h

theorem execCorrect_cases {b : Buf} {s t : State} (h : execCorrect b s = .next t) :
    ∃ m, correctBuffer s.params.numerics.arith s.draws (s.incoming s.node b) s.cur b = .ok m ∧ t = s.rewrote b m := by
  unfold execCorrect at h
  split at h
  · cases h; exact ⟨_, ‹_›, rfl⟩
  · cases h

/-- The fence: the wait without a change, or the completion. -/
theorem State.fenced_cases (s : State) :
    s.cur.outPending ≠ [] ∧ s.fenced = s
      ∨ s.cur.outPending = [] ∧ s.fenced = (s.modCur fun e => (e.chargeComm s.draws).complete s.draws).tick := by
  unfold State.fenced
  split_ifs with h
  · exact .inr ⟨List.isEmpty_iff.1 h, rfl⟩
  · exact .inl ⟨fun he => h (List.isEmpty_iff.2 he), rfl⟩

/-- INGEST: the read posted, the wait without a change, or the band read. -/
theorem execIngest_cases {b : Buf} {s t : State} (h : execIngest b s = .next t) :
    s.cur.stage = .reading ∧ t = s ∨ s.cur.stage = .read ∧ t = s.ingested b
      ∨ s.cur.stage ≠ .reading ∧ s.cur.stage ≠ .read ∧ t = s.modCur (Engine.atStage .reading) := by
  unfold execIngest at h
  split at h <;> cases h
  · exact .inl ⟨‹_›, rfl⟩
  · exact .inr (.inl ⟨‹_›, rfl⟩)
  all_goals rename_i hs; exact .inr (.inr ⟨by rw [hs]; decide, by rw [hs]; decide, rfl⟩)

/-- The hand-over of EMIT appends to the pending bytes and waits for the fabric to take them. -/
theorem State.handOver_cases {s t : State} {b : Buf} (h : s.handOver b = some t) :
    ∃ vs, (s.cur.buf b).readElems 0 (bufElems s.cur.cfg) = some vs
      ∧ t = (s.modCur fun e =>
          { e with
            outPending := e.outPending ++ outWrites (s.incoming s.node b) s.draws e.cfg 0 vs
            stage := .writing }).tick := by
  unfold State.handOver at h
  split at h
  · cases h; exact ⟨_, ‹_›, rfl⟩
  · cases h

theorem execEmit_cases {b : Buf} {s t : State} (h : execEmit b s = .next t) :
    s.cur.stage = .writing ∧ t = s ∨ s.cur.stage = .fence ∧ t = s.fenced ∨ s.handOver b = some t := by
  unfold execEmit at h
  split at h
  · cases h; exact .inl ⟨‹_›, rfl⟩
  · cases h; exact .inr (.inl ⟨‹_›, rfl⟩)
  all_goals
    split at h
    · rename_i u hu; cases h; exact .inr (.inr hu)
    · cases h

theorem State.waitBarrier_cases (s : State) :
    s.released s.node = false ∧ s.waitBarrier = s
      ∨ s.released s.node = true
        ∧ s.waitBarrier = (s.modCur fun e => (e.chargeComm s.draws).complete s.draws).tick := by
  unfold State.waitBarrier
  split_ifs with h
  · exact .inr ⟨h, rfl⟩
  · exact .inl ⟨by simpa using h, rfl⟩

theorem execBarrier_cases {s t : State} (h : execBarrier s = .next t) :
    s.cur.stage = .barrier ∧ t = s.waitBarrier ∨ s.cur.stage ≠ .barrier ∧ t = s.arrive.waitBarrier := by
  unfold execBarrier at h
  split at h <;> cases h
  · exact .inl ⟨‹_›, rfl⟩
  all_goals rename_i hs; exact .inr ⟨by rw [hs]; decide, rfl⟩

theorem State.performOut_cases {s t : State} {p i : Nat} (h : s.performOut p i = .next t) :
    t = s ∨ ∃ w, (s.eng p).outPending[i]? = some w ∧ w.off < regionBytes (s.eng p).cfg
      ∧ t = ({ s with outRegion := s.outRegion.write w.off w.val } : State).modEng p fun e =>
          { e with outPending := e.outPending.eraseIdx i } := by
  unfold State.performOut at h
  split at h
  · cases h; exact .inl rfl
  · rename_i w hw
    split_ifs at h with h1
    cases h
    exact .inr ⟨w, hw, h1, rfl⟩

theorem State.hostReset_cases {s t : State} (h : s.hostReset = .next t) :
    s.resettable = true
      ∧ t = { s with engines := s.engines.map fun e => Engine.reset e.cfg, arrivals := s.engines.map fun _ => 0 } := by
  unfold State.hostReset at h
  split_ifs at h with h1
  cases h
  exact ⟨h1, rfl⟩

end Sys2Proof.Machine
end

