-- ==== Sys2Proof/Laws/Moves.lean ====
section
/-! SUPPORT. What a step can do to one engine, as a chain of few kinds of moves, each about the fields it touches. A property of one engine
that every move keeps is kept by every step. -/

namespace Sys2Proof.Machine

/-! ### Memories stay inside their range -/

theorem Memory.below_write {m : Memory} {k n : Nat} (v : Byte) (h : m.below n = true) (hk : k < n) :
    (m.write k v).below n = true := by
  induction m with
  | nil => simpa [Memory.write, Memory.below] using hk
  | cons c m ih =>
    obtain ⟨a, w⟩ := c
    simp only [Memory.below, List.all_cons, Bool.and_eq_true, decide_eq_true_eq] at h ih
    simp only [Memory.write]
    split_ifs <;> simp only [Memory.below, List.all_cons, Bool.and_eq_true, decide_eq_true_eq]
    · exact ⟨hk, h⟩
    · exact ⟨hk, h.2⟩
    · exact ⟨h.1, ih h.2⟩

theorem Memory.below_writeHalf {m : Memory} {e n : Nat} (k : Half) (v : F32) (h : m.below (8 * n) = true) (he : e < n) :
    (m.writeHalf e k v).below (8 * n) = true := by
  have hk : halfAt e k + 4 ≤ 8 * n := by cases k <;> simp only [halfAt] <;> omega
  exact Memory.below_write _ (Memory.below_write _ (Memory.below_write _ (Memory.below_write _ h (by omega)) (by omega))
    (by omega)) (by omega)

theorem Memory.below_writeElem {m : Memory} {e n : Nat} (v : Cplx) (h : m.below (8 * n) = true) (he : e < n) :
    (m.writeElem e v).below (8 * n) = true :=
  Memory.below_writeHalf .y _ (Memory.below_writeHalf .x _ h he) he

theorem Memory.below_writeElems {m : Memory} {e n : Nat} (vs : List Cplx) (h : m.below (8 * n) = true)
    (he : e + vs.length ≤ n) : (m.writeElems e vs).below (8 * n) = true := by
  induction vs generalizing m e with
  | nil => exact h
  | cons v vs ih =>
    simp only [List.length_cons] at he
    exact ih (Memory.below_writeElem v h (by omega)) (by omega)

theorem Memory.below_writeAll {m : Memory} {n : Nat} (l : List (Nat × Cplx)) (h : m.below (8 * n) = true)
    (hl : ∀ p ∈ l, p.1 < n) : (m.writeAll l).below (8 * n) = true := by
  induction l generalizing m with
  | nil => exact h
  | cons p l ih =>
    exact ih (Memory.below_writeElem p.2 h (hl p List.mem_cons_self)) fun q hq => hl q (List.mem_cons_of_mem _ hq)

theorem overRows_below {n th : Nat} {f : Nat → List Cplx → List Cplx} {rs : List Nat} {m m' : Memory}
    (h : overRows n f rs m = some m') (hf : ∀ r row, (f r row).length = row.length) (hr : ∀ r ∈ rs, r < th)
    (hb : m.below (8 * (th * n)) = true) : m'.below (8 * (th * n)) = true := by
  induction rs generalizing m with
  | nil => cases h; exact hb
  | cons r rs ih =>
    simp only [overRows] at h
    split at h
    · rename_i row hrow
      refine ih h (fun q hq => hr q (List.mem_cons_of_mem _ hq)) (Memory.below_writeElems _ hb ?_)
      rw [hf, (Memory.readElems_eq_some.1 hrow).1, ← Nat.succ_mul]
      exact Nat.mul_le_mul_right n (hr r List.mem_cons_self)
    · cases h

theorem mem_forkRows {th cores r : Nat} (h : 0 < cores) : r ∈ forkRows th cores ↔ r < th := by
  rw [forkRows, forkRows_prefix, coreStart_cores th h, List.mem_range]

/-! ### Moves of one engine -/

/-- A replacement of a memory that keeps the canonical form and the range of `n` units. -/
def Memory.Tame (n : Nat) (m m' : Memory) : Prop :=
  (m.wf = true → m'.wf = true) ∧ (m.below (8 * n) = true → m'.below (8 * n) = true)

/-- What a step other than the host's start or reset can do to one engine. -/
inductive EngineMoves : Engine → Engine → Prop
  | refl (e : Engine) : EngineMoves e e
  | trans {e e' e'' : Engine} : EngineMoves e e' → EngineMoves e' e'' → EngineMoves e e''
  /-- a fatal fault (R230). -/
  | fatal (e : Engine) (c : FatalCause) (h : e.run = .running) : EngineMoves e (e.fatalEntry c)
  /-- HALT (R208). -/
  | halt (e : Engine) (n : Nat) (h : e.run = .running) : EngineMoves e (e.halt n)
  /-- a valid bit written, or `XFER_ERR` set (R32). -/
  | flag (e : Engine) (i : Nat) (v : Bool)
      (h : i = Flag.twValid ∨ i = Flag.brValid ∨ i = Flag.ctValid ∨ (i = Flag.xferErr ∧ v = true)) :
      EngineMoves e (e.flag i v)
  /-- a buffer replaced. -/
  | buffer (e : Engine) (b : Buf) (m : Memory) (h : Memory.Tame (bufElems e.cfg) (e.buf b) m) : EngineMoves e (e.setBuf b m)
  /-- the tables and their lengths replaced. -/
  | tables (e : Engine) (tw br ct : Memory) (twLen brLen : Idx) (htw : e.tw.wf = true → tw.wf = true)
      (hbr : e.br.wf = true → br.wf = true) (hct : e.ct.wf = true → ct.wf = true) :
      EngineMoves e { e with tw := tw, twLen := twLen, br := br, brLen := brLen, ct := ct }
  /-- the transfers in flight, each with something left to write if each was so before. -/
  | transfers (e : Engine) (ts : List Transfer)
      (h : (∀ t ∈ e.outstanding, t.pending ≠ []) → ∀ t ∈ ts, t.pending ≠ []) :
      EngineMoves e { e with outstanding := ts }
  /-- log events appended. -/
  | logged (e : Engine) (evs : List LogEvent) : EngineMoves e { e with log := e.log ++ evs }
  /-- cycles charged. -/
  | comm (e : Engine) (n : Nat) : EngineMoves e (e.chargeComm n)
  | comp (e : Engine) (n : Nat) : EngineMoves e (e.chargeComp n)
  /-- the fields about which no invariant is stated. -/
  | rest (e : Engine) (pc : BitVec 8) (iterLeft : Idx) (stage : Stage) (rdv : BitVec 32) (pendingAdd : List Nat)
      (outPending : List OutWrite) (work : Work) :
      EngineMoves e
        { e with
          pc := pc, iterLeft := iterLeft, stage := stage, rdv := rdv, pendingAdd := pendingAdd, outPending := outPending,
          work := work }

theorem EngineMoves.complete (e : Engine) (n : Nat) (h : e.run = .running) : EngineMoves e (e.complete n) := by
  by_cases hp : e.pc = 255#8
  · rw [Engine.complete_of_eq n hp]
    exact .trans (EngineMoves.rest e e.pc e.iterLeft .begin e.rdv e.pendingAdd e.outPending (freeWork n (cfgC e.cfg)))
      (.fatal _ _ h)
  · rw [Engine.complete_of_ne n hp]
    exact EngineMoves.rest e (e.pc + 1) e.iterLeft .begin e.rdv e.pendingAdd e.outPending (freeWork n (cfgC e.cfg))

theorem EngineMoves.setGen (e : Engine) (g : GenRegs) : EngineMoves e (e.setGen g) :=
  EngineMoves.rest e e.pc e.iterLeft e.stage e.rdv e.pendingAdd e.outPending { e.work with gen := g }

theorem EngineMoves.twgen (src : TrigSource) (n : Nat) (e : Engine) (h : e.run = .running) :
    EngineMoves e (e.twgen src n) := by
  have h0 : EngineMoves e (e.twClear.chargeComp n) := by
    refine .trans ?_ (.comp _ n)
    refine .trans ?_ (.setGen _ _)
    exact .trans (.tables e e.tw e.br e.ct 0 e.brLen id id id) (.flag _ _ _ (.inl rfl))
  unfold Engine.twgen
  simp only
  split_ifs
  · exact .trans h0 (.fatal _ _ h)
  · refine .trans h0 (.trans ?_ (.complete _ n h))
    refine .trans ?_ (.flag _ _ _ (.inl rfl))
    exact .tables _ _ _ _ _ _ (Memory.wf_writeElems _ _) id id

theorem EngineMoves.brgen (n : Nat) (e : Engine) (h : e.run = .running) : EngineMoves e (e.brgen n) := by
  have h0 : EngineMoves e (e.brClear.chargeComp n) := by
    refine .trans ?_ (.comp _ n)
    refine .trans ?_ (.setGen _ _)
    exact .trans (.tables e e.tw e.br e.ct e.twLen 0 id id id) (.flag _ _ _ (.inr (.inl rfl)))
  unfold Engine.brgen
  simp only
  split_ifs
  · exact .trans h0 (.fatal _ _ h)
  · refine .trans h0 (.trans ?_ (.fatal _ _ h))
    refine .trans ?_ (.setGen _ _)
    exact .tables _ _ _ _ _ _ id (Memory.wf_writeElems _ _) id
  · refine .trans h0 (.trans ?_ (.complete _ n h))
    refine .trans ?_ (.flag _ _ _ (.inr (.inl rfl)))
    exact .tables _ _ _ _ _ _ id (Memory.wf_writeElems _ _) id

theorem EngineMoves.ctgen (src : TrigSource) (n : Nat) (e : Engine) (h : e.run = .running) :
    EngineMoves e (e.ctgen src n) := by
  have h0 : EngineMoves e ((e.flag Flag.ctValid false).chargeComp n) :=
    .trans (.flag _ _ _ (.inr (.inr (.inl rfl)))) (.comp _ n)
  unfold Engine.ctgen
  simp only
  split_ifs
  · exact .trans h0 (.fatal _ _ h)
  · refine .trans h0 (.trans ?_ (.complete _ n h))
    refine .trans ?_ (.flag _ _ _ (.inr (.inr (.inl rfl))))
    exact .tables _ _ _ _ _ _ id id (Memory.wf_writeElems _ _)

/-- Where every transfer has something left to write, none leaves. -/
theorem stillPending_of_alive {ts : List Transfer} (h : ∀ t ∈ ts, t.pending ≠ []) : stillPending ts = ts := by
  unfold stillPending
  rw [List.filter_eq_self]
  intro t ht
  simpa using h t ht

/-- One write of transfer `i` performed where every transfer has something left to write: it leaves with its last write. -/
theorem stillPending_modify {ts : List Transfer} {i : Nat} {tr : Transfer} {w : Nat × Half} (hi : ts[i]? = some tr)
    (h : ∀ t ∈ ts, t.pending ≠ []) :
    stillPending (ts.modify i fun t => t.performed w)
      = if tr.pending.erase w = [] then ts.eraseIdx i else ts.set i (tr.performed w) := by
  induction ts generalizing i with
  | nil => simp at hi
  | cons a ts ih =>
    cases i with
    | zero =>
      simp only [List.getElem?_cons_zero, Option.some.injEq] at hi
      subst hi
      have ht : stillPending ts = ts := stillPending_of_alive fun t ht => h t (List.mem_cons_of_mem _ ht)
      unfold stillPending at ht ⊢
      rw [List.modify_zero_cons, List.filter_cons, ht]
      by_cases he : a.pending.erase w = []
      · rw [if_pos he, if_neg (by simp only [Transfer.performed, he]; decide)]
        rfl
      · rw [if_neg he, if_pos (by simpa only [Transfer.performed, Bool.not_eq_true', List.isEmpty_eq_false_iff] using he)]
        rfl
    | succ i =>
      have hr := ih (by simpa using hi) fun t ht => h t (List.mem_cons_of_mem _ ht)
      have ha := h a List.mem_cons_self
      unfold stillPending at hr ⊢
      rw [List.modify_succ_cons, List.filter_cons, hr, if_pos (by simpa using ha)]
      split_ifs <;> simp

theorem stillPending_ne_nil {ts : List Transfer} : ∀ t ∈ stillPending ts, t.pending ≠ [] := by
  intro t ht
  have := (List.mem_filter.1 ht).2
  simpa using this

theorem EngineMoves.sent (n : Nat) (b : Buf) (quad : List Cplx) (t : Sent) (e : Engine) (hw : e.cfg.wf = true)
    (ht : ∀ u ∈ t.out, u.pending ≠ []) : EngineMoves e (Engine.sent n b quad t e) := by
  have hq : Memory.Tame (bufElems e.cfg) (e.buf (other b))
      ((e.buf (other b)).writeAll (((quadrant e.cfg).map (quadDst e.cfg)).zip quad)) :=
    ⟨Memory.wf_writeAll _, fun h => Memory.below_writeAll _ h fun p hp => by
      obtain ⟨x, hx, hxe⟩ := List.mem_map.1 (List.of_mem_zip hp).1
      rw [← hxe]; exact quadDst_lt hw hx⟩
  have hs : Memory.Tame (bufElems e.cfg) (e.buf b) ((e.buf b).writeAll (freeQuadrant n e.cfg)) :=
    ⟨Memory.wf_writeAll _, fun h => Memory.below_writeAll _ h fun p hp => by
      obtain ⟨x, hx, hxe⟩ := List.mem_map.1 hp
      rw [← hxe]; exact quadSrc_lt hw hx⟩
  have h1 := EngineMoves.trans (.buffer e (other b) _ hq)
    (.buffer (e.setBuf (other b) ((e.buf (other b)).writeAll (((quadrant e.cfg).map (quadDst e.cfg)).zip quad))) b
      ((e.buf b).writeAll (freeQuadrant n e.cfg)) (by simpa using hs))
  refine .trans h1 ?_
  generalize he1 : (e.setBuf (other b) ((e.buf (other b)).writeAll (((quadrant e.cfg).map (quadDst e.cfg)).zip quad))).setBuf b
      ((e.buf b).writeAll (freeQuadrant n e.cfg)) = e1
  have hf : e1.outstanding = e.outstanding ∧ e1.log = e.log ∧ e1.status = e.status ∧ e1.work = e.work := by
    subst he1; simp
  have h2 := EngineMoves.trans (.transfers e1 (e.outstanding ++ t.out) fun h u hu => by
    rcases List.mem_append.1 hu with hu | hu
    · exact h u (by rw [hf.1]; exact hu)
    · exact ht u hu) (EngineMoves.logged _ t.events)
  have h3 := EngineMoves.trans h2 (EngineMoves.rest _ e1.pc e1.iterLeft .transfers e1.rdv e1.pendingAdd e1.outPending
    { e.work with xpose := sentRegs n e.cfg e.work.xpose })
  have hgoal : Engine.sent n b quad t e
      = { e1 with
          outstanding := e.outstanding ++ t.out, log := e.log ++ t.events
          status := if t.failed then setFlag e.status Flag.xferErr true else e.status
          stage := .transfers, work := { e.work with xpose := sentRegs n e.cfg e.work.xpose } } := by
    rw [← he1]; rfl
  rw [hgoal]
  cases hfail : t.failed
  · have : e.status = e1.status := hf.2.2.1.symm
    simp only [Bool.false_eq_true, if_false]
    rw [this, ← hf.2.1]
    exact h3
  · have h4 := EngineMoves.trans h3 (.flag _ Flag.xferErr true (.inr (.inr (.inr ⟨rfl, rfl⟩))))
    simp only [if_true]
    rw [← hf.2.2.1, ← hf.2.1]
    exact h4

/-! ### Moves of the system -/

/-- Every engine of the system moves. -/
def SystemMoves (s t : State) : Prop := ∀ q, EngineMoves (s.eng q) (t.eng q)

theorem SystemMoves.refl (s : State) : SystemMoves s s := fun _ => .refl _

theorem SystemMoves.trans {s t u : State} (h : SystemMoves s t) (h' : SystemMoves t u) : SystemMoves s u :=
  fun q => .trans (h q) (h' q)

theorem SystemMoves.modEng (s : State) (q : Nat) (f : Engine → Engine)
    (h : q < s.engines.length → EngineMoves (s.eng q) (f (s.eng q))) : SystemMoves s (s.modEng q f) := fun p => by
  rw [State.eng_modEng]
  split_ifs with hp
  · rw [hp.1]; exact h hp.2
  · exact .refl _

theorem SystemMoves.settle (s : State) (b : Buf) : SystemMoves s (s.settle b) := fun q => by
  unfold State.settle
  split
  · exact .refl _
  · by_cases hq : q < s.engines.length
    · have h1 : State.eng { s with engines := s.engines.map (Engine.settle s.draws s.node b) } q
          = (s.eng q).settle s.draws s.node b := by simp [State.eng, hq]
      rw [h1]
      exact .transfers _ _ fun _ => stillPending_ne_nil
    · have h1 : State.eng { s with engines := s.engines.map (Engine.settle s.draws s.node b) } q = s.eng q := by
        simp [State.eng, List.getElem?_eq_none (Nat.le_of_not_lt hq)]
      rw [h1]
      exact .refl _

/-- The current node moved, and the step drew its values. -/
theorem SystemMoves.one {s : State} {f : Engine → Engine} (h : EngineMoves s.cur (f s.cur)) :
    SystemMoves s (s.modCur f).tick :=
  SystemMoves.modEng s s.node f fun _ => h

theorem State.node_lt_of_running {s : State} (h : s.cur.run = .running) : s.node < s.engines.length := by
  by_contra hc
  rw [State.cur, s.eng_of_le (by omega)] at h
  cases h

theorem SystemMoves.pass (s : State) (h : s.cur.run = .running) : SystemMoves s s.pass := by
  rcases s.pass_cases with ⟨_, hp⟩ | ⟨_, hp⟩
  · rw [hp]; exact .refl s
  · rw [hp]
    refine SystemMoves.one ?_
    exact .trans (.trans (.trans (EngineMoves.rest s.cur s.cur.pc s.cur.iterLeft s.cur.stage
      (s.cur.rdv - BitVec.ofNat 32 (cfgNB s.cur.cfg)) s.cur.pendingAdd s.cur.outPending s.cur.work) (.comm _ _))
      (.comp _ _)) (.complete _ _ h)

theorem SystemMoves.announce (s : State) (h : s.cur.run = .running) : SystemMoves s s.announce := by
  rcases s.announce_cases with ⟨_, hp⟩ | ⟨_, hp⟩
  · rw [hp]; exact .refl s
  · have hn := State.node_lt_of_running h
    rw [hp]
    refine .trans (SystemMoves.modEng s s.node Engine.announced fun _ => ?_) (SystemMoves.pass _ ?_)
    · exact EngineMoves.rest s.cur s.cur.pc s.cur.iterLeft .rendezvous s.cur.rdv
        (s.cur.pendingAdd ++ List.range (cfgNB s.cur.cfg)) s.cur.outPending s.cur.announced.work
    · exact (congrArg Engine.run (s.cur_modCur _ hn)).trans h

theorem SystemMoves.fenced (s : State) (h : s.cur.run = .running) : SystemMoves s s.fenced := by
  rcases s.fenced_cases with ⟨_, hp⟩ | ⟨_, hp⟩
  · rw [hp]; exact .refl s
  · rw [hp]; exact SystemMoves.one (.trans (.comm s.cur s.draws) (.complete _ _ h))

theorem SystemMoves.waitBarrier (s : State) (h : s.cur.run = .running) : SystemMoves s s.waitBarrier := by
  rcases s.waitBarrier_cases with ⟨_, hp⟩ | ⟨_, hp⟩
  · rw [hp]; exact .refl s
  · rw [hp]; exact SystemMoves.one (.trans (.comm s.cur s.draws) (.complete _ _ h))

/-- The current node's buffer replaced after a settling, its time charged, and the command completed. -/
theorem SystemMoves.settleThen (s : State) (b : Buf) (m : Engine → Memory) (charge : Engine → Engine)
    (hc : ∀ e, EngineMoves e (charge e) ∧ (charge e).run = e.run) (h : s.cur.run = .running)
    (hm : ∀ e : Engine, e.cfg = s.cur.cfg → e.buf b = s.cur.buf b → Memory.Tame (bufElems e.cfg) (e.buf b) (m e)) :
    SystemMoves s ((s.settle b).modCur fun e => (charge (e.setBuf b (m e))).complete s.draws).tick := by
  refine .trans (.settle s b) (SystemMoves.one ?_)
  have hs := s.cur_settle b
  have h1 : (s.settle b).cur.cfg = s.cur.cfg := by rw [hs]
  have h2 : (s.settle b).cur.buf b = s.cur.buf b := by rw [hs]; cases b <;> rfl
  have h3 : (s.settle b).cur.run = .running := by rw [hs]; exact h
  refine .trans (.trans (.buffer _ b _ (hm _ h1 h2)) (hc _).1) (.complete _ _ ?_)
  rw [(hc _).2, Engine.setBuf_run, h3]

theorem SystemMoves.rewrote (s : State) (b : Buf) (m : Memory) (h : s.cur.run = .running)
    (hm : Memory.Tame (bufElems s.cur.cfg) (s.cur.buf b) m) : SystemMoves s (s.rewrote b m) :=
  SystemMoves.settleThen s b (fun _ => m) (Engine.chargeComp s.draws) (fun e => ⟨.comp e _, rfl⟩) h
    fun e hc hb => by rw [hc, hb]; exact hm

/-- Every transfer of an enqueue of a TRANSPOSE has one element per row of the band. -/
theorem count_of_mem_xferGroups {g : Grouping} {c : NodeCfg} {b : Buf} {x : XferGroup} {d : XferDesc}
    (h : x ∈ xferGroups g c b) (hd : d ∈ x.descs) : d.count = cfgTH c := by
  unfold xferGroups at h
  split at h
  · obtain ⟨q, _, h⟩ := List.mem_flatMap.1 h
    obtain ⟨r, _, rfl⟩ := List.mem_map.1 h
    rw [List.mem_singleton.1 hd]; rfl
  · obtain ⟨q, _, rfl⟩ := List.mem_map.1 h
    obtain ⟨r, _, hd⟩ := List.mem_map.1 hd
    rw [← hd]; rfl

theorem SystemMoves.send {s t : State} {b : Buf} (hw : s.cur.cfg.wf = true) (hr : s.cur.run = .running)
    (h : s.send b = some t) : SystemMoves s t ∧ t.cur.run = .running := by
  obtain ⟨quad, sent, _, hs, rfl⟩ := State.send_cases h
  have hn := State.node_lt_of_running hr
  constructor
  · have := SystemMoves.one (s := s) (f := Engine.sent s.draws b quad sent) (EngineMoves.sent s.draws b quad sent s.cur hw
      fun v hv => ?_)
    · exact this
    · obtain ⟨⟨g, hg, hd⟩, hp⟩ := enqueueAll_out hs v hv
      rw [hp, count_of_mem_xferGroups hg hd]
      exact allHalves_ne_nil (NodeCfg.th_pos hw)
  · have hc : State.cur { (s.modCur (Engine.sent s.draws b quad sent)).tick with answers := sent.answers }
        = Engine.sent s.draws b quad sent s.cur := s.cur_modCur _ hn
    rw [hc]
    cases b <;> exact hr

theorem EngineMoves.atStage (e : Engine) (st : Stage) : EngineMoves e (e.atStage st) :=
  EngineMoves.rest e e.pc e.iterLeft st e.rdv e.pendingAdd e.outPending e.work

theorem SystemMoves.handOver {s t : State} {b : Buf} (h : s.handOver b = some t) : SystemMoves s t := by
  obtain ⟨vs, _, rfl⟩ := State.handOver_cases h
  refine SystemMoves.one ?_
  exact EngineMoves.rest s.cur s.cur.pc s.cur.iterLeft .writing s.cur.rdv s.cur.pendingAdd
    (s.cur.outPending ++ outWrites (s.incoming s.node b) s.draws s.cur.cfg 0 vs) s.cur.work

theorem SystemMoves.arrive (s : State) (hr : s.cur.run = .running) :
    SystemMoves s s.arrive ∧ s.arrive.cur.run = .running := by
  have hn := State.node_lt_of_running hr
  constructor
  · refine SystemMoves.modEng { s with arrivals := s.arrivals.set s.node (s.arrivalsOf s.node + 1) } s.node
      (Engine.atStage .barrier) fun _ => .atStage _ _
  · have : s.arrive.cur = s.cur.atStage .barrier :=
      State.cur_modCur { s with arrivals := s.arrivals.set s.node (s.arrivalsOf s.node + 1) } _ hn
    rw [this]; exact hr

theorem EngineMoves.nextIter (entry : BitVec 8) (n : Nat) (e : Engine) (h : e.run = .running) :
    EngineMoves e (e.nextIter entry n) := by
  unfold Engine.nextIter
  split_ifs
  · exact EngineMoves.rest e entry (e.iterLeft - 1) .begin e.rdv e.pendingAdd e.outPending (freeWork n (cfgC e.cfg))
  · exact .trans (EngineMoves.rest e e.pc 0 e.stage e.rdv e.pendingAdd e.outPending e.work) (.complete _ _ h)

/-- Every engine moves in every command a running sequencer of a legal system runs. -/
theorem SystemMoves.exec {i : Instr} {s t : State} (hl : s.legal = true) (hr : s.cur.run = .running)
    (h : exec i s = .next t) : SystemMoves s t := by
  have hw : s.cur.cfg.wf = true := (State.legal_eng hl (State.node_lt_of_running hr)).1
  have hcores : 0 < cfgC s.cur.cfg := (NodeCfg.wf_spec hw).2.1
  have rows : ∀ b m, (∃ f : Nat → List Cplx → List Cplx,
      (∀ r row, (f r row).length = row.length) ∧ forkOver s.cur b f = some m) →
      Memory.Tame (bufElems s.cur.cfg) (s.cur.buf b) m := by
    rintro b m ⟨f, hf, hm⟩
    exact ⟨overRows_wf hm, overRows_below hm hf fun r hr => (mem_forkRows hcores).1 hr⟩
  cases i with
  | twgen => cases h; exact .one (.twgen _ _ _ hr)
  | brgen => cases h; exact .one (.brgen _ _ hr)
  | ctgen => cases h; exact .one (.ctgen _ _ _ hr)
  | ingest b =>
    rcases execIngest_cases h with ⟨_, rfl⟩ | ⟨_, rfl⟩ | ⟨_, _, rfl⟩
    · exact .refl t
    · exact SystemMoves.settleThen s b (fun e => (e.buf b).writeElems 0 (s.inBand e.cfg)) (Engine.chargeComm s.draws)
        (fun e => ⟨.comm e _, rfl⟩) hr fun e _ _ =>
          ⟨Memory.wf_writeElems _ _, fun hb => Memory.below_writeElems _ hb (by simp [State.inBand])⟩
    · exact SystemMoves.modEng s s.node _ fun _ => .atStage _ _
  | transpose b =>
    rcases execTranspose_cases h with ⟨_, rfl⟩ | ⟨_, rfl⟩ | ⟨u, hu, rfl⟩
    · exact .announce s hr
    · exact .pass s hr
    · have hs := SystemMoves.send hw hr hu
      exact hs.1.trans (.announce u hs.2)
  | fft b =>
    obtain ⟨m, hm, rfl⟩ := execFft_cases h
    rcases fftBuffer_ok hm with rfl | hf
    · exact .rewrote s b _ hr ⟨id, id⟩
    · exact .rewrote s b m hr (rows b m hf)
  | correct b =>
    obtain ⟨m, hm, rfl⟩ := execCorrect_cases h
    exact .rewrote s b m hr (rows b m (correctBuffer_ok hm))
  | emit b =>
    rcases execEmit_cases h with ⟨_, rfl⟩ | ⟨_, rfl⟩ | h
    · exact .refl t
    · exact .fenced s hr
    · exact .handOver h
  | barrier =>
    rcases execBarrier_cases h with ⟨_, rfl⟩ | ⟨_, rfl⟩
    · exact .waitBarrier s hr
    · have hs := SystemMoves.arrive s hr
      exact hs.1.trans (.waitBarrier _ hs.2)
  | next => cases h; exact .one (.nextIter _ _ _ hr)
  | halt => cases h; exact .one (.halt _ _ hr)

theorem SystemMoves.runSequencer {s t : State} (hl : s.legal = true) (h : runSequencer s = .next t) : SystemMoves s t := by
  rcases runSequencer_cases h with ⟨_, rfl⟩ | ⟨hr, rfl | ⟨i, hi⟩⟩
  · exact .refl t
  · exact SystemMoves.modEng s s.node _ fun _ => .fatal _ _ hr
  · exact .exec hl hr hi

/-- Every engine moves in every step but the host's start and reset. -/
theorem SystemMoves.step {s t : State} (h : step s = .next t) (hr : s.events.head? ≠ some .reset)
    (hst : ∀ q, s.events.head? ≠ some (.start q)) : SystemMoves s t := by
  obtain ⟨hl, ⟨_, h⟩ | ⟨q, rest, he, h⟩ | ⟨e, rest, he, hne, h⟩⟩ := step_cases h
  · exact .runSequencer hl h
  · exact SystemMoves.runSequencer (s := { s with events := rest, node := q }) hl h
  · show SystemMoves { s with events := rest } t
    generalize ({ s with events := rest } : State) = u at h ⊢
    cases e with
    | sequencer q => exact absurd rfl (hne q)
    | reset => rw [he] at hr; exact absurd rfl hr
    | start q => rw [he] at hst; exact absurd rfl (hst q)
    | deliver p i x k =>
      rcases State.deliver_cases h with rfl | ⟨tr, _, _, _, hb, rfl⟩
      · exact .refl t
      · refine .trans (SystemMoves.modEng u _ _ fun _ => ?_) (SystemMoves.modEng _ p _ fun _ => ?_)
        · exact .buffer _ _ _ ⟨Memory.wf_writeHalf _ _ _, fun h => Memory.below_writeHalf _ _ h hb⟩
        · exact .transfers _ _ fun _ => stillPending_ne_nil
    | add p i =>
      rcases State.performAdd_cases h with rfl | ⟨q, _, _, rfl⟩
      · exact .refl t
      · refine .trans (SystemMoves.modEng u q Engine.cntAdd fun _ => ?_)
          (SystemMoves.modEng _ p (fun e => { e with pendingAdd := e.pendingAdd.eraseIdx i }) fun _ => ?_)
        · exact EngineMoves.rest (u.eng q) (u.eng q).pc (u.eng q).iterLeft (u.eng q).stage ((u.eng q).rdv + 1)
            (u.eng q).pendingAdd (u.eng q).outPending (u.eng q).work
        · generalize (u.modEng q Engine.cntAdd).eng p = e
          exact EngineMoves.rest e e.pc e.iterLeft e.stage e.rdv (e.pendingAdd.eraseIdx i) e.outPending e.work
    | answer q =>
      cases h
      exact SystemMoves.modEng u q Engine.answered fun _ => by rw [Engine.answered_eq]; exact .atStage _ _
    | outWrite p i =>
      rcases State.performOut_cases h with rfl | ⟨w, _, _, rfl⟩
      · exact .refl t
      · refine SystemMoves.modEng { u with outRegion := u.outRegion.write w.off w.val } p
          (fun e => { e with outPending := e.outPending.eraseIdx i }) fun _ => ?_
        exact EngineMoves.rest (u.eng p) (u.eng p).pc (u.eng p).iterLeft (u.eng p).stage (u.eng p).rdv
          (u.eng p).pendingAdd ((u.eng p).outPending.eraseIdx i) (u.eng p).work

/-- The host's start changes one engine, by the start operation. -/
theorem step_of_start {s t : State} {q : Nat} (h : step s = .next t) (hs : s.events.head? = some (.start q)) :
    t = ({ s with events := s.events.tail } : State).modEng q Engine.start := by
  obtain ⟨_, ⟨he, _⟩ | ⟨p, rest, he, _⟩ | ⟨e, rest, he, _, h⟩⟩ := step_cases h
  · rw [he] at hs; cases hs
  · rw [he] at hs; cases hs
  · rw [he] at hs ⊢; cases hs; cases h; rfl

/-- The host's reset puts every engine to its reset values under its own configuration. -/
theorem step_of_reset {s t : State} (h : step s = .next t) (hs : s.events.head? = some .reset) :
    t = { s with
      events := s.events.tail
      engines := s.engines.map fun e => Engine.reset e.cfg, arrivals := s.engines.map fun _ => 0 } := by
  obtain ⟨_, ⟨he, _⟩ | ⟨p, rest, he, _⟩ | ⟨e, rest, he, _, h⟩⟩ := step_cases h
  · rw [he] at hs; cases hs
  · rw [he] at hs; cases hs
  · rw [he] at hs ⊢; cases hs
    exact (State.hostReset_cases h).2

/-- A property of one engine that every move, the start and the reset keep is kept by every step, of every engine. -/
theorem step_keeps {P : Engine → Prop} (hm : ∀ e e', EngineMoves e e' → P e → P e') (hs : ∀ e, P e → P e.start)
    (hr : ∀ e, P e → P (Engine.reset e.cfg)) {s t : State} (h : step s = .next t) (hP : ∀ q, P (s.eng q)) (q : Nat) :
    P (t.eng q) := by
  by_cases h1 : s.events.head? = some .reset
  · rw [step_of_reset h h1]
    by_cases hq : q < s.engines.length
    · have := hr _ (hP q)
      simpa [State.eng, hq] using this
    · have := hP q
      simpa [State.eng, List.getElem?_eq_none (Nat.le_of_not_lt hq)] using this
  · by_cases h2 : ∃ p, s.events.head? = some (.start p)
    · obtain ⟨p, hp⟩ := h2
      rw [step_of_start h hp, State.eng_modEng]
      split_ifs
      · exact hs _ (hP p)
      · exact hP q
    · exact hm _ _ (SystemMoves.step h h1 (fun p hp => h2 ⟨p, hp⟩) q) (hP q)

/-- A check of every engine of a list is a check of every node, where the engine that is not there passes. -/
theorem State.all_engines_iff {P : Engine → Bool} (h0 : P Engine.absent = true) (s : State) :
    s.engines.all P = true ↔ ∀ q, P (s.eng q) = true := by
  simp only [List.all_eq_true]
  refine ⟨fun h q => ?_, fun h e he => ?_⟩
  · by_cases hq : q < s.engines.length
    · exact h _ (s.eng_mem hq)
    · rw [s.eng_of_le (by omega)]; exact h0
  · obtain ⟨q, _, rfl⟩ := s.mem_engines.1 he
    exact h q

end Sys2Proof.Machine
end

