-- ==== Sys2Proof/Laws/Flags.lean ====
section
/-! SUPPORT. `STATUS`, bit by bit: what setting a flag or `CODE` does to every bit. -/

namespace Sys2Proof.Machine

theorem getLsbD_setFlag (w : BitVec 32) (i : Nat) (v : Bool) (k : Nat) :
    (setFlag w i v).getLsbD k = if k = i ∧ k < 32 then v else w.getLsbD k := by
  unfold setFlag
  by_cases hk : k < 32
  · cases v <;> by_cases h : k = i
    all_goals first | subst h | skip
    all_goals simp_all [eq_comm]
  · rw [BitVec.getLsbD_of_ge _ _ (by omega), BitVec.getLsbD_of_ge _ _ (by omega), if_neg fun h => hk h.2]

theorem flagOf_setFlag (w : BitVec 32) (i j : Nat) (v : Bool) (h : j < 32) :
    flagOf (setFlag w i v) j = if j = i then v else flagOf w j := by
  unfold flagOf
  rw [getLsbD_setFlag]
  simp only [h, and_true]

theorem getLsbD_setCode (w : BitVec 32) (c : BitVec 8) (k : Nat) :
    (setCode w c).getLsbD k = if 8 ≤ k ∧ k < 16 then c.getLsbD (k - 8) else w.getLsbD k := by
  refine (BitVec.getLsbD_append (x := w.extractLsb' 16 16) (y := c ++ w.extractLsb' 0 8) (i := k)).trans ?_
  rw [BitVec.getLsbD_append]
  simp only [BitVec.getLsbD_extractLsb']
  by_cases h8 : k < 8
  · rw [if_pos (by omega), if_pos h8, if_neg fun h => by omega]; simp [h8]
  · by_cases h16 : k < 16
    · rw [if_pos (by omega), if_neg h8, if_pos ⟨by omega, h16⟩]
    · rw [if_neg (by omega), if_neg fun h => h16 h.2, show 16 + (k - (8 + 8)) = k by omega]
      by_cases h32 : k < 32
      · simp [show k - 16 < 16 by omega]
      · rw [BitVec.getLsbD_of_ge w k (by omega)]; simp

theorem flagOf_setCode (w : BitVec 32) (c : BitVec 8) {j : Nat} (h : j < 8) : flagOf (setCode w c) j = flagOf w j := by
  unfold flagOf
  rw [getLsbD_setCode, if_neg fun h' => by omega]

@[simp] theorem codeOf_setCode (w : BitVec 32) (c : BitVec 8) : codeOf (setCode w c) = c := by
  ext i hi
  simp only [codeOf, BitVec.getElem_extractLsb']
  rw [getLsbD_setCode, if_pos ⟨by omega, by omega⟩]
  simp [hi]

@[simp] theorem codeOf_setFlag (w : BitVec 32) {i : Nat} (v : Bool) (h : i < 8) : codeOf (setFlag w i v) = codeOf w := by
  ext k hk
  simp only [codeOf, BitVec.getElem_extractLsb']
  rw [getLsbD_setFlag, if_neg fun h' => by omega]

theorem statusHigh_setFlag (w : BitVec 32) {i : Nat} (v : Bool) (h : i < 8) :
    (setFlag w i v).extractLsb' 16 16 = w.extractLsb' 16 16 := by
  ext k hk
  simp only [BitVec.getElem_extractLsb']
  rw [getLsbD_setFlag, if_neg fun h' => by omega]

theorem statusHigh_setCode (w : BitVec 32) (c : BitVec 8) :
    (setCode w c).extractLsb' 16 16 = w.extractLsb' 16 16 := by
  ext k hk
  simp only [BitVec.getElem_extractLsb']
  rw [getLsbD_setCode, if_neg fun h' => by omega]

theorem statusKeptBut_setFlag (w : BitVec 32) (i : Nat) (v : Bool) : StatusKeptBut i w (setFlag w i v) :=
  fun k hk => by rw [getLsbD_setFlag, if_neg fun h => hk h.1]

/-- Clearing a flag and then setting it leaves every other bit. -/
theorem statusKeptBut_setFlag_setFlag (w : BitVec 32) (i : Nat) (v v' : Bool) :
    StatusKeptBut i w (setFlag (setFlag w i v) i v') :=
  fun k hk => by rw [getLsbD_setFlag, if_neg fun h => hk h.1, getLsbD_setFlag, if_neg fun h => hk h.1]

end Sys2Proof.Machine
end

