-- ==== Sys2Proof/Laws/Tables.lean ====
section
/-! SUPPORT. The generators on one engine as one record update each: with enough capacity, and with too little. -/

namespace Sys2Proof.Machine

/-- An engine with no valid table holds to its valid bits where both length registers are 0. -/
theorem Engine.tablesHold_of_not_valid {src : TrigSource} {e : Engine} (ht : flagOf e.status Flag.twValid = false)
    (hb : flagOf e.status Flag.brValid = false) (hc : flagOf e.status Flag.ctValid = false) (h1 : e.twLen = 0)
    (h2 : e.brLen = 0) : e.tablesHold src := by
  refine ⟨fun h => ?_, fun _ => h1, fun h => ?_, fun _ => h2, fun h => ?_⟩ <;> simp_all

/-! ### The tables' sizes -/

theorem length_stageNest {l s : Nat} (h : s < l) : (stageNest (2 ^ l) (2 ^ (s + 1))).length = 2 ^ l / 2 := by
  have h1 : 2 ^ l / 2 ^ (s + 1) = 2 ^ (l - (s + 1)) := Nat.pow_div h (by norm_num)
  have h2 : 2 ^ (s + 1) / 2 = 2 ^ s := by rw [pow_succ]; simp
  have h3 : 2 ^ l / 2 = 2 ^ (l - 1) := by
    have := Nat.pow_div (x := 2) (show 1 ≤ l by omega) (by norm_num)
    simpa using this
  simp only [stageNest, List.length_flatMap, List.length_map, List.length_range, h1, h2, h3, List.map_const',
    List.sum_replicate, smul_eq_mul]
  rw [← pow_add]
  congr 1
  omega

theorem length_loopNest_prefix {l k : Nat} (h : k ≤ l) :
    ((List.range k).flatMap fun s => stageNest (2 ^ l) (2 ^ (s + 1))).length = 2 ^ l / 2 * k := by
  induction k with
  | zero => simp
  | succ k ih =>
    rw [List.range_succ, List.flatMap_append, List.length_append, ih (by omega)]
    simp only [List.flatMap_cons, List.flatMap_nil, List.append_nil, length_stageNest h]
    ring

theorem length_loopNest (l : Nat) : (loopNest (2 ^ l) l).length = 2 ^ l / 2 * l := length_loopNest_prefix le_rfl

@[simp] theorem length_twTable (src : TrigSource) (n l : Nat) : (twTable src n l).length = (loopNest n l).length := by
  simp [twTable]

@[simp] theorem length_ctTable (src : TrigSource) (c : NodeCfg) : (ctTable src c).length = cfgTH c := by
  simp [ctTable]

/-! ### TWGEN -/

theorem Engine.twgen_of_capacity {src : TrigSource} {n : Nat} {e : Engine} (hc : twNeed e.cfg ≤ e.cfg.twCap)
    (hp : e.pc ≠ 255#8) :
    e.twgen src n =
      { e with
        tw := e.tw.writeElems 0 ((twTable src (cfgN e.cfg) (cfgL e.cfg)).map TrigPair.toCplx)
        twLen := BitVec.ofNat 32 (twTable src (cfgN e.cfg) (cfgL e.cfg)).length
        status := setFlag (setFlag e.status Flag.twValid false) Flag.twValid true
        compCycles := (e.chargeComp n).compCycles
        pc := e.pc + 1, stage := .begin, work := freeWork n (cfgC e.cfg) } := by
  unfold Engine.twgen
  simp only
  rw [if_neg (by omega), Engine.complete_of_ne _ (by exact hp)]
  rfl

theorem Engine.twgen_of_small {src : TrigSource} {n : Nat} {e : Engine} (hc : e.cfg.twCap < twNeed e.cfg) :
    e.twgen src n = (e.twClear.chargeComp n).fatalEntry .allocFail := by
  unfold Engine.twgen
  simp only
  rw [if_pos hc]

/-! ### BRGEN -/

theorem Engine.brgen_of_capacity {n : Nat} {e : Engine} (hc : cfgN e.cfg ≤ e.cfg.brCap) (hp : e.pc ≠ 255#8)
    (ho : (brRun (cfgN e.cfg) e.work.gen.brK.toNat).overflow = false) :
    e.brgen n =
      { e with
        br := e.br.writeElems 0 ((brRun (cfgN e.cfg) e.work.gen.brK.toNat).pairs.map SwapPair.toCplx)
        brLen := BitVec.ofNat 32 (brRun (cfgN e.cfg) e.work.gen.brK.toNat).wp
        status := setFlag (setFlag e.status Flag.brValid false) Flag.brValid true
        compCycles := (e.chargeComp n).compCycles
        pc := e.pc + 1, stage := .begin, work := freeWork n (cfgC e.cfg) } := by
  unfold Engine.brgen
  simp only
  rw [if_neg (by omega)]
  have ho' : ((brRun (cfgN e.cfg) e.work.gen.brK.toNat).overflow = true) = False := by rw [ho]; simp
  simp only [ho', if_false]
  rw [Engine.complete_of_ne _ (by exact hp)]
  rfl

theorem Engine.brgen_of_small {n : Nat} {e : Engine} (hc : e.cfg.brCap < cfgN e.cfg) :
    e.brgen n = (e.brClear.chargeComp n).fatalEntry .allocFail := by
  unfold Engine.brgen
  simp only
  rw [if_pos hc]

/-! ### CTGEN -/

theorem Engine.ctgen_of_capacity {src : TrigSource} {n : Nat} {e : Engine} (hc : cfgTH e.cfg ≤ e.cfg.ctCap)
    (hp : e.pc ≠ 255#8) :
    e.ctgen src n =
      { e with
        ct := e.ct.writeElems 0 ((ctTable src e.cfg).map TrigPair.toCplx)
        status := setFlag (setFlag e.status Flag.ctValid false) Flag.ctValid true
        compCycles := (e.chargeComp n).compCycles
        pc := e.pc + 1, stage := .begin, work := freeWork n (cfgC e.cfg) } := by
  unfold Engine.ctgen
  simp only
  rw [if_neg (by omega), Engine.complete_of_ne _ (by exact hp)]
  rfl

theorem Engine.ctgen_of_small {src : TrigSource} {n : Nat} {e : Engine} (hc : e.cfg.ctCap < cfgTH e.cfg) :
    e.ctgen src n = ((e.flag Flag.ctValid false).chargeComp n).fatalEntry .allocFail := by
  unfold Engine.ctgen
  simp only
  rw [if_pos hc]

end Sys2Proof.Machine
end

