-- ==== Sys2Proof/Laws/Commands.lean ====
section
/-! SUPPORT. What the commands that replace a buffer leave everywhere else, said once, and the whole-state form of the commands of the
sequencer. -/

namespace Sys2Proof.Machine

theorem State.cur_one {s : State} (f : Engine → Engine) (h : s.node < s.engines.length) : (s.modCur f).tick.cur = f s.cur :=
  s.cur_modCur f h

/-- A change of the current node leaves the others. -/
theorem State.keepsOthers_one (s : State) (f : Engine → Engine) : s.KeepsOthers (s.modCur f).tick :=
  ⟨s.length_modCur f, fun _ hq => s.eng_modCur_of_ne f hq⟩

/-- A change of the current node leaves the world. -/
theorem State.keepsWorld_one (s : State) (f : Engine → Engine) : s.KeepsWorld (s.modCur f).tick :=
  ⟨rfl, rfl, rfl, rfl, rfl, rfl, rfl⟩

/-- Everything a command leaves that replaces buffer `b` of the current node, after a settling, and completes. -/
theorem settleThen_spec {s t : State} {b : Buf} {m : Memory} {charge : Engine → Engine}
    (ht : t = ((s.settle b).modCur fun e => (charge (e.setBuf b m)).complete s.draws).tick)
    (hc : ∀ e : Engine, ∃ x y, charge e = { e with commCycles := x, compCycles := y })
    (hn : s.node < s.engines.length) (hp : s.cur.pc ≠ 255#8) :
    t.cur.pc = s.cur.pc + 1 ∧ t.cur.stage = .begin ∧ t.cur.buf b = m ∧ t.cur.buf (other b) = s.cur.buf (other b)
      ∧ s.cur.KeepsTables t.cur ∧ t.cur.status = s.cur.status ∧ t.cur.rdv = s.cur.rdv
      ∧ t.cur.pendingAdd = s.cur.pendingAdd ∧ t.cur.outPending = s.cur.outPending ∧ t.cur.log = s.cur.log
      ∧ s.cur.KeepsControl t.cur ∧ s.KeepsWorld t
      ∧ (s.incoming s.node b = [] → t.cur.outstanding = s.cur.outstanding ∧ s.KeepsOthers t) := by
  have hsn : (s.settle b).node < (s.settle b).engines.length := by simpa using hn
  obtain ⟨x, y, hxy⟩ := hc ((s.settle b).cur.setBuf b m)
  have hcur : t.cur = (charge ((s.settle b).cur.setBuf b m)).complete s.draws := by rw [ht, State.cur_one _ hsn]
  have hset := s.cur_settle b
  generalize (s.settle b).cur.outstanding = o at hset
  rw [hset] at hxy hcur
  rw [hxy, Engine.complete_of_ne _ (by cases b <;> exact hp)] at hcur
  refine ⟨?_, ?_, ?_, ?_, ?_, ?_, ?_, ?_, ?_, ?_, ?_, ?_, fun hq => ?_⟩
  all_goals first | (rw [hcur]; cases b <;> rfl) | skip
  · rw [hcur]; cases b <;> exact ⟨rfl, rfl, rfl, rfl, rfl⟩
  · rw [hcur]; cases b <;> exact ⟨rfl, rfl, rfl⟩
  · rw [ht]; simp [State.KeepsWorld]
  · have he := State.settle_of_quiet hq
    rw [he] at ht
    refine ⟨?_, by rw [ht]; exact s.keepsOthers_one _⟩
    rw [ht, State.cur_one _ hn]
    obtain ⟨x, y, hxy⟩ := hc (s.cur.setBuf b m)
    rw [hxy, Engine.complete_outstanding]
    cases b <;> rfl

/-- Everything FFT and CORRECT leave beside the buffer they rewrite. -/
theorem State.rewrote_spec {s : State} (b : Buf) (m : Memory) (hn : s.node < s.engines.length) (hp : s.cur.pc ≠ 255#8) :
    (s.rewrote b m).cur.pc = s.cur.pc + 1 ∧ (s.rewrote b m).cur.stage = .begin ∧ (s.rewrote b m).cur.buf b = m
      ∧ (s.rewrote b m).cur.buf (other b) = s.cur.buf (other b) ∧ s.cur.KeepsTables (s.rewrote b m).cur
      ∧ (s.rewrote b m).cur.status = s.cur.status ∧ (s.rewrote b m).cur.rdv = s.cur.rdv
      ∧ (s.rewrote b m).cur.pendingAdd = s.cur.pendingAdd ∧ (s.rewrote b m).cur.outPending = s.cur.outPending
      ∧ (s.rewrote b m).cur.log = s.cur.log ∧ s.cur.KeepsControl (s.rewrote b m).cur ∧ s.KeepsWorld (s.rewrote b m)
      ∧ (s.incoming s.node b = [] →
          (s.rewrote b m).cur.outstanding = s.cur.outstanding ∧ s.KeepsOthers (s.rewrote b m)) :=
  settleThen_spec (charge := Engine.chargeComp s.draws) rfl (fun _ => ⟨_, _, rfl⟩) hn hp

theorem State.rewrote_commCycles {s : State} (b : Buf) (m : Memory) (hn : s.node < s.engines.length) :
    (s.rewrote b m).cur.commCycles = s.cur.commCycles := by
  have hsn : (s.settle b).node < (s.settle b).engines.length := by simpa using hn
  rw [State.rewrote, State.cur_one _ hsn, Engine.complete_commCycles, Engine.chargeComp_commCycles,
    Engine.setBuf_commCycles, s.cur_settle b]

/-- INGEST's effect in the same form: the buffer becomes the band of the input region. -/
theorem State.ingested_eq (b : Buf) (s : State) :
    s.ingested b = ((s.settle b).modCur fun e =>
      ((e.setBuf b ((s.cur.buf b).writeElems 0 (s.inBand s.cur.cfg))).chargeComm s.draws).complete s.draws).tick := by
  unfold State.ingested
  congr 1
  have hs := s.cur_settle b
  unfold State.modCur State.modEng
  congr 2
  have h1 : (s.settle b).eng (s.settle b).node = (s.settle b).cur := rfl
  rw [h1, hs]
  cases b <;> rfl

end Sys2Proof.Machine
end

