-- ==== Sys2Proof/Laws/PerInstr.lean ====
section
/-! SUPPORT. Per command, as syntax: the fields of the word the encoder writes (spec 30_encoding.md R100, R101, R105), one lemma per
constructor of Instr. -/

namespace Sys2Proof.Laws.EncodeFields

/-- Whether a command names a buffer. -/
def namesBuffer : Instr → Bool
  | .twgen | .brgen | .ctgen | .barrier | .next | .halt => false
  | .ingest _ | .transpose _ | .fft _ | .correct _ | .emit _ => true

/-- The word of a command has `z = 000`, an operation between 0x1 and 0xB, and `b = 1` only where the command names a buffer. -/
def Statement (i : Instr) : Prop :=
  CmdWord.z (encode i) = 0 ∧ 1 ≤ (CmdWord.op (encode i)).toNat ∧ (CmdWord.op (encode i)).toNat ≤ 11
    ∧ (CmdWord.b (encode i) = true → namesBuffer i = true)

theorem twgen : Statement .twgen := by unfold Statement; decide
theorem brgen : Statement .brgen := by unfold Statement; decide
theorem ctgen : Statement .ctgen := by unfold Statement; decide
theorem ingest (b : Buf) : Statement (.ingest b) := by cases b <;> unfold Statement <;> decide
theorem transpose (b : Buf) : Statement (.transpose b) := by cases b <;> unfold Statement <;> decide
theorem fft (b : Buf) : Statement (.fft b) := by cases b <;> unfold Statement <;> decide
theorem correct (b : Buf) : Statement (.correct b) := by cases b <;> unfold Statement <;> decide
theorem emit (b : Buf) : Statement (.emit b) := by cases b <;> unfold Statement <;> decide
theorem barrier : Statement .barrier := by unfold Statement; decide
theorem next : Statement .next := by unfold Statement; decide
theorem halt : Statement .halt := by unfold Statement; decide

end Sys2Proof.Laws.EncodeFields
end

