-- ==== Sys2Proof/Laws/Transpose.lean ====
section
/-! SUPPORT. Phases 1 and 2 of TRANSPOSE: where the quadrant goes, what is read, and what both buffers hold afterwards. -/

namespace Sys2Proof.Machine

theorem quadrant_nodup (c : NodeCfg) : (quadrant c).Nodup := by
  unfold quadrant
  rw [List.nodup_flatMap]
  refine ⟨fun r _ => List.Nodup.map (fun _ _ h => (Prod.ext_iff.1 h).2) List.nodup_range, ?_⟩
  refine List.Pairwise.imp ?_ (List.nodup_range (n := cfgTH c))
  intro a b hab
  simp [Function.onFun, List.disjoint_left, hab.symm]

/-- Two offsets `[x][P*TH + r]` of the destination's quadrant are equal for the same pair only. -/
theorem quadDst_inj {c : NodeCfg} (hw : c.wf = true) {p q : Nat × Nat} (hp : p ∈ quadrant c) (hq : q ∈ quadrant c)
    (h : quadDst c p = quadDst c q) : p = q := by
  have hP := (NodeCfg.wf_spec hw).2.2.2.2.2.2.2.2.1
  have a := NodeCfg.share_lt hw hP (mem_quadrant.1 hp).1
  have b := NodeCfg.share_lt hw hP (mem_quadrant.1 hq).1
  unfold quadDst elemOffset at h
  have h1 : p.2 = q.2 := by
    have := congrArg (· / cfgN c) h
    simpa [Nat.add_div_of_dvd_right (Dvd.intro_left _ rfl), Nat.div_eq_of_lt a, Nat.div_eq_of_lt b,
      Nat.mul_div_cancel _ (NodeCfg.n_pos hw)] using this
  rw [h1] at h
  exact Prod.ext (by omega) h1

/-- Where no write to the source is in flight, it is read as it is. -/
theorem State.srcRead_of_quiet {s : State} {b : Buf} (h : s.incoming s.node b = []) (e : Nat) :
    s.srcRead b e = (s.cur.buf b).readElem e := by
  unfold State.srcRead
  rw [h]
  cases (s.cur.buf b).readElem e <;> rfl

theorem Engine.sent_buf_other (n : Nat) (b : Buf) (quad : List Cplx) (t : Sent) (e : Engine) :
    (Engine.sent n b quad t e).buf (other b)
      = (e.buf (other b)).writeAll (((quadrant e.cfg).map (quadDst e.cfg)).zip quad) := by
  cases b <;> rfl

theorem Engine.sent_buf_source (n : Nat) (b : Buf) (quad : List Cplx) (t : Sent) (e : Engine) :
    (Engine.sent n b quad t e).buf b = (e.buf b).writeAll (freeQuadrant n e.cfg) := by
  cases b <;> rfl

/-- What phases 1 and 2 leave of the engine beside its buffers. -/
theorem Engine.sent_spec (n : Nat) (b : Buf) (quad : List Cplx) (t : Sent) (e : Engine) :
    (Engine.sent n b quad t e).cfg = e.cfg ∧ (Engine.sent n b quad t e).pc = e.pc
      ∧ (Engine.sent n b quad t e).stage = .transfers ∧ (Engine.sent n b quad t e).run = e.run
      ∧ (Engine.sent n b quad t e).iterLeft = e.iterLeft
      ∧ (Engine.sent n b quad t e).status = (if t.failed then setFlag e.status Flag.xferErr true else e.status)
      ∧ (Engine.sent n b quad t e).outstanding = e.outstanding ++ t.out
      ∧ (Engine.sent n b quad t e).log = e.log ++ t.events ∧ e.KeepsTables (Engine.sent n b quad t e)
      ∧ (Engine.sent n b quad t e).rdv = e.rdv ∧ (Engine.sent n b quad t e).pendingAdd = e.pendingAdd
      ∧ (Engine.sent n b quad t e).outPending = e.outPending
      ∧ (Engine.sent n b quad t e).commCycles = e.commCycles
      ∧ (Engine.sent n b quad t e).compCycles = e.compCycles := by
  cases b <;> exact ⟨rfl, rfl, rfl, rfl, rfl, rfl, rfl, rfl, ⟨rfl, rfl, rfl, rfl, rfl⟩, rfl, rfl, rfl, rfl, rfl⟩

/-- The transposed quadrant in the destination: element `(r, xc)` of the source's quadrant at `[xc][P*TH + r]`. -/
theorem readElem_transposed {c : NodeCfg} (hw : c.wf = true) {rd : Nat → Option Cplx} {quad : List Cplx} (m : Memory)
    (h : readAll rd ((quadrant c).map (quadSrc c)) = some quad) {p : Nat × Nat} (hp : p ∈ quadrant c) :
    (m.writeAll (((quadrant c).map (quadDst c)).zip quad)).readElem (quadDst c p) = rd (quadSrc c p) := by
  have hm := readAll_eq_some.1 h
  have hl : quad.length = (quadrant c).length := by have := congrArg List.length hm; simpa using this.symm
  obtain ⟨i, hi, hie⟩ := List.mem_iff_getElem.1 hp
  have hv : rd (quadSrc c p) = some quad[i] := by
    have := congrArg (fun l => l[i]?) hm
    simpa [hi, hie, hl] using this
  rw [hv]
  refine Memory.readElem_writeAll_of_mem _ ?_ ?_
  · rw [List.mem_iff_getElem]
    exact ⟨i, by simp [hi, hl], by simp [hie]⟩
  · rw [List.map_fst_zip (by simp [hl])]
    exact List.Nodup.map_on (fun p hp q hq h => quadDst_inj hw hp hq h) (quadrant_nodup _)

end Sys2Proof.Machine
end

