-- ==== Sys2Proof/Laws/Turns.lean ====
section
/-! SUPPORT. A step by whose turn it is, and what a command leaves of the control registers, the counter and the tables of the node that runs it. -/

namespace Sys2Proof.Machine

/-! ### Whose turn it is -/

/-- The state in which node `q`'s sequencer takes its turn. -/
def State.turnOf (s : State) (q : Nat) : State := { s with events := s.events.tail, node := q }

@[simp] theorem State.turnOf_eng (s : State) (q p : Nat) : (s.turnOf q).eng p = s.eng p := rfl
@[simp] theorem State.turnOf_cur (s : State) (q : Nat) : (s.turnOf q).cur = s.eng q := rfl
@[simp] theorem State.turnOf_params (s : State) (q : Nat) : (s.turnOf q).params = s.params := rfl
@[simp] theorem State.turnOf_engines (s : State) (q : Nat) : (s.turnOf q).engines = s.engines := rfl
@[simp] theorem State.turnOf_node (s : State) (q : Nat) : (s.turnOf q).node = q := rfl

/-- A state looks at the next turn, the engines, the arrival counts and the parameters for its legality. -/
@[simp] theorem State.turnOf_legal (s : State) (q : Nat) : (s.turnOf q).legal = s.legal := rfl

/-- A command the fetch finds is the one at `PC`. -/
theorem State.fetch_command {s : State} {i : Instr} (h : s.fetch = .command i) :
    s.cur.run = .running ∧ ∃ w, s.params.prog[s.cur.pc.toNat]? = some w ∧ decode w = .ok i := by
  unfold State.fetch at h
  split_ifs at h with hr hp
  refine ⟨hr, ?_⟩
  have hlt : s.cur.pc.toNat < s.params.prog.length := by omega
  rw [List.drop_eq_getElem_cons hlt] at h
  refine ⟨_, List.getElem?_eq_getElem hlt, ?_⟩
  simp only [decodeBytes] at h
  cases hd : decode s.params.prog[s.cur.pc.toNat] with
  | ok j => rw [hd] at h; simp_all
  | error e => rw [hd] at h; simp_all

/-- What a step can do, by whose turn it is: a node's sequencer runs the command at its `PC`, takes the fault of an illegal fetch or rests, or an
event of the world happens. -/
theorem step_turns {s t : State} (h : step s = .next t) :
    s.legal = true ∧
      ((∃ q i, s.runs q i ∧ exec i (s.turnOf q) = .next t)
        ∨ (∃ q, (s.eng q).run = .running ∧ t = (s.turnOf q).illegalFetch)
        ∨ (∃ q, t = s.turnOf q)
        ∨ ∃ e, s.events.head? = some e ∧ (∀ q, e ≠ .sequencer q)
          ∧ ({ s with events := s.events.tail } : State).perform e = .next t) := by
  have key : ∀ q, (s.events = [] ∧ s.node = q ∨ s.events.head? = some (.sequencer q)) → runSequencer (s.turnOf q) = .next t →
      ((∃ q i, s.runs q i ∧ exec i (s.turnOf q) = .next t)
        ∨ (∃ q, (s.eng q).run = .running ∧ t = (s.turnOf q).illegalFetch) ∨ ∃ q, t = s.turnOf q) := by
    intro q hq hr
    unfold runSequencer at hr
    split at hr
    · cases hr; exact .inr (.inr ⟨q, rfl⟩)
    · rename_i hf
      cases hr
      refine .inr (.inl ⟨q, ?_, rfl⟩)
      by_contra hc
      rw [State.fetch, if_neg (by exact hc)] at hf
      cases hf
    · rename_i i hf
      exact .inl ⟨q, i, ⟨hq, State.fetch_command hf⟩, hr⟩
  obtain ⟨hl, ⟨he, h⟩ | ⟨q, rest, he, h⟩ | ⟨e, rest, he, hne, h⟩⟩ := step_cases h
  · refine ⟨hl, ?_⟩
    have : s.turnOf s.node = s := by cases s; cases he; rfl
    rcases key s.node (.inl ⟨he, rfl⟩) (by rw [this]; exact h) with h | h | h
    exacts [.inl h, .inr (.inl h), .inr (.inr (.inl h))]
  · refine ⟨hl, ?_⟩
    rcases key q (.inr (by rw [he]; rfl)) (by unfold State.turnOf; rw [he]; exact h) with h | h | h
    exacts [.inl h, .inr (.inl h), .inr (.inr (.inl h))]
  · exact ⟨hl, .inr (.inr (.inr ⟨e, by rw [he]; rfl, hne, by rw [he]; exact h⟩))⟩

/-! ### What a command leaves of its own node -/

/-- The tables, their lengths and their valid bits are the same. -/
def Engine.SameTables (e e' : Engine) : Prop :=
  e.KeepsTables e' ∧ flagOf e'.status Flag.twValid = flagOf e.status Flag.twValid
    ∧ flagOf e'.status Flag.brValid = flagOf e.status Flag.brValid ∧ flagOf e'.status Flag.ctValid = flagOf e.status Flag.ctValid

/-- `PC` as before, or advanced by the end of a command. -/
def Engine.PcStep (e e' : Engine) : Prop := e'.pc = e.pc ∨ e'.stage = .begin ∧ e.pc ≠ 255#8 ∧ e'.pc = e.pc + 1

/-- The node's own part of a command that is neither a generator, nor NEXT, nor HALT. -/
structure Engine.Plain (e e' : Engine) : Prop where
  cfg : e'.cfg = e.cfg
  iterLeft : e'.iterLeft = e.iterLeft
  tables : e.SameTables e'
  pc : e.PcStep e'

theorem Engine.SameTables.refl (e : Engine) : e.SameTables e := ⟨⟨rfl, rfl, rfl, rfl, rfl⟩, rfl, rfl, rfl⟩

theorem Engine.Plain.refl (e : Engine) : e.Plain e := ⟨rfl, rfl, .refl e, .inl rfl⟩

/-- A fatal fault keeps the valid bits. -/
theorem Engine.flagOf_fatalEntry (c : FatalCause) (e : Engine) {i : Nat} (h : i = 3 ∨ i = 4 ∨ i = 5) :
    flagOf (e.fatalEntry c).status i = flagOf e.status i := by
  rw [Engine.fatalEntry_status, flagOf_setCode _ _ (by omega), flagOf_setFlag _ _ _ _ (by omega), if_neg]
  unfold Flag.fatal
  omega

theorem Engine.sameTables_fatalEntry (c : FatalCause) (e : Engine) : e.SameTables (e.fatalEntry c) :=
  ⟨⟨rfl, rfl, rfl, rfl, rfl⟩, e.flagOf_fatalEntry c (.inl rfl), e.flagOf_fatalEntry c (.inr (.inl rfl)),
    e.flagOf_fatalEntry c (.inr (.inr rfl))⟩

/-- The end of a command, from any engine that agrees with the one before on what matters. -/
theorem Engine.sameTables_complete (n : Nat) (e : Engine) : e.SameTables (e.complete n) := by
  unfold Engine.complete Engine.advance
  split
  · exact Engine.sameTables_fatalEntry .illegalCmd (e.leave n)
  · exact ⟨⟨rfl, rfl, rfl, rfl, rfl⟩, rfl, rfl, rfl⟩

theorem Engine.pcStep_complete (n : Nat) (e : Engine) : e.PcStep (e.complete n) := by
  by_cases h : e.pc = 255#8
  · exact .inl (by rw [Engine.complete_of_eq n h]; rfl)
  · exact .inr ⟨by simp, h, by rw [Engine.complete_of_ne n h]⟩

theorem Engine.plain_complete (n : Nat) (e : Engine) : e.Plain (e.complete n) :=
  ⟨by simp, by simp, e.sameTables_complete n, e.pcStep_complete n⟩

/-- A change of the fields a plain command may touch, followed by its end. -/
theorem Engine.Plain.of_eq {e e1 e' : Engine} (h : e1.Plain e') (hc : e1.cfg = e.cfg) (hi : e1.iterLeft = e.iterLeft)
    (ht : e.SameTables e1) (hp : e1.pc = e.pc) : e.Plain e' := by
  obtain ⟨⟨a1, a2, a3, a4, a5⟩, a6, a7, a8⟩ := ht
  obtain ⟨⟨b1, b2, b3, b4, b5⟩, b6, b7, b8⟩ := h.tables
  refine ⟨h.cfg.trans hc, h.iterLeft.trans hi, ⟨⟨b1.trans a1, b2.trans a2, b3.trans a3, b4.trans a4, b5.trans a5⟩, b6.trans a6,
    b7.trans a7, b8.trans a8⟩, ?_⟩
  rcases h.pc with h | ⟨h1, h2, h3⟩
  · exact .inl (h.trans hp)
  · exact .inr ⟨h1, by rw [← hp]; exact h2, by rw [← hp]; exact h3⟩

/-- The waits that end a command or do not hold: the fence, the barrier and the rendezvous. -/
theorem State.plain_done (s : State) (f : Engine → Engine) (hn : s.node < s.engines.length)
    (hf : s.cur.Plain ((f s.cur).complete s.draws)) : s.cur.Plain (s.modCur fun e => (f e).complete s.draws).tick.cur := by
  rw [State.cur_one _ hn]; exact hf

theorem State.plain_fenced (s : State) (hn : s.node < s.engines.length) : s.cur.Plain s.fenced.cur := by
  rcases s.fenced_cases with ⟨_, h⟩ | ⟨_, h⟩ <;> rw [h]
  · exact .refl _
  · exact s.plain_done _ hn ((Engine.plain_complete _ _).of_eq rfl rfl ⟨⟨rfl, rfl, rfl, rfl, rfl⟩, rfl, rfl, rfl⟩ rfl)

theorem State.plain_waitBarrier (s : State) (hn : s.node < s.engines.length) : s.cur.Plain s.waitBarrier.cur := by
  rcases s.waitBarrier_cases with ⟨_, h⟩ | ⟨_, h⟩ <;> rw [h]
  · exact .refl _
  · exact s.plain_done _ hn ((Engine.plain_complete _ _).of_eq rfl rfl ⟨⟨rfl, rfl, rfl, rfl, rfl⟩, rfl, rfl, rfl⟩ rfl)

theorem State.plain_pass (s : State) (hn : s.node < s.engines.length) : s.cur.Plain s.pass.cur := by
  rcases s.pass_cases with ⟨_, h⟩ | ⟨_, h⟩ <;> rw [h]
  · exact .refl _
  · exact s.plain_done _ hn ((Engine.plain_complete _ _).of_eq rfl rfl ⟨⟨rfl, rfl, rfl, rfl, rfl⟩, rfl, rfl, rfl⟩ rfl)

theorem State.plain_announce (s : State) (hn : s.node < s.engines.length) : s.cur.Plain s.announce.cur := by
  rcases s.announce_cases with ⟨_, h⟩ | ⟨_, h⟩ <;> rw [h]
  · exact .refl _
  · have h1 := (s.modCur Engine.announced).plain_pass (by simpa using hn)
    rw [s.cur_modCur _ hn] at h1
    exact h1.of_eq rfl rfl ⟨⟨rfl, rfl, rfl, rfl, rfl⟩, rfl, rfl, rfl⟩ rfl

/-- A command that replaces a buffer and completes. -/
theorem State.plain_settleThen (s : State) (b : Buf) (m : Engine → Memory) (charge : Engine → Engine)
    (hc : ∀ e : Engine, ∃ x y, charge e = { e with commCycles := x, compCycles := y }) (hn : s.node < s.engines.length) :
    s.cur.Plain ((s.settle b).modCur fun e => (charge (e.setBuf b (m e))).complete s.draws).tick.cur := by
  have hsn : (s.settle b).node < (s.settle b).engines.length := by simpa using hn
  rw [State.cur_one _ hsn, s.cur_settle b]
  obtain ⟨x, y, hxy⟩ := hc (Engine.setBuf { s.cur with outstanding := (s.settle b).cur.outstanding } b
    (m { s.cur with outstanding := (s.settle b).cur.outstanding }))
  rw [hxy]
  exact (Engine.plain_complete _ _).of_eq (by simp) (by simp) ⟨⟨by simp, by simp, by simp, by simp, by simp⟩, by simp, by simp, by simp⟩
    (by simp)

/-- `XFER_ERR` is no valid bit. -/
theorem Engine.flagOf_sent (n : Nat) (b : Buf) (quad : List Cplx) (t : Sent) (e : Engine) {i : Nat} (h : i = 3 ∨ i = 4 ∨ i = 5) :
    flagOf (Engine.sent n b quad t e).status i = flagOf e.status i := by
  rw [(Engine.sent_spec n b quad t e).2.2.2.2.2.1]
  split
  · rw [flagOf_setFlag _ _ _ _ (by omega), if_neg (by unfold Flag.xferErr; omega)]
  · rfl

/-- Every command but the generators, NEXT and HALT is plain for its node. -/
theorem exec_plain {i : Instr} {s t : State} (h : exec i s = .next t) (hn : s.node < s.engines.length)
    (hi : i ≠ .twgen ∧ i ≠ .brgen ∧ i ≠ .ctgen ∧ i ≠ .next ∧ i ≠ .halt) : s.cur.Plain t.cur := by
  cases i with
  | twgen => exact absurd rfl hi.1
  | brgen => exact absurd rfl hi.2.1
  | ctgen => exact absurd rfl hi.2.2.1
  | next => exact absurd rfl hi.2.2.2.1
  | halt => exact absurd rfl hi.2.2.2.2
  | ingest b =>
    rcases execIngest_cases h with ⟨_, rfl⟩ | ⟨_, rfl⟩ | ⟨_, _, rfl⟩
    · exact .refl _
    · exact s.plain_settleThen b _ (Engine.chargeComm s.draws) (fun _ => ⟨_, _, rfl⟩) hn
    · rw [s.cur_modCur _ hn]
      exact ⟨rfl, rfl, ⟨⟨rfl, rfl, rfl, rfl, rfl⟩, rfl, rfl, rfl⟩, .inl rfl⟩
  | transpose b =>
    rcases execTranspose_cases h with ⟨_, rfl⟩ | ⟨_, rfl⟩ | ⟨u, hu, rfl⟩
    · exact s.plain_announce hn
    · exact s.plain_pass hn
    · obtain ⟨quad, sent, _, _, rfl⟩ := State.send_cases hu
      have hc : State.cur { (s.modCur (Engine.sent s.draws b quad sent)).tick with answers := sent.answers }
          = Engine.sent s.draws b quad sent s.cur := s.cur_modCur _ hn
      have h1 := State.plain_announce { (s.modCur (Engine.sent s.draws b quad sent)).tick with answers := sent.answers }
        (by simpa using hn)
      rw [hc] at h1
      have hs := Engine.sent_spec s.draws b quad sent s.cur
      exact h1.of_eq hs.1 hs.2.2.2.2.1 ⟨hs.2.2.2.2.2.2.2.2.1, Engine.flagOf_sent _ _ _ _ _ (.inl rfl),
        Engine.flagOf_sent _ _ _ _ _ (.inr (.inl rfl)), Engine.flagOf_sent _ _ _ _ _ (.inr (.inr rfl))⟩ hs.2.1
  | fft b =>
    obtain ⟨m, _, rfl⟩ := execFft_cases h
    exact s.plain_settleThen b (fun _ => m) (Engine.chargeComp s.draws) (fun _ => ⟨_, _, rfl⟩) hn
  | correct b =>
    obtain ⟨m, _, rfl⟩ := execCorrect_cases h
    exact s.plain_settleThen b (fun _ => m) (Engine.chargeComp s.draws) (fun _ => ⟨_, _, rfl⟩) hn
  | emit b =>
    rcases execEmit_cases h with ⟨_, rfl⟩ | ⟨_, rfl⟩ | h
    · exact .refl _
    · exact s.plain_fenced hn
    · obtain ⟨vs, _, rfl⟩ := State.handOver_cases h
      rw [State.cur_one _ hn]
      exact ⟨rfl, rfl, ⟨⟨rfl, rfl, rfl, rfl, rfl⟩, rfl, rfl, rfl⟩, .inl rfl⟩
  | barrier =>
    rcases execBarrier_cases h with ⟨_, rfl⟩ | ⟨_, rfl⟩
    · exact s.plain_waitBarrier hn
    · have hc : s.arrive.cur = s.cur.atStage .barrier :=
        State.cur_modCur { s with arrivals := s.arrivals.set s.node (s.arrivalsOf s.node + 1) } _ hn
      have h1 := s.arrive.plain_waitBarrier (by simpa [State.arrive] using hn)
      rw [hc] at h1
      exact h1.of_eq rfl rfl ⟨⟨rfl, rfl, rfl, rfl, rfl⟩, rfl, rfl, rfl⟩ rfl

/-! ### What the generators leave -/

theorem Engine.SameTables.trans {e e1 e2 : Engine} (h : e.SameTables e1) (h' : e1.SameTables e2) : e.SameTables e2 := by
  obtain ⟨⟨a1, a2, a3, a4, a5⟩, a6, a7, a8⟩ := h
  obtain ⟨⟨b1, b2, b3, b4, b5⟩, b6, b7, b8⟩ := h'
  exact ⟨⟨b1.trans a1, b2.trans a2, b3.trans a3, b4.trans a4, b5.trans a5⟩, b6.trans a6, b7.trans a7, b8.trans a8⟩

theorem Engine.SameTables.of_eq {e e' : Engine}
    (h : (e'.tw, e'.twLen, e'.br, e'.brLen, e'.ct, e'.status) = (e.tw, e.twLen, e.br, e.brLen, e.ct, e.status)) : e.SameTables e' := by
  simp only [Prod.mk.injEq] at h
  obtain ⟨h1, h2, h3, h4, h5, h6⟩ := h
  exact ⟨⟨h1, h2, h3, h4, h5⟩, by rw [h6], by rw [h6], by rw [h6]⟩

theorem Engine.PcStep.of_eq {e e1 e' : Engine} (h : e1.PcStep e') (hp : e1.pc = e.pc) : e.PcStep e' := by
  unfold Engine.PcStep at *
  rwa [← hp]

/-- TWGEN leaves the other two tables. -/
theorem Engine.twgen_keeps (src : TrigSource) (n : Nat) (e : Engine) :
    (e.twgen src n).br = e.br ∧ (e.twgen src n).brLen = e.brLen ∧ (e.twgen src n).ct = e.ct
      ∧ flagOf (e.twgen src n).status Flag.brValid = flagOf e.status Flag.brValid
      ∧ flagOf (e.twgen src n).status Flag.ctValid = flagOf e.status Flag.ctValid
      ∧ e.PcStep (e.twgen src n) ∧ (e.twgen src n).iterLeft = e.iterLeft ∧ (e.twgen src n).cfg = e.cfg := by
  unfold Engine.twgen
  simp only
  split_ifs
  · refine ⟨rfl, rfl, rfl, ?_, ?_, .inl rfl, rfl, rfl⟩ <;> rw [Engine.flagOf_fatalEntry _ _ (by decide)]
      <;> simp [Engine.twClear, flagOf_setFlag, Flag.brValid, Flag.twValid, Flag.ctValid]
  · generalize hx : (({ (e.twClear.chargeComp n) with
        tw := (e.twClear.chargeComp n).tw.writeElems 0 ((twTable src (cfgN e.cfg) (cfgL e.cfg)).map TrigPair.toCplx)
        twLen := BitVec.ofNat 32 (twTable src (cfgN e.cfg) (cfgL e.cfg)).length } : Engine).flag Flag.twValid true) = x
    obtain ⟨⟨_, _, b3, b4, b5⟩, _, b7, b8⟩ := Engine.sameTables_complete n x
    subst hx
    refine ⟨b3, b4, b5, b7.trans ?_, b8.trans ?_, (Engine.pcStep_complete n _).of_eq rfl, by simp [Engine.twClear],
      by simp [Engine.twClear]⟩ <;> simp [Engine.twClear, flagOf_setFlag, Flag.brValid, Flag.twValid, Flag.ctValid]

/-- BRGEN leaves the other two tables. -/
theorem Engine.brgen_keeps (n : Nat) (e : Engine) :
    (e.brgen n).tw = e.tw ∧ (e.brgen n).twLen = e.twLen ∧ (e.brgen n).ct = e.ct
      ∧ flagOf (e.brgen n).status Flag.twValid = flagOf e.status Flag.twValid
      ∧ flagOf (e.brgen n).status Flag.ctValid = flagOf e.status Flag.ctValid
      ∧ e.PcStep (e.brgen n) ∧ (e.brgen n).iterLeft = e.iterLeft ∧ (e.brgen n).cfg = e.cfg := by
  unfold Engine.brgen
  simp only
  split_ifs
  · refine ⟨rfl, rfl, rfl, ?_, ?_, .inl rfl, rfl, rfl⟩ <;> rw [Engine.flagOf_fatalEntry _ _ (by decide)]
      <;> simp [Engine.brClear, flagOf_setFlag, Flag.brValid, Flag.twValid, Flag.ctValid]
  · refine ⟨rfl, rfl, rfl, ?_, ?_, .inl rfl, rfl, rfl⟩ <;> rw [Engine.flagOf_fatalEntry _ _ (by decide)]
      <;> simp [Engine.brClear, flagOf_setFlag, Flag.brValid, Flag.twValid, Flag.ctValid]
  · generalize hx : (({ (e.brClear.chargeComp n) with
        br := (e.brClear.chargeComp n).br.writeElems 0 ((brRun (cfgN e.cfg) e.work.gen.brK.toNat).pairs.map SwapPair.toCplx)
        brLen := BitVec.ofNat 32 (brRun (cfgN e.cfg) e.work.gen.brK.toNat).wp } : Engine).flag Flag.brValid true) = x
    obtain ⟨⟨b1, b2, _, _, b5⟩, b6, _, b8⟩ := Engine.sameTables_complete n x
    subst hx
    refine ⟨b1, b2, b5, b6.trans ?_, b8.trans ?_, (Engine.pcStep_complete n _).of_eq rfl, by simp [Engine.brClear],
      by simp [Engine.brClear]⟩ <;> simp [Engine.brClear, flagOf_setFlag, Flag.brValid, Flag.twValid, Flag.ctValid]

/-- CTGEN leaves the other two tables. -/
theorem Engine.ctgen_keeps (src : TrigSource) (n : Nat) (e : Engine) :
    (e.ctgen src n).tw = e.tw ∧ (e.ctgen src n).twLen = e.twLen ∧ (e.ctgen src n).br = e.br ∧ (e.ctgen src n).brLen = e.brLen
      ∧ flagOf (e.ctgen src n).status Flag.twValid = flagOf e.status Flag.twValid
      ∧ flagOf (e.ctgen src n).status Flag.brValid = flagOf e.status Flag.brValid
      ∧ e.PcStep (e.ctgen src n) ∧ (e.ctgen src n).iterLeft = e.iterLeft ∧ (e.ctgen src n).cfg = e.cfg := by
  unfold Engine.ctgen
  simp only
  split_ifs
  · refine ⟨rfl, rfl, rfl, rfl, ?_, ?_, .inl rfl, rfl, rfl⟩ <;> rw [Engine.flagOf_fatalEntry _ _ (by decide)]
      <;> simp [flagOf_setFlag, Flag.brValid, Flag.twValid, Flag.ctValid]
  · generalize hx : (({ ((e.flag Flag.ctValid false).chargeComp n) with
        ct := ((e.flag Flag.ctValid false).chargeComp n).ct.writeElems 0 ((ctTable src e.cfg).map TrigPair.toCplx) } : Engine).flag
        Flag.ctValid true) = x
    obtain ⟨⟨b1, b2, b3, b4, _⟩, b6, b7, _⟩ := Engine.sameTables_complete n x
    subst hx
    refine ⟨b1, b2, b3, b4, b6.trans ?_, b7.trans ?_, (Engine.pcStep_complete n _).of_eq rfl, by simp, by simp⟩
      <;> simp [flagOf_setFlag, Flag.brValid, Flag.twValid, Flag.ctValid]

/-! ### What the world leaves -/

/-- A node with a command to run exists. -/
theorem State.lt_of_runs {s : State} {q : Nat} {i : Instr} (h : s.runs q i) : q < s.engines.length := by
  by_contra hc
  have := h.2.1
  rw [s.eng_of_le (by omega)] at this
  cases this

/-- What no agent and no answer of the fabric changes in an engine: `g` of every node is as before any event that is no sequencer's turn, no start
and no reset. -/
theorem State.perform_keeps {α : Type} (g : Engine → α) {s t : State} {e : Event} (q : Nat) (hne : ∀ p, e ≠ .sequencer p)
    (hr : e ≠ .reset) (hs : ∀ p, e ≠ .start p) (hp : s.perform e = .next t)
    (h1 : ∀ (e : Engine) b off h v, g (e.peerWrite b off h v) = g e) (h2 : ∀ (e : Engine) i w, g (e.performed i w) = g e)
    (h3 : ∀ e : Engine, g e.answered = g e) (h4 : ∀ (e : Engine) l, g { e with outPending := l } = g e)
    (h5 : ∀ (e : Engine) l, g { e with pendingAdd := l } = g e) (h6 : ∀ e : Engine, g e.cntAdd = g e) : g (t.eng q) = g (s.eng q) := by
  cases e with
  | sequencer q => exact absurd rfl (hne q)
  | reset => exact absurd rfl hr
  | start p => exact absurd rfl (hs p)
  | answer p => cases hp; exact State.eng_modEng_keeps _ p q _ g h3
  | deliver p i x k =>
    rcases State.deliver_cases hp with rfl | ⟨tr, _, _, _, _, rfl⟩
    · rfl
    · rw [State.eng_modEng_keeps _ _ _ _ g (fun e => h2 _ _ _), State.eng_modEng_keeps _ _ _ _ g (fun e => h1 _ _ _ _ _)]
  | outWrite p i =>
    rcases State.performOut_cases hp with rfl | ⟨w, _, _, rfl⟩
    · rfl
    · rw [State.eng_modEng_keeps _ _ _ _ g (fun e => h4 _ _)]
      rfl
  | add p i =>
    rcases State.performAdd_cases hp with rfl | ⟨q', _, _, rfl⟩
    · rfl
    · rw [State.eng_modEng_keeps _ _ _ _ g (fun e => h5 _ _), State.eng_modEng_keeps _ _ _ _ g (fun e => h6 _)]

end Sys2Proof.Machine
end

