-- ==== Sys2Proof/Tests/Slice0.lean ====
section
/-! SUPPORT. The model's own tests: ill-formed configurations refused, words decoded, one or two steps per command against the vectors of spec
95_test_vectors.md, and for every statement with hypotheses a state and operands that meet them. -/

namespace Sys2Proof.Machine.Tests

set_option Elab.async false

/-! ### Small states -/

/-- Node `q` of `nb`, side `n`, two cores, one iteration, roomy tables. -/
def cfg (nb n q : Nat) : NodeCfg where
  nodeId := BitVec.ofNat 4 q
  nbWorkers := BitVec.ofNat 5 nb
  nbCores := 2
  tile := BitVec.ofNat 32 n
  width := BitVec.ofNat 32 n
  height := BitVec.ofNat 32 n
  nIter := 1
  twCap := 12
  brCap := 8
  ctCap := 8
  bufAlign := 8

/-- An engine that runs, at the beginning of a command, started. -/
def running (c : NodeCfg) : Engine := { Engine.reset c with run := .running, iterLeft := 1, status := 0x40#32 }

/-- A system of `nb` running nodes, each changed by `f`. -/
def sys (nb n : Nat) (f : Engine → Engine) : State :=
  { State.reset with
    engines := (List.range nb).map fun q => f (running (cfg nb n q))
    arrivals := List.replicate nb 0 }

/-- The same system with a program. -/
def withProg (s : State) (p : List CmdWord) : State := { s with params := { s.params with prog := p } }

/-- Elements from pairs of patterns. -/
def vals (l : List (F32 × F32)) : List Cplx := l.map fun p => { x := p.1, y := p.2 }

/-- A memory holding elements from unit 0 on. -/
def mem (l : List (F32 × F32)) : Memory := Memory.writeElems [] 0 (vals l)

/-- The natural numbers 0 to 15 as binary32 patterns. -/
def nat16 : List F32 :=
  [0x00000000#32, 0x3F800000#32, 0x40000000#32, 0x40400000#32, 0x40800000#32, 0x40A00000#32, 0x40C00000#32, 0x40E00000#32]
    ++ [0x41000000#32, 0x41100000#32, 0x41200000#32, 0x41300000#32, 0x41400000#32, 0x41500000#32, 0x41600000#32, 0x41700000#32]

/-- The values 0 to 15, imaginary parts +0. -/
def ramp : List (F32 × F32) := nat16.map fun v => (v, 0)

/-- The next state of an outcome. -/
def nextOf (o : Host.Outcome State Fault Refusal) : Option State :=
  match o with
  | .next t => some t
  | .fault _ => none
  | .refused _ => none

theorem next_of_isSome {o : Host.Outcome State Fault Refusal} (h : (nextOf o).isSome = true) : ∃ t, o = .next t := by
  cases o with
  | next t => exact ⟨t, rfl⟩
  | fault f => cases h
  | refused r => cases h

/-- The fault of an outcome. -/
def faultOf (o : Host.Outcome State Fault Refusal) : Option Fault :=
  match o with
  | .fault f => some f
  | .next _ => none
  | .refused _ => none

/-- What a test looks at after a step. -/
def after {α : Type} (o : Host.Outcome State Fault Refusal) (f : State → α) : Option α := (nextOf o).map f

/-! ### Well-formedness: one ill-formed term per check (00_scope.md R13, 30_encoding.md R111) -/

theorem test_wf_ok : (cfg 2 4 1).wf = true := by decide +kernel
theorem test_wf_nbWorkers : ({ cfg 2 4 1 with nbWorkers := 3 } : NodeCfg).wf = false := by decide +kernel
theorem test_wf_no_core : ({ cfg 2 4 1 with nbCores := 0 } : NodeCfg).wf = false := by decide +kernel
theorem test_wf_many_cores : ({ cfg 2 4 1 with nbCores := 17 } : NodeCfg).wf = false := by decide +kernel
theorem test_wf_tile_no_power : (cfg 2 6 1).wf = false := by decide +kernel
theorem test_wf_tile_below_nb : (cfg 8 4 1).wf = false := by decide +kernel
theorem test_wf_tile_too_large : (cfg 2 65536 1).wf = false := by decide +kernel
theorem test_wf_width : ({ cfg 2 4 1 with width := 8 } : NodeCfg).wf = false := by decide +kernel
theorem test_wf_height : ({ cfg 2 4 1 with height := 8 } : NodeCfg).wf = false := by decide +kernel
theorem test_wf_nodeId : (cfg 2 4 2).wf = false := by decide +kernel
theorem test_wf_nIter : ({ cfg 2 4 1 with nIter := 0 } : NodeCfg).wf = false := by decide +kernel
theorem test_wf_program : Program.wf (List.replicate 257 0x10#8) = false := by decide +kernel
theorem test_legal_node_order :
    State.legal { sys 2 4 id with engines := [running (cfg 2 4 1), running (cfg 2 4 0)] } = false := by decide +kernel
theorem test_legal_count : State.legal { sys 2 4 id with engines := [running (cfg 2 4 0)] } = false := by decide +kernel

/-! ### Decoding (95_test_vectors.md 3.10; each word written out field by field: `op`, `b`, `z`) -/

theorem test_decode_tables :
    decode (0b0001#4 ++ (0b0#1 ++ 0b000#3)) = .ok .twgen ∧ decode (0b0010#4 ++ (0b0#1 ++ 0b000#3)) = .ok .brgen
      ∧ decode (0b0011#4 ++ (0b0#1 ++ 0b000#3)) = .ok .ctgen := by decide
theorem test_decode_compute :
    decode (0b0110#4 ++ (0b1#1 ++ 0b000#3)) = .ok (.fft .B) ∧ decode (0b0111#4 ++ (0b0#1 ++ 0b000#3)) = .ok (.correct .A) := by
  decide
theorem test_decode_movement :
    decode (0b0100#4 ++ (0b0#1 ++ 0b000#3)) = .ok (.ingest .A) ∧ decode (0b0101#4 ++ (0b1#1 ++ 0b000#3)) = .ok (.transpose .B)
      ∧ decode (0b1000#4 ++ (0b1#1 ++ 0b000#3)) = .ok (.emit .B) := by decide
theorem test_decode_control :
    decode (0b1001#4 ++ (0b0#1 ++ 0b000#3)) = .ok .barrier ∧ decode (0b1010#4 ++ (0b0#1 ++ 0b000#3)) = .ok .next
      ∧ decode (0b1011#4 ++ (0b0#1 ++ 0b000#3)) = .ok .halt := by decide
theorem test_decode_reserved_op :
    decode 0x00#8 = .error .reservedOp ∧ decode 0x08#8 = .error .reservedOp ∧ decode 0xC0#8 = .error .reservedOp
      ∧ decode 0xE8#8 = .error .reservedOp := by decide
theorem test_decode_buffer_bit :
    decode 0x18#8 = .error .bufferBitSet ∧ decode 0x98#8 = .error .bufferBitSet ∧ decode 0xB8#8 = .error .bufferBitSet := by
  decide
theorem test_decode_z :
    decode 0x41#8 = .error .nonzeroZ ∧ decode 0x52#8 = .error .nonzeroZ ∧ decode 0x6C#8 = .error .nonzeroZ
      ∧ decode 0xFF#8 = .error .nonzeroZ := by decide
theorem test_table_word : decodeTableWord 8 0x58 = some (.transpose .B) ∧ decodeTableWord 8 0xC0 = none := by decide
theorem test_fetch_placed : nextOf (step (State.reset.withFetchWord 8 0xB0)) = nextOf (exec .halt (State.reset.placed 0xB0#8)) := by
  rfl

/-! ### Table generation (3.1 to 3.3, 3.11) -/

/-- 3.1, `N = 8`: the last stage and the position law. -/
theorem test_twgen_eight :
    after (exec .twgen (sys 1 8 id)) (fun t => (t.cur.tw.readElems 7 5, t.cur.twLen, t.cur.status, t.cur.pc))
      = some (some (vals [(0x00000000, 0xBF800000), (0x3F800000, 0x80000000), (0x3F3504F3, 0xBF3504F3),
          (0x00000000, 0xBF800000), (0xBF3504F3, 0xBF3504F3)]), 12, 0x48, 1) := by decide +kernel
/-- X1: too small a table. -/
theorem test_twgen_alloc_fail :
    after (exec .twgen (sys 1 4 fun e => { e with cfg := { e.cfg with twCap := 3 } }))
        (fun t => (t.cur.tw, t.cur.run, t.cur.status, t.cur.pc)) = some ([], .fatal, 0x142, 0) := by decide +kernel
/-- 3.2, `N = 8`: `(1,4) (3,6)`. -/
theorem test_brgen_eight :
    after (exec .brgen (sys 1 8 id)) (fun t => (t.cur.br.readElems 0 2, t.cur.brLen, t.cur.status))
      = some (some (vals [(1, 4), (3, 6)]), 2, 0x50) := by decide +kernel
/-- X2: too small a table. -/
theorem test_brgen_alloc_fail :
    after (exec .brgen (sys 1 4 fun e => { e with cfg := { e.cfg with brCap := 3 }, pc := 1, status := 0x48 }))
        (fun t => (t.cur.br, t.cur.run, t.cur.status, t.cur.pc)) = some ([], .fatal, 0x14A, 1) := by decide +kernel
/-- 3.3, `N = 4`, node 1 of 2: `TRIG(2,16), TRIG(3,16)`. -/
theorem test_ctgen_node_one :
    after (exec .ctgen { sys 2 4 id with node := 1 }) (fun t => (t.cur.ct.readElems 0 2, t.cur.status))
      = some (some (vals [(0x3F3504F3, 0xBF3504F3), (0x3EC3EF15, 0xBF6C835E)]), 0x60) := by decide +kernel
/-- X3: too small a table on node 1. -/
theorem test_ctgen_alloc_fail :
    after (exec .ctgen { sys 2 4 fun e => { e with cfg := { e.cfg with ctCap := 1 }, pc := 2, status := 0x58 } with node := 1 })
        (fun t => (t.cur.run, t.cur.status, t.cur.pc, (t.eng 0).run)) = some (.fatal, 0x15A, 2, .running) := by decide +kernel
/-- 3.2: the sizes. -/
theorem test_brgen_sizes : ([2, 4, 16, 32].map fun n => (brRun n 0).pairs.length) = [0, 1, 6, 12] := by decide +kernel

/-! ### The FFT kernel (3.4 to 3.6) -/

/-- 3.4: ten rows on four cores. -/
theorem test_rows_ten_four :
    ((List.range 4).map fun c => (coreStart 10 4 c, coreCount 10 4 c)) = [(0, 3), (3, 3), (6, 2), (8, 2)] := by decide +kernel

/-- One butterfly of given elements and pair. -/
def bflyOf (u v : F32 × F32) (x : TrigPair) : Cplx × Cplx :=
  combine .ieee754 default x { x := u.1, y := u.2 } { x := v.1, y := v.2 }

/-- B2: a quarter turn. -/
theorem test_bfly_quarter :
    bflyOf (0x3F800000, 0x40000000) (0x40400000, 0x40800000) { c := 0x00000000, ns := 0xBF800000 }
      = ({ x := 0x40A00000, y := 0xBF800000 }, { x := 0xC0400000, y := 0x40A00000 }) := by decide +kernel
/-- B5: signs of zero. -/
theorem test_bfly_zeros :
    bflyOf (0x80000000, 0x80000000) (0x80000000, 0x80000000) { c := 0x3F800000, ns := 0x80000000 }
      = ({ x := 0x80000000, y := 0x00000000 }, { x := 0x00000000, y := 0x80000000 }) := by decide +kernel
/-- B6: an infinity and some NaN. -/
theorem test_bfly_nan :
    let r := bflyOf (0x3F800000, 0x3F800000) (0x7F800000, 0x00000000) { c := 0x3F800000, ns := 0x80000000 }
    r.1.x = 0x7F800000 ∧ r.2.x = 0xFF800000 := by decide +kernel
/-- B9 and B10: a tie to even, subnormals kept. -/
theorem test_bfly_rounding :
    bflyOf (0x3F800000, 0) (0x33800000, 0) { c := 0x3F800000, ns := 0x80000000 }
        = ({ x := 0x3F800000, y := 0 }, { x := 0x3F7FFFFF, y := 0 })
      ∧ bflyOf (0x00000001, 0) (0x00000001, 0) { c := 0x3F3504F3, ns := 0xBF3504F3 }
        = ({ x := 0x00000002, y := 0x80000001 }, { x := 0x00000000, y := 0x00000001 }) := by decide +kernel

/-- The tables of `N = 4` (3.1, 3.2) on an engine. -/
def tables4 (e : Engine) : Engine :=
  { e with
    tw := mem [(0x3F800000, 0x80000000), (0x3F800000, 0x80000000), (0x3F800000, 0x80000000), (0x00000000, 0xBF800000)]
    twLen := 4, br := mem [(1, 2)], brLen := 1, status := 0x58 }

/-- F3 and F4 on node 0 of 2. -/
theorem test_fft_rows :
    after (exec (.fft .A) (sys 2 4 fun e => { tables4 e with
        bufA := mem [(0x3F800000, 0), (0, 0), (0, 0), (0, 0), (0, 0), (0x3F800000, 0), (0x40000000, 0), (0x40400000, 0)] }))
        (fun t => (t.cur.bufA.readElems 0 8, t.cur.pc))
      = some (some (vals [(0x3F800000, 0), (0x3F800000, 0), (0x3F800000, 0), (0x3F800000, 0), (0x40C00000, 0),
          (0xC0000000, 0x40000000), (0xC0000000, 0), (0xC0000000, 0xC0000000)]), 1) := by decide +kernel
/-- X7: FFT with nothing built. -/
theorem test_fft_unwritten : faultOf (exec (.fft .B) (sys 1 4 id)) = some .unwrittenRead := by decide +kernel

/-! ### The phase-correction stage (3.7) -/

/-- C2 and C5. -/
theorem test_rot :
    rot .ieee754 default { x := 0x80000000, y := 0x80000000 } { x := 0x3F800000, y := 0 } = { x := 0, y := 0x80000000 }
      ∧ rot .ieee754 default { x := 0x3F800000, y := 0x3F800000 } { x := 0x3F6C835E, y := 0xBEC3EF15 }
        = { x := 0x3FA73D74, y := 0x3F0A8BD4 } := by decide +kernel
/-- The table of 3.7: both rows of node 1. -/
theorem test_correct_rows :
    after (exec (.correct .A) { sys 2 4 fun e => { e with
        ct := mem [(0x3F3504F3, 0xBF3504F3), (0x3EC3EF15, 0xBF6C835E)], status := 0x60
        bufA := mem [(0x3F800000, 0), (0x3F800000, 0), (0x3F800000, 0), (0x3F800000, 0), (0, 0x3F800000),
          (0x40000000, 0), (0xBF800000, 0xBF800000), (0x3F000000, 0x3E800000)] } with node := 1 })
        (fun t => t.cur.bufA.readElems 0 8)
      = some (some (vals [(0x3F800000, 0), (0x3F3504F3, 0xBF3504F3), (0x00000000, 0xBF7FFFFF), (0xBF3504F2, 0xBF3504F2),
          (0, 0x3F800000), (0x3F43EF15, 0xBFEC835E), (0x00000000, 0x3FB504F3), (0xBF0EBF92, 0xBD225128)])) := by
  decide +kernel

/-! ### INGEST and EMIT (programs 1 and 2) -/

/-- Program 2: node 1 of 2 reads bytes 64 to 127. -/
theorem test_ingest_band :
    after (exec (.ingest .A) { sys 2 4 (Engine.atStage .read) with node := 1, inRegion := mem ramp })
        (fun t => (t.cur.bufA.readElems 0 8, t.cur.bufB, t.cur.pc)) = some (some (vals (ramp.drop 8)), [], 1) := by decide +kernel
/-- R202, R233: the read is posted, and the node waits until the fabric answers. -/
theorem test_ingest_waits :
    after (exec (.ingest .A) (sys 2 4 id)) (fun t => (t.cur.stage, t.cur.pc, t.cur.bufA)) = some (.reading, 0, [])
      ∧ after (step { sys 2 4 (Engine.atStage .reading) with events := [.answer 0] }) (fun t => (t.cur.stage, (t.eng 1).stage))
        = some (.read, .reading) := by decide +kernel
/-- Program 1: bytes of row 1. -/
theorem test_ingest_bytes :
    (mem ramp).read 10 = some 0x80 ∧ (mem ramp).read 11 = some 0x3F ∧ (mem ramp).read 12 = some 0x00 := by decide +kernel
/-- EMIT hands the 64 bytes of the band over, those of 15 (0x41700000) last, and waits for the fabric to take them. -/
theorem test_emit_hands_over :
    after (exec (.emit .B) { sys 2 4 fun e => { e with bufB := mem (ramp.take 8) } with node := 1 })
        (fun t => (t.cur.stage, t.cur.pc, t.cur.outPending.map OutWrite.off)) = some (.writing, 0, List.range' 64 64) := by
  decide +kernel
theorem test_emit_bytes :
    after (exec (.emit .B) { sys 2 4 fun e => { e with bufB := mem (ramp.drop 8) } with node := 1 })
        (fun t => (t.cur.outPending.drop 56).map OutWrite.val) = some [0, 0, 0x70, 0x41, 0, 0, 0, 0] := by decide +kernel
/-- With nothing pending the fence returns. -/
theorem test_emit_fence :
    after (exec (.emit .B) (sys 1 4 fun e => { e with stage := .fence })) (fun t => (t.cur.stage, t.cur.pc))
      = some (.begin, 1) := by decide +kernel

/-! ### BARRIER, NEXT, HALT (X8 to X10) -/

/-- X9: node 0 waits. -/
theorem test_barrier_waits :
    after (exec .barrier (sys 2 4 id)) (fun t => (t.cur.stage, t.cur.pc, t.arrivals)) = some (.barrier, 0, [1, 0]) := by
  decide +kernel
/-- X10: one participant. -/
theorem test_barrier_alone :
    after (exec .barrier (sys 1 4 id)) (fun t => (t.cur.stage, t.cur.pc, t.arrivals)) = some (.begin, 1, [1]) := by
  decide +kernel
/-- X8: the last iteration. -/
theorem test_next_last : after (exec .next (sys 1 4 id)) (fun t => (t.cur.iterLeft, t.cur.pc)) = some (0, 1) := by
  decide +kernel
/-- R207: back to `ITER_ENTRY`. -/
theorem test_next_loops :
    after (exec .next (sys 1 4 fun e => { e with iterLeft := 3, pc := 13 })) (fun t => (t.cur.iterLeft, t.cur.pc))
      = some (2, 4) := by decide +kernel
/-- X8: `STATUS = 0x00000041`, `PC` stays. -/
theorem test_halt :
    after (exec .halt (sys 1 4 fun e => { e with pc := 2 })) (fun t => (t.cur.run, t.cur.pc, t.cur.status))
      = some (.done, 2, 0x41) := by decide +kernel

/-! ### The transpose/exchange engine (3.8, 3.9) -/

/-- T1: `NB = 1`, `N = 2`. -/
theorem test_transpose_local :
    after (exec (.transpose .A) (sys 1 2 fun e => { e with bufA := mem (ramp.take 4) }))
        (fun t => (t.cur.bufB.readElems 0 4, t.cur.outstanding, t.cur.stage, t.cur.pendingAdd))
      = some (some (vals [(0x00000000, 0), (0x40000000, 0), (0x3F800000, 0), (0x40400000, 0)]), [], .rendezvous, [0]) := by
  decide +kernel
/-- T2 with the enqueue of `XFER(0,1,1)` failing: node 0. -/
theorem test_transpose_refused :
    after (exec (.transpose .A) { sys 2 4 fun e => { e with bufA := mem (ramp.take 8) } with answers := [true, false] })
        (fun t => (t.cur.outstanding, t.cur.log, t.cur.status))
      = some ([{
            desc :=
              { srcNode := 0, dstNode := 1, srcBuf := .A, dstBuf := .B, srcOff := 2, srcStride := 1, dstOff := 0,
                dstStride := 4, count := 2 }
            values := vals [(0x40000000, 0), (0x40400000, 0)], pending := [(0, .x), (0, .y), (1, .x), (1, .y)] }],
          [{ kind := .xferEnqFail, node := 0, dstNode := 1, srcRow := 1 }], 0x44) := by decide +kernel

/-- The transfer `XFER(0,1,0)` of T2. -/
def t2 : Transfer where
  desc := xferDesc (cfg 2 4 0) .A 1 0
  values := vals [(0x40000000, 0), (0x40400000, 0)]
  pending := allHalves 2

/-- The same with one half of an element left. -/
def t2last : Transfer := { t2 with pending := [(1, .x)] }

/-- R33, R177: stalled in phase 3, node 0's last peer is 1; stalled in phase 5, the last increment went to node 1. -/
theorem test_transpose_regs :
    after (exec (.transpose .A) { sys 2 4 fun e => { e with bufA := mem (ramp.take 8) } with answers := [true, true] })
        (fun t => (t.cur.stage, t.cur.work.xpose.q)) = some (.transfers, 1)
      ∧ after (exec (.transpose .A) (sys 2 4 (Engine.atStage .transfers)))
        (fun t => (t.cur.stage, t.cur.work.xpose.q)) = some (.rendezvous, 1) := by decide +kernel

/-- T2: the second element of `XFER(0,1,0)` reaches `D_1[1][0]`, its imaginary half written before. -/
theorem test_deliver :
    after (step { sys 2 4 fun e =>
          if e.cfg.nodeId = 0 then { e with outstanding := [t2last] } else { e with bufB := Memory.writeHalf [] 4 .y 0 } with
        events := [.deliver 0 0 1 .x] }) (fun t => ((t.eng 1).bufB.readElem 4, (t.eng 0).outstanding))
      = some (some { x := 0x40400000, y := 0 }, []) := by decide +kernel
/-- 3.9 step 5: node 0's call 2 makes `RDV_1 = 3`. -/
theorem test_add :
    after (step { sys 2 4 fun e => { e with rdv := 2, pendingAdd := [1] } with events := [.add 0 0] })
        (fun t => ((t.eng 0).rdv, (t.eng 1).rdv, (t.eng 0).pendingAdd)) = some (2, 3, []) := by decide +kernel
/-- 3.9 step 6: `3 ≥ 2`, subtract 2. -/
theorem test_rendezvous :
    after (exec (.transpose .A) (sys 2 4 fun e => { e with rdv := 3, stage := .rendezvous }))
        (fun t => (t.cur.rdv, t.cur.pc, t.cur.stage)) = some (1, 1, .begin) := by decide +kernel

/-! ### States that meet the hypotheses of the statements -/

/-- Two running nodes in the middle of a program, the tables of `N = 4` built, both buffers of each holding values. -/
def full : State :=
  sys 2 4 fun e => { tables4 e with bufA := mem (ramp.take 8), bufB := mem (ramp.drop 8), pc := 5, status := 0x78,
                                    ct := mem [(0x3F800000, 0x80000000), (0x3F6C835E, 0xBEC3EF15)] }

/-- The same with node 0's transfer `XFER(0,1,0)` in flight. -/
def flying : State := { full with engines := full.engines.modify 0 fun e => { e with outstanding := [t2] } }

/-- The same with the transfer's last element left. -/
def landing : State := { full with engines := full.engines.modify 0 fun e => { e with outstanding := [t2last] } }

/-- Two running nodes changed alike, from the full state. -/
def fullBut (f : Engine → Engine) : State := { full with engines := full.engines.map f }

theorem test_meets_decodeOfEncode :
    (Instr.emit .B).wf = true := rfl

theorem test_meets_stepRuns :
    full.legal = true ∧ full.events = [] ∧ full.cur.run = .running
      ∧ full.params.prog[full.cur.pc.toNat]? = some 0x50#8 ∧ decode 0x50#8 = .ok (.transpose .A) := by decide +kernel

theorem test_meets_stepRuns_event :
    let s : State := { full with events := [.sequencer 1, .add 0 0] }
    s.legal = true ∧ s.events = [.sequencer 1, .add 0 0] ∧ (s.eng 1).run = .running
      ∧ s.params.prog[(s.eng 1).pc.toNat]? = some 0x50#8 ∧ decode 0x50#8 = .ok (.transpose .A) := by decide +kernel

theorem test_meets_illegalFetch_end :
    let s : State := withProg full (List.replicate 5 0x10#8)
    s.legal = true ∧ s.node < s.engines.length ∧ s.events = [] ∧ s.cur.run = .running
      ∧ s.params.prog.length ≤ s.cur.pc.toNat := by decide +kernel

theorem test_meets_illegalFetch_word :
    let s : State := withProg full (List.replicate 6 0x18#8)
    s.legal = true ∧ s.node < s.engines.length ∧ s.events = [] ∧ s.cur.run = .running
      ∧ s.params.prog[s.cur.pc.toNat]? = some 0x18#8 ∧ illegalWord 0x18#8 = true := by decide +kernel

theorem test_meets_rests :
    State.reset.legal = true ∧ State.reset.events = [] ∧ State.reset.cur.run ≠ .running := by decide +kernel

theorem test_meets_illegalConfiguration :
    (sys 2 6 id).legal = false := by decide +kernel

theorem test_meets_start :
    let s : State := { State.reset with events := [.start 1] }
    s.legal = true ∧ 1 < s.engines.length ∧ s.events = [.start 1] ∧ (s.eng 1).run = .idle := by decide +kernel

theorem test_meets_start_ignored :
    let s : State := { full with events := [.start 1] }
    s.legal = true ∧ 1 < s.engines.length ∧ s.events = [.start 1] ∧ (s.eng 1).run ≠ .idle := by decide +kernel

theorem test_meets_hostReset :
    let s : State := { State.reset with events := [.reset] }
    s.legal = true ∧ s.events = [.reset] ∧ s.resettable = true := by decide +kernel

theorem test_meets_hostReset_refused :
    let s : State := { flying with events := [.reset] }
    s.legal = true ∧ s.events = [.reset] ∧ 0 < s.engines.length ∧ (s.eng 0).outstanding ≠ [] := by decide +kernel

theorem test_meets_twgen :
    (sys 2 4 id).ready ∧ twNeed (sys 2 4 id).cur.cfg ≤ (sys 2 4 id).cur.cfg.twCap := by unfold State.ready State.readyAt; decide +kernel

theorem test_meets_twgen_exact :
    (sys 1 8 id).ready ∧ twNeed (sys 1 8 id).cur.cfg = (sys 1 8 id).cur.cfg.twCap
      ∧ 1 ≤ 3 ∧ 3 ≤ cfgL (sys 1 8 id).cur.cfg ∧ 0 < cfgN (sys 1 8 id).cur.cfg / 2 ^ 3 ∧ 3 < 2 ^ 3 / 2 := by unfold State.ready State.readyAt; decide +kernel

theorem test_meets_smallTable_twgen :
    (sys 1 16 id).legal = true ∧ (sys 1 16 id).node < (sys 1 16 id).engines.length ∧ (sys 1 16 id).cur.run = .running
      ∧ (sys 1 16 id).cur.cfg.twCap < cfgN (sys 1 16 id).cur.cfg / 2 * cfgL (sys 1 16 id).cur.cfg := by decide +kernel

theorem test_meets_smallTable_brgen :
    (sys 1 16 id).legal = true ∧ (sys 1 16 id).node < (sys 1 16 id).engines.length ∧ (sys 1 16 id).cur.run = .running
      ∧ (sys 1 16 id).cur.cfg.brCap < cfgN (sys 1 16 id).cur.cfg := by decide +kernel

theorem test_meets_smallTable_ctgen :
    (sys 1 16 id).legal = true ∧ (sys 1 16 id).node < (sys 1 16 id).engines.length ∧ (sys 1 16 id).cur.run = .running
      ∧ (sys 1 16 id).cur.cfg.ctCap < cfgTH (sys 1 16 id).cur.cfg := by decide +kernel

theorem test_meets_brgen :
    (sys 1 8 id).ready ∧ cfgN (sys 1 8 id).cur.cfg ≤ (sys 1 8 id).cur.cfg.brCap := by unfold State.ready State.readyAt; decide +kernel

theorem test_meets_lutOverflow :
    (sys 1 8 id).ready ∧ cfgN (sys 1 8 id).cur.cfg ≤ (sys 1 8 id).cur.cfg.brCap ∧ (sys 1 8 id).cur.run = .running
      ∧ ∃ t, exec .brgen (sys 1 8 id) = .next t :=
  ⟨by unfold State.ready State.readyAt; decide +kernel, by decide +kernel, by decide +kernel, _, rfl⟩

theorem test_meets_ctgen :
    (sys 1 8 id).ready ∧ cfgTH (sys 1 8 id).cur.cfg ≤ (sys 1 8 id).cur.cfg.ctCap := by unfold State.ready State.readyAt; decide +kernel

theorem test_meets_trig :
    0 < 1 := Nat.one_pos

theorem test_meets_rowPartition :
    0 < 16 ∧ 15 < 16 ∧ 3 ≤ 15 ∧ 2 < 3 ∧ 2 ∈ coreRows 3 16 2 := by decide +kernel

theorem test_meets_fft :
    full.ready ∧ 2 ≤ cfgN full.cur.cfg ∧ flagOf full.cur.status Flag.brValid = true
      ∧ flagOf full.cur.status Flag.twValid = true ∧ twNeed full.cur.cfg ≤ full.cur.twLen.toNat
      ∧ full.cur.br.readElems 0 full.cur.brLen.toNat = some (vals [(1, 2)])
      ∧ full.cur.tw.readElems 0 (twNeed full.cur.cfg)
        = some (vals [(0x3F800000, 0x80000000), (0x3F800000, 0x80000000), (0x3F800000, 0x80000000), (0x00000000, 0xBF800000)])
      ∧ (∀ v ∈ vals [(1, 2)], v.x.toNat < cfgN full.cur.cfg ∧ v.y.toNat < cfgN full.cur.cfg)
      ∧ (full.cur.buf .B).holds (bufElems full.cur.cfg) := by
  unfold State.ready State.readyAt Memory.holds; decide +kernel

theorem test_meets_fft_no_pair :
    (sys 1 2 id).ready ∧ 2 ≤ cfgN (sys 1 2 id).cur.cfg ∧ (sys 1 2 id).cur.brLen = 0
      ∧ (sys 1 2 id).cur.br.readElems 0 0 = some [] := by unfold State.ready State.readyAt; decide +kernel

theorem test_meets_fft_one_column :
    (sys 1 1 id).ready ∧ cfgN (sys 1 1 id).cur.cfg = 1 ∧ (sys 1 1 id).cur.brLen = 0
      ∧ (sys 1 1 id).incoming 0 .A = [] := by unfold State.ready State.readyAt; decide +kernel

theorem test_meets_coreCount :
    0 < (16#5).toNat ∧ 0 < full.cur.cfg.nbCores.toNat := by decide +kernel

theorem test_meets_butterflyIndices :
    { m := 8, k := 0, j := 3 } ∈ loopNest (2 ^ 3) 3 := by decide +kernel

theorem test_meets_bfly :
    0 ≠ 1 ∧ (vals [(1, 2), (3, 4)])[0]? = some { x := 1, y := 2 } ∧ (vals [(1, 2), (3, 4)])[1]? = some { x := 3, y := 4 } := by decide +kernel

theorem test_meets_swaps :
    (vals (ramp.take 8)).length = 2 ^ 3 ∧ 7 < 2 ^ 3 := by decide +kernel

theorem test_meets_unwritten_tables :
    (sys 2 4 id).legal = true ∧ (sys 2 4 id).node < (sys 2 4 id).engines.length ∧ 2 ≤ cfgN (sys 2 4 id).cur.cfg
      ∧ flagOf (sys 2 4 id).cur.status Flag.twValid = false ∧ flagOf (sys 2 4 id).cur.status Flag.ctValid = false := by decide +kernel

theorem test_meets_unwritten_buffer :
    (sys 2 4 id).legal = true ∧ (sys 2 4 id).node < (sys 2 4 id).engines.length ∧ 7 < bufElems (sys 2 4 id).cur.cfg ∧ ((sys 2 4 id).cur.buf .A).readElem 7 = none
      ∧ (sys 2 4 id).cur.stage = .begin := by decide +kernel

theorem test_meets_unwritten_lut :
    (fullBut fun e => { e with status := 0x68 }).legal = true
      ∧ (fullBut fun e => { e with status := 0x68 }).node < (fullBut fun e => { e with status := 0x68 }).engines.length
      ∧ (fullBut fun e => { e with status := 0x68 }).cur.brLen ≠ 0
      ∧ flagOf (fullBut fun e => { e with status := 0x68 }).cur.status Flag.brValid = false := by decide +kernel

/-- The full state with the last element of buffer `B` unwritten. -/
def holed : State := fullBut fun e => { e with bufB := mem ((ramp.drop 8).take 7) }

theorem test_meets_unwritten_fft :
    holed.legal = true ∧ holed.node < holed.engines.length ∧ 2 ≤ cfgN holed.cur.cfg
      ∧ flagOf holed.cur.status Flag.brValid = true ∧ flagOf holed.cur.status Flag.twValid = true
      ∧ twNeed holed.cur.cfg ≤ holed.cur.twLen.toNat
      ∧ holed.cur.br.readElems 0 holed.cur.brLen.toNat = some (vals [(1, 2)])
      ∧ holed.cur.tw.readElems 0 (twNeed holed.cur.cfg)
        = some (vals [(0x3F800000, 0x80000000), (0x3F800000, 0x80000000), (0x3F800000, 0x80000000), (0x00000000, 0xBF800000)])
      ∧ (∀ v ∈ vals [(1, 2)], v.x.toNat < cfgN holed.cur.cfg ∧ v.y.toNat < cfgN holed.cur.cfg)
      ∧ 7 < bufElems holed.cur.cfg ∧ (holed.cur.buf .B).readElem 7 = none := by decide +kernel

theorem test_meets_unwritten_correct :
    holed.legal = true ∧ holed.node < holed.engines.length ∧ flagOf holed.cur.status Flag.ctValid = true
      ∧ holed.cur.ct.holds (cfgTH holed.cur.cfg) ∧ 7 < bufElems holed.cur.cfg ∧ (holed.cur.buf .B).readElem 7 = none := by
  unfold Memory.holds; decide +kernel

theorem test_meets_unwritten_quadrant :
    (sys 2 4 id).legal = true ∧ (sys 2 4 id).node < (sys 2 4 id).engines.length ∧ 1 < cfgTH (sys 2 4 id).cur.cfg
      ∧ ((sys 2 4 id).cur.buf .A).readElem (1 * cfgN (sys 2 4 id).cur.cfg + (cfgP (sys 2 4 id).cur.cfg * cfgTH (sys 2 4 id).cur.cfg + 1)) = none
      ∧ (sys 2 4 id).cur.stage = .begin := by decide +kernel

theorem test_meets_correct :
    full.ready ∧ flagOf full.cur.status Flag.ctValid = true ∧ full.cur.ct.holds (cfgTH full.cur.cfg)
      ∧ (full.cur.buf .A).holds (bufElems full.cur.cfg) ∧ 1 < cfgTH full.cur.cfg ∧ 3 < cfgN full.cur.cfg
      ∧ full.cur.ct.readElem 1 = some { x := 0x3F6C835E, y := 0xBEC3EF15 }
      ∧ (full.cur.buf .A).readElem (1 * cfgN full.cur.cfg + 3) = some { x := 0x40E00000, y := 0 }
      ∧ full.incoming full.node .A = [] := by unfold State.ready State.readyAt Memory.holds; decide +kernel

/-- The full state with every node at a stage of its command. -/
def standing (st : Stage) : State := fullBut (Engine.atStage st)

theorem test_meets_ingest_begins :
    full.legal = true ∧ full.node < full.engines.length ∧ full.cur.stage = .begin := by decide +kernel

theorem test_meets_ingest_waits :
    let s : State := { standing .reading with events := [.answer 0, .sequencer 0] }
    s.legal = true ∧ s.node < s.engines.length ∧ s.cur.stage = .reading ∧ s.events = .answer s.node :: [.sequencer 0] := by
  decide +kernel

theorem test_meets_ingest :
    (standing .read).readyAt .read ∧ 1 < cfgTH (standing .read).cur.cfg ∧ 3 < cfgN (standing .read).cur.cfg
      ∧ (standing .read).incoming (standing .read).node .B = [] := by
  unfold State.readyAt; decide +kernel

theorem test_meets_emit :
    full.ready ∧ (full.cur.buf .B).holds (bufElems full.cur.cfg) ∧ full.incoming full.node .B = []
      ∧ (full.cur.buf .B).readElem (1 * cfgN full.cur.cfg + 3) = some { x := 0x41700000, y := 0 } := by unfold State.ready State.readyAt Memory.holds; decide +kernel

theorem test_meets_emit_waits :
    let s : State := { standing .writing with events := [.answer 0] }
    s.legal = true ∧ s.node < s.engines.length ∧ s.cur.stage = .writing ∧ s.events = .answer s.node :: [] := by decide +kernel

/-- The full state in the fence, one byte pending or none. -/
def fencing (ws : List OutWrite) : State := fullBut fun e => { e with stage := .fence, outPending := ws }

theorem test_meets_fence_waiting :
    (fencing [{ off := 127, val := 0x41 }]).legal = true
      ∧ (fencing [{ off := 127, val := 0x41 }]).node < (fencing [{ off := 127, val := 0x41 }]).engines.length
      ∧ (fencing [{ off := 127, val := 0x41 }]).cur.stage = .fence
      ∧ (fencing [{ off := 127, val := 0x41 }]).cur.outPending ≠ [] := by decide +kernel

theorem test_meets_fence_done :
    (fencing []).legal = true ∧ (fencing []).node < (fencing []).engines.length ∧ (fencing []).cur.stage = .fence
      ∧ (fencing []).cur.outPending = [] ∧ (fencing []).cur.pc ≠ 255#8 := by decide +kernel

/-- The last byte of the region. -/
theorem test_meets_outWrite :
    State.legal { fencing [{ off := 127, val := 0x41 }] with events := [.outWrite 1 0] } = true
      ∧ 1 < (fencing [{ off := 127, val := 0x41 }]).engines.length
      ∧ ((fencing [{ off := 127, val := 0x41 }]).eng 1).outPending[0]? = some { off := 127, val := 0x41 }
      ∧ 127 < regionBytes ((fencing [{ off := 127, val := 0x41 }]).eng 1).cfg := by decide +kernel

/-- The full state with node 0 in a barrier. -/
def inBarrier (arr : List Nat) : State := { fullBut fun e => { e with stage := .barrier } with arrivals := arr }

theorem test_meets_barrier_arrives :
    full.legal = true ∧ full.node < full.engines.length ∧ 1 < full.engines.length ∧ full.cur.stage = .begin ∧ 1 ≠ full.node
      ∧ full.arrivalsOf 1 ≤ full.arrivalsOf full.node := by decide +kernel

theorem test_meets_barrier_waits :
    (inBarrier [2, 1]).legal = true ∧ (inBarrier [2, 1]).node < (inBarrier [2, 1]).engines.length
      ∧ 1 < (inBarrier [2, 1]).engines.length ∧ (inBarrier [2, 1]).cur.stage = .barrier
      ∧ (inBarrier [2, 1]).arrivalsOf 1 < (inBarrier [2, 1]).arrivalsOf (inBarrier [2, 1]).node := by decide +kernel

theorem test_meets_barrier_released :
    (inBarrier [2, 2]).legal = true ∧ (inBarrier [2, 2]).node < (inBarrier [2, 2]).engines.length
      ∧ (inBarrier [2, 2]).cur.pc ≠ 255#8 ∧ (inBarrier [2, 2]).cur.stage = .barrier
      ∧ ∀ q, q < (inBarrier [2, 2]).engines.length →
        (inBarrier [2, 2]).arrivalsOf (inBarrier [2, 2]).node ≤ (inBarrier [2, 2]).arrivalsOf q := by decide +kernel

theorem test_meets_barrier_last :
    let s : State := { full with arrivals := [1, 2] }
    s.legal = true ∧ s.node < s.engines.length ∧ s.cur.pc ≠ 255#8 ∧ s.cur.stage = .begin
      ∧ ∀ q, q < s.engines.length → q ≠ s.node → s.arrivalsOf s.node + 1 ≤ s.arrivalsOf q := by decide +kernel

theorem test_meets_next_last :
    full.legal = true ∧ full.node < full.engines.length ∧ full.cur.pc ≠ 255#8 ∧ full.cur.iterLeft.toNat ≤ 1 := by decide +kernel

theorem test_meets_next_loops :
    let s : State := fullBut fun e => { e with iterLeft := 2, pc := 255 }
    s.legal = true ∧ s.node < s.engines.length ∧ 1 < s.cur.iterLeft.toNat := by decide +kernel

theorem test_meets_halt :
    full.legal = true ∧ full.node < full.engines.length := by decide +kernel

theorem test_meets_halted :
    let u : State := fullBut fun e => { e with run := .done, status := 0x79 }
    u.legal = true ∧ u.events = [] ∧ u.cur.run = .done := by decide +kernel

/-- The full state with every node at index 255. -/
def atEnd : State := fullBut fun e => { e with pc := 255 }

theorem test_meets_lastIndex :
    atEnd.legal = true ∧ atEnd.node < atEnd.engines.length ∧ atEnd.cur.pc = 255#8 ∧ atEnd.cur.run = .running
      ∧ atEnd.cur.iterLeft.toNat ≤ 1 ∧ twNeed atEnd.cur.cfg ≤ atEnd.cur.cfg.twCap ∧ cfgN atEnd.cur.cfg ≤ atEnd.cur.cfg.brCap
      ∧ cfgTH atEnd.cur.cfg ≤ atEnd.cur.cfg.ctCap := by decide +kernel

/-- Whether a command answers a next state in which its node stands in no wait. -/
def ends (i : Instr) (s : State) : Bool := after (exec i s) (fun t => t.cur.stage) == some .begin

/-- Every command completes at index 255 somewhere. -/
theorem test_meets_lastIndex_ends :
    ends .twgen atEnd ∧ ends .brgen atEnd ∧ ends .ctgen atEnd ∧ ends (.fft .A) atEnd ∧ ends (.correct .B) atEnd ∧ ends .next atEnd
      ∧ ends (.ingest .A) (fullBut fun e => { e with pc := 255, stage := .read })
      ∧ ends (.transpose .A) (fullBut fun e => { e with pc := 255, stage := .rendezvous, rdv := 2 })
      ∧ ends (.emit .B) (fullBut fun e => { e with pc := 255, stage := .fence })
      ∧ ends .barrier { atEnd with arrivals := [1, 2] } := by decide +kernel

/-- The full state with the fabric's answers listed: one enqueue accepted, one refused. -/
def answered : State := { full with answers := [true, false, true] }

theorem test_meets_transposeSends :
    answered.ready ∧ (answered.cur.buf .A).holds (bufElems answered.cur.cfg) ∧ answered.incoming answered.node .A = []
      ∧ (xferGroups answered.params.grouping answered.cur.cfg .A).length ≤ answered.answers.length
      ∧ 1 < cfgTH answered.cur.cfg := by
  unfold State.ready State.readyAt Memory.holds; decide +kernel

theorem test_meets_enqueueAnswers :
    (xferGroups .perRow (cfg 2 4 0) .A).length ≤ [true, false].length
      ∧ ∀ g ∈ xferGroups .perRow (cfg 2 4 0) .A, ∀ d ∈ g.descs, ∀ x, x < d.count →
        ((mem (ramp.take 8)).readElem (d.srcAt x)).isSome = true := by decide +kernel

theorem test_meets_descriptors :
    (cfg 2 4 1).wf = true ∧ { dst := 0, row := some 1, descs := [xferDesc (cfg 2 4 1) .A 0 1] } ∈ xferGroups .perRow (cfg 2 4 1) .A := by decide +kernel

theorem test_meets_everyDestination :
    full.legal = true ∧ 1 < full.engines.length ∧ 7 < bufElems (full.eng 1).cfg := by decide +kernel

theorem test_meets_deliver :
    State.legal { flying with events := [.deliver 0 0 1 .x, .deliver 0 0 1 .y] } = true ∧ flying.transfersAlive = true
      ∧ 0 < flying.engines.length
      ∧ (flying.eng 0).outstanding[0]? = some t2 ∧ (1, Half.x) ∈ t2.pending ∧ (1, Half.y) ∈ t2.pending ∧ t2.pending.Nodup
      ∧ t2.pending ≠ [(1, .x)]
      ∧ t2.desc.dstNode < flying.engines.length ∧ t2.desc.dstNode ≠ 0
      ∧ t2.desc.dstAt 1 < bufElems (flying.eng t2.desc.dstNode).cfg := by decide +kernel

theorem test_meets_deliver_last :
    State.legal { landing with events := [.deliver 0 0 1 .x] } = true ∧ landing.transfersAlive = true ∧ 0 < landing.engines.length
      ∧ (landing.eng 0).outstanding[0]? = some t2last ∧ (1, Half.x) ∈ t2last.pending ∧ t2last.pending = [(1, .x)]
      ∧ t2last.desc.dstNode < landing.engines.length ∧ t2last.desc.dstNode ≠ 0
      ∧ t2last.desc.dstAt 1 < bufElems (landing.eng t2last.desc.dstNode).cfg := by decide +kernel

/-- The full state with an increment for node 1 posted by node 0. -/
def posted : State := { full with
  engines := full.engines.modify 0 fun e => { e with pendingAdd := [0, 1] }, events := [.add 0 1] }

theorem test_meets_add :
    posted.legal = true ∧ 0 < posted.engines.length ∧ (posted.eng 0).pendingAdd[1]? = some 1 ∧ 1 < posted.engines.length := by
  decide +kernel

/-- The full state in phase 3. -/
def sending : State := fullBut fun e => { e with stage := .transfers }

theorem test_meets_announces :
    sending.legal = true ∧ sending.node < sending.engines.length ∧ sending.cur.stage = .transfers
      ∧ sending.cur.outstanding = [] ∧ sending.cur.rdv.toNat < cfgNB sending.cur.cfg := by decide +kernel

theorem test_meets_announces_waiting :
    let s : State := { sending with engines := sending.engines.modify 0 fun e => { e with outstanding := [t2] } }
    s.legal = true ∧ s.node < s.engines.length ∧ s.cur.stage = .transfers ∧ s.cur.outstanding ≠ [] := by decide +kernel

/-- The full state in phase 5 with a count. -/
def meeting (k : BitVec 32) : State := fullBut fun e => { e with stage := .rendezvous, rdv := k }

theorem test_meets_rendezvous_waiting :
    (meeting 1).legal = true ∧ (meeting 1).node < (meeting 1).engines.length ∧ (meeting 1).cur.stage = .rendezvous
      ∧ (meeting 1).cur.rdv.toNat < cfgNB (meeting 1).cur.cfg := by decide +kernel

theorem test_meets_announces_passing :
    let s : State := fullBut fun e => { e with stage := .transfers, rdv := 2 }
    s.legal = true ∧ s.node < s.engines.length ∧ s.cur.stage = .transfers ∧ s.cur.outstanding = []
      ∧ cfgNB s.cur.cfg ≤ s.cur.rdv.toNat ∧ s.cur.pc ≠ 255#8 := by decide +kernel

theorem test_meets_rendezvous_passing :
    (meeting 2).legal = true ∧ (meeting 2).node < (meeting 2).engines.length ∧ (meeting 2).cur.stage = .rendezvous
      ∧ cfgNB (meeting 2).cur.cfg ≤ (meeting 2).cur.rdv.toNat ∧ (meeting 2).cur.pc ≠ 255#8 := by decide +kernel

/-- One node whose buffer holds values. -/
def alone : State := sys 1 2 fun e => { e with bufA := mem (ramp.take 4) }

theorem test_meets_oneNode :
    alone.ready ∧ cfgNB alone.cur.cfg = 1 ∧ (alone.cur.buf .A).holds (bufElems alone.cur.cfg) ∧ alone.cur.outstanding = []
      ∧ alone.incoming alone.node .A = [] ∧ 1 < cfgN alone.cur.cfg := by
  unfold State.ready State.readyAt Memory.holds; decide +kernel

theorem test_meets_racing :
    flying.incoming 1 .B
        = [((0, .x), 0x40000000), ((0, .y), 0), ((4, .x), 0x40400000), ((4, .y), 0)]
      ∧ ∀ w ∈ flying.incoming 1 .B, w.1.1 ≠ 3 := by decide +kernel

/-! The invariants and the whole-machine rules: a step of a transfer's agent, of a sequencer, of the host. -/

/-- A step that delivers an element. -/
def delivering : State := { flying with events := [.deliver 0 0 1 .y] }

theorem test_meets_invariants_deliver :
    delivering.memWf = true ∧ delivering.statusAgrees = true ∧ delivering.buffersInRange = true
      ∧ delivering.transfersAlive = true ∧ ∃ t, step delivering = .next t :=
  ⟨by decide +kernel, by decide +kernel, by decide +kernel, by decide +kernel, next_of_isSome (by decide +kernel)⟩

theorem test_meets_invariants_command :
    answered.memWf = true ∧ answered.statusAgrees = true ∧ answered.buffersInRange = true ∧ answered.transfersAlive = true
      ∧ ∃ t, step answered = .next t :=
  ⟨by decide +kernel, by decide +kernel, by decide +kernel, by decide +kernel, next_of_isSome (by decide +kernel)⟩

theorem test_meets_runStates :
    (∃ t, step { State.reset with events := [.start 0] } = .next t) ∧ (State.reset.eng 0).run = .idle
      ∧ (∃ t, step answered = .next t) ∧ answered.events.head? ≠ some .reset ∧ (answered.eng 0).run = .running :=
  ⟨next_of_isSome (by decide +kernel), by decide +kernel, next_of_isSome (by decide +kernel), by decide +kernel,
    by decide +kernel⟩

theorem test_meets_runStates_ended :
    (∃ t, step (fullBut fun e => { e with run := .done, status := 0x79 }) = .next t)
      ∧ ((fullBut fun e => { e with run := .done, status := 0x79 }).eng 0).run = .done
      ∧ (∃ t, step (fullBut fun e => { e with run := .fatal, status := 0x17A }) = .next t)
      ∧ ((fullBut fun e => { e with run := .fatal, status := 0x17A }).eng 0).run = .fatal :=
  ⟨next_of_isSome (by decide +kernel), by decide +kernel, next_of_isSome (by decide +kernel), by decide +kernel⟩

theorem test_meets_logGrows :
    (∃ t, step { full with answers := [true, false] } = .next t) ∧ full.events.head? ≠ some .reset
      ∧ flagOf ((fullBut fun e => { e with status := 0x7C }).eng 0).status Flag.xferErr = true
      ∧ ∃ t, step { fullBut fun e => { e with status := 0x7C } with answers := [true, false] } = .next t :=
  ⟨next_of_isSome (by decide +kernel), by decide +kernel, by decide +kernel, next_of_isSome (by decide +kernel)⟩

/-- One node with the tables of `N = 2` (3.1 to 3.3), at the word of FFT A. -/
def built : State := sys 1 2 fun e =>
  { e with
    tw := mem [(0x3F800000, 0x80000000)], twLen := 1, ct := mem [(0x3F800000, 0x80000000), (0x00000000, 0xBF800000)]
    status := 0x78, bufA := mem (ramp.take 4), pc := 9 }

theorem test_meets_tables : built.tablesHold ∧ (∃ t, step built = .next t) ∧ built.events.head? ≠ some .reset := by
  refine ⟨fun q => ?_, next_of_isSome (by decide +kernel), by decide +kernel⟩
  cases q with
  | zero => exact ⟨by decide +kernel, by decide +kernel, by decide +kernel, by decide +kernel, by decide +kernel⟩
  | succ q =>
    rw [built.eng_of_le (by have : built.engines.length = 1 := rfl; omega)]
    exact Engine.tablesHold_of_not_valid rfl rfl rfl rfl rfl

theorem test_meets_runs :
    full.runs 0 (.transpose .A) ∧ State.runs { full with events := [.sequencer 1] } 1 (.transpose .A)
      ∧ (fullBut fun e => { e with pc := 13 }).runs 0 .next :=
  ⟨⟨.inl ⟨rfl, rfl⟩, by decide +kernel, 0x50#8, by decide +kernel, rfl⟩,
    ⟨.inr rfl, by decide +kernel, 0x50#8, by decide +kernel, rfl⟩,
    ⟨.inl ⟨rfl, rfl⟩, by decide +kernel, 0xA0#8, by decide +kernel, rfl⟩⟩

theorem test_meets_control :
    (∃ t, step (fullBut fun e => { e with pc := 13, iterLeft := 3 }) = .next t)
      ∧ (fullBut fun e => { e with pc := 13, iterLeft := 3 }).events.head? ≠ some .reset :=
  ⟨next_of_isSome (by decide +kernel), by decide +kernel⟩

theorem test_meets_rdv :
    (∃ t, step posted = .next t) ∧ posted.events.head? ≠ some .reset
      ∧ ∃ t, step { meeting 2 with events := [.sequencer 1] } = .next t :=
  ⟨next_of_isSome (by decide +kernel), by decide +kernel, next_of_isSome (by decide +kernel)⟩

theorem test_meets_stayOnNode : 1 ≠ answered.node ∧ ∃ t, exec (.transpose .A) answered = .next t :=
  ⟨by decide +kernel, next_of_isSome (by decide +kernel)⟩

/-! Arithmetic. -/

theorem test_meets_commutes :
    F32.isNaN (fadd .ieee754 default 0x3F800000#32 0xBF800000#32) = false
      ∧ F32.isNaN (fmul .ieee754 default 0x7F800000#32 0xBF800000#32) = false
      ∧ F32.isNaN (cmul .ieee754 default { x := 0x3F800000#32, y := 0xBF800000#32 } { x := 0x40000000#32, y := 0 }).x = false
      ∧ F32.isNaN (cmul .ieee754 default { x := 0x3F800000#32, y := 0xBF800000#32 } { x := 0x40000000#32, y := 0 }).y = false := by
  decide +kernel

theorem test_meets_nanRules :
    F32.isNaN 0x7FC00001#32 = true ∧ F32.isInf 0xFF800000#32 = true ∧ F32.isZero 0x80000000#32 = true
      ∧ F32.isFinite 0x7F7FFFFF#32 = true ∧ 31 < 32 := by decide +kernel

theorem test_meets_rounding :
    F32.isFinite 0x3F800000#32 = true ∧ F32.isFinite 0x33800000#32 = true ∧ F32.isFinite 0x3F800001#32 = true
      ∧ F32.isFinite (fadd .ieee754 default 0x3F800000#32 0x33800000#32) = true
      ∧ F32.isFinite (fmul .ieee754 default 0x3F800000#32 0x33800000#32) = true := by decide +kernel

end Sys2Proof.Machine.Tests
end

section
/-! PROOFS. The configuration is legal in every step that happens, and no step changes it (spec 00_scope.md R13, 10_state.md R26,
20_memory.md R94). -/

namespace Sys2Proof.Machine

/-! ### What no step changes of the system as a whole -/

/-- The parameters, the number of nodes and the number of arrival counts are the same: what `State.legal` reads beside the
configurations. -/
structure State.SameShape (s t : State) : Prop where
  params : t.params = s.params
  nodes : t.engines.length = s.engines.length
  counts : t.arrivals.length = s.arrivals.length

theorem State.SameShape.refl (s : State) : s.SameShape s := ⟨rfl, rfl, rfl⟩

theorem State.SameShape.trans {s t u : State} (h : s.SameShape t) (h' : t.SameShape u) : s.SameShape u :=
  ⟨h'.params.trans h.params, h'.nodes.trans h.nodes, h'.counts.trans h.counts⟩

theorem State.sameShape_modEng (s : State) (q : Nat) (f : Engine → Engine) : s.SameShape (s.modEng q f) :=
  ⟨rfl, s.length_modEng q f, rfl⟩

theorem State.sameShape_modCur (s : State) (f : Engine → Engine) : s.SameShape (s.modCur f) :=
  s.sameShape_modEng s.node f

/-- The drawing of free values touches nothing of it. -/
theorem State.sameShape_one (s : State) (f : Engine → Engine) : s.SameShape (s.modCur f).tick :=
  ⟨rfl, s.length_modCur f, rfl⟩

theorem State.sameShape_settle (s : State) (b : Buf) : s.SameShape (s.settle b) :=
  ⟨s.settle_params b, s.length_settle b, congrArg List.length (s.settle_arrivals b)⟩

/-- The commands that rewrite a buffer: INGEST, FFT and CORRECT. -/
theorem State.sameShape_settleThen (s : State) (b : Buf) (f : Engine → Engine) :
    s.SameShape ((s.settle b).modCur f).tick :=
  (s.sameShape_settle b).trans (State.sameShape_one _ f)

theorem State.sameShape_fenced (s : State) : s.SameShape s.fenced := by
  rcases s.fenced_cases with ⟨_, h⟩ | ⟨_, h⟩ <;> rw [h]
  exacts [.refl s, s.sameShape_one _]

theorem State.sameShape_waitBarrier (s : State) : s.SameShape s.waitBarrier := by
  rcases s.waitBarrier_cases with ⟨_, h⟩ | ⟨_, h⟩ <;> rw [h]
  exacts [.refl s, s.sameShape_one _]

/-- An arrival replaces one count. -/
theorem State.sameShape_arrive (s : State) : s.SameShape s.arrive :=
  ⟨rfl, State.length_modCur _ _, List.length_set⟩

theorem State.sameShape_pass (s : State) : s.SameShape s.pass := by
  rcases s.pass_cases with ⟨_, h⟩ | ⟨_, h⟩ <;> rw [h]
  exacts [.refl s, s.sameShape_one _]

theorem State.sameShape_announce (s : State) : s.SameShape s.announce := by
  rcases s.announce_cases with ⟨_, h⟩ | ⟨_, h⟩ <;> rw [h]
  exacts [.refl s, (s.sameShape_modCur _).trans (State.sameShape_pass _)]

theorem State.sameShape_send {s t : State} {b : Buf} (h : s.send b = some t) : s.SameShape t := by
  obtain ⟨quad, sent, _, _, rfl⟩ := State.send_cases h
  exact ⟨rfl, s.length_modCur _, rfl⟩

theorem State.sameShape_handOver {s t : State} {b : Buf} (h : s.handOver b = some t) : s.SameShape t := by
  obtain ⟨_, _, rfl⟩ := State.handOver_cases h
  exact s.sameShape_one _

theorem exec_sameShape {i : Instr} {s t : State} (h : exec i s = .next t) : s.SameShape t := by
  cases i with
  | twgen | brgen | ctgen | next | halt => cases h; exact s.sameShape_one _
  | ingest b =>
    rcases execIngest_cases h with ⟨_, rfl⟩ | ⟨_, rfl⟩ | ⟨_, _, rfl⟩
    exacts [.refl t, s.sameShape_settleThen b _, s.sameShape_modCur _]
  | transpose b =>
    rcases execTranspose_cases h with ⟨_, rfl⟩ | ⟨_, rfl⟩ | ⟨u, hu, rfl⟩
    exacts [s.sameShape_announce, s.sameShape_pass, (State.sameShape_send hu).trans u.sameShape_announce]
  | fft b => obtain ⟨m, _, rfl⟩ := execFft_cases h; exact s.sameShape_settleThen b _
  | correct b => obtain ⟨m, _, rfl⟩ := execCorrect_cases h; exact s.sameShape_settleThen b _
  | emit b =>
    rcases execEmit_cases h with ⟨_, rfl⟩ | ⟨_, rfl⟩ | h
    exacts [.refl t, s.sameShape_fenced, State.sameShape_handOver h]
  | barrier =>
    rcases execBarrier_cases h with ⟨_, rfl⟩ | ⟨_, rfl⟩
    exacts [s.sameShape_waitBarrier, s.sameShape_arrive.trans s.arrive.sameShape_waitBarrier]

theorem runSequencer_sameShape {s t : State} (h : runSequencer s = .next t) : s.SameShape t := by
  rcases runSequencer_cases h with ⟨_, rfl⟩ | ⟨_, rfl | ⟨_, hi⟩⟩
  exacts [.refl t, s.sameShape_modCur _, exec_sameShape hi]

/-- An event of the world. The host's reset makes one arrival count per node, which is as many as there were
(70_reset_and_hazards.md R257). -/
theorem State.perform_sameShape {s t : State} {e : Event} (hc : s.arrivals.length = s.engines.length)
    (h : s.perform e = .next t) : s.SameShape t := by
  cases e with
  | start q | answer q => cases h; exact s.sameShape_modEng q _
  | sequencer q => cases h; exact ⟨rfl, rfl, rfl⟩
  | reset =>
    obtain ⟨_, rfl⟩ := State.hostReset_cases h
    exact ⟨rfl, List.length_map _, (List.length_map _).trans hc.symm⟩
  | deliver p i x k =>
    rcases State.deliver_cases h with rfl | ⟨_, _, _, _, _, rfl⟩
    exacts [.refl t, (s.sameShape_modEng _ _).trans (State.sameShape_modEng _ p _)]
  | add p i =>
    rcases State.performAdd_cases h with rfl | ⟨q, _, _, rfl⟩
    exacts [.refl t, (s.sameShape_modEng q _).trans (State.sameShape_modEng _ p _)]
  | outWrite p i =>
    rcases State.performOut_cases h with rfl | ⟨_, _, _, rfl⟩
    exacts [.refl t, ⟨rfl, State.length_modEng _ _ _, rfl⟩]

/-- A legal system has one arrival count per node. -/
theorem State.legal_counts {s : State} (h : s.legal = true) : s.arrivals.length = s.engines.length := by
  rcases Nat.eq_zero_or_pos s.engines.length with h0 | h0
  · rw [State.legal, List.length_eq_zero_iff.1 h0] at h
    cases h
  · exact (State.legal_eng h h0).2.2.2

theorem step_sameShape {s t : State} (h : step s = .next t) : s.SameShape t := by
  obtain ⟨hl, ⟨_, h⟩ | ⟨q, rest, _, h⟩ | ⟨e, rest, _, _, h⟩⟩ := step_cases h
  · exact runSequencer_sameShape h
  · exact .trans (t := { s with events := rest, node := q }) ⟨rfl, rfl, rfl⟩ (runSequencer_sameShape h)
  · exact .trans (t := { s with events := rest }) ⟨rfl, rfl, rfl⟩ (State.perform_sameShape (State.legal_counts hl) h)

/-! ### The configuration of each node -/

theorem EngineMoves.cfg_eq {e e' : Engine} (h : EngineMoves e e') : e'.cfg = e.cfg := by
  induction h with
  | trans _ _ ih ih' => exact ih'.trans ih
  | buffer e b m _ => exact e.setBuf_cfg b m
  | _ => rfl

@[simp] theorem Engine.start_cfg (e : Engine) : e.start.cfg = e.cfg := by
  unfold Engine.start
  split <;> rfl

theorem step_cfg {s t : State} (h : step s = .next t) (q : Nat) : (t.eng q).cfg = (s.eng q).cfg := by
  by_cases hr : s.events.head? = some .reset
  · rw [step_of_reset h hr]
    by_cases hq : q < s.engines.length
    · simp [State.eng, hq, Engine.reset]
    · simp [State.eng, hq]
  by_cases hs : ∃ p, s.events.head? = some (.start p)
  · obtain ⟨p, hp⟩ := hs
    rw [step_of_start h hp]
    exact State.eng_modEng_keeps { s with events := s.events.tail } p q _ Engine.cfg Engine.start_cfg
  · exact (SystemMoves.step h hr (fun p hp => hs ⟨p, hp⟩) q).cfg_eq

/-! ### The statements -/

/-- A system with the shape and the configurations of a legal one is legal. -/
theorem State.SameShape.legal_eq {s t : State} (h : s.SameShape t) (hc : ∀ q, (t.eng q).cfg = (s.eng q).cfg) :
    t.legal = s.legal := by
  refine State.legal_congr (List.ext_getElem (by simp [h.nodes]) fun q hq hq' => ?_) h.counts (congrArg Params.prog h.params)
  rw [List.length_map] at hq hq'
  simpa [State.eng_eq_getElem _ hq, State.eng_eq_getElem _ hq'] using hc q

/-- Settles O47: every operation keeps the shape of the system, every move of an engine its configuration, and legality
reads nothing else. -/
theorem stepKeepsTheConfiguration : Obligations.StepKeepsTheConfiguration := by
  intro s t h
  have hshape := step_sameShape h
  refine ⟨?_, hshape.params, hshape.nodes, step_cfg h⟩
  rw [hshape.legal_eq (step_cfg h)]
  exact (step_cases h).1

/-- Settles O7: legality is the first thing a step looks at. -/
theorem illegalConfigurationIsRefused : Obligations.IllegalConfigurationIsRefused := by
  intro s h
  rw [step, if_neg (by simp [h])]

end Sys2Proof.Machine
end

section
/-! PROOFS. The reference arithmetic: the fields of a packed pattern, which operations give a NaN, signed zeros, commuting
operands and rounding to nearest (spec 00_scope.md R18 to R20). -/

namespace Sys2Proof.Machine

/-! ### The fields of a pattern -/

theorem F32.sign_eq (a : F32) : F32.sign a = decide (2 ^ 31 ≤ a.toNat) :=
  (BitVec.msb_eq_getLsbD_last a).symm.trans (BitVec.msb_eq_decide a)

/-- The three fields make up the pattern. -/
theorem F32.toNat_eq (a : F32) :
    a.toNat = (if F32.sign a then 2 ^ 31 else 0) + F32.expo a * 2 ^ 23 + F32.frac a := by
  have := a.isLt
  rw [F32.sign_eq, F32.expo, F32.frac]
  split_ifs with h <;> simp only [decide_eq_true_eq] at h <;> omega

theorem F32.eq_of_fields {a b : F32} (hs : F32.sign a = F32.sign b) (he : F32.expo a = F32.expo b)
    (hf : F32.frac a = F32.frac b) : a = b := by
  apply BitVec.eq_of_toNat_eq
  rw [F32.toNat_eq a, F32.toNat_eq b, hs, he, hf]

theorem F32.toNat_pack (neg : Bool) {low : Nat} (h : low < 2 ^ 31) :
    (F32.pack neg low).toNat = low + if neg then 2 ^ 31 else 0 := by
  rw [F32.pack, BitVec.toNat_ofNat]
  cases neg <;> simp only [Bool.false_eq_true, if_false, if_true] <;> omega

theorem F32.sign_pack (neg : Bool) {low : Nat} (h : low < 2 ^ 31) : F32.sign (F32.pack neg low) = neg := by
  rw [F32.sign_eq, F32.toNat_pack neg h]
  cases neg
  · simpa using h
  · simp

theorem F32.expo_pack (neg : Bool) {low : Nat} (h : low < 2 ^ 31) : F32.expo (F32.pack neg low) = low / 2 ^ 23 := by
  rw [F32.expo, F32.toNat_pack neg h]
  cases neg <;> simp only [Bool.false_eq_true, if_false, if_true] <;> omega

theorem F32.frac_pack (neg : Bool) {low : Nat} (h : low < 2 ^ 31) : F32.frac (F32.pack neg low) = low % 2 ^ 23 := by
  rw [F32.frac, F32.toNat_pack neg h]
  cases neg <;> simp only [Bool.false_eq_true, if_false, if_true] <;> omega

/-- `fneg` flips bit 31 and nothing else. -/
theorem fneg_getLsbD (a : F32) {k : Nat} (h : k < 32) :
    (fneg a).getLsbD k = if k = 31 then !a.getLsbD 31 else a.getLsbD k := by
  have hmask : (0x80000000#32).getLsbD k = decide (k = 31) := by
    have : ∀ i : Fin 32, (0x80000000#32).getLsbD i = decide ((i : Nat) = 31) := by decide
    exact this ⟨k, h⟩
  rw [fneg, BitVec.getLsbD_xor, hmask]
  split_ifs with hk
  · subst hk; simp
  · simp [hk]

@[simp] theorem F32.sign_fneg (a : F32) : F32.sign (fneg a) = !F32.sign a :=
  fneg_getLsbD a (by decide)

theorem toNat_fneg_mod (a : F32) : (fneg a).toNat % 2 ^ 31 = a.toNat % 2 ^ 31 := by
  rw [fneg, BitVec.toNat_xor, Nat.xor_mod_two_pow]
  simp

@[simp] theorem F32.expo_fneg (a : F32) : F32.expo (fneg a) = F32.expo a := by
  have := toNat_fneg_mod a
  rw [F32.expo, F32.expo]
  omega

@[simp] theorem F32.frac_fneg (a : F32) : F32.frac (fneg a) = F32.frac a := by
  have := toNat_fneg_mod a
  rw [F32.frac, F32.frac]
  omega

@[simp] theorem F32.isNaN_fneg (a : F32) : F32.isNaN (fneg a) = F32.isNaN a := by simp [F32.isNaN]
@[simp] theorem F32.isInf_fneg (a : F32) : F32.isInf (fneg a) = F32.isInf a := by simp [F32.isInf]
@[simp] theorem F32.mag_fneg (a : F32) : F32.mag (fneg a) = F32.mag a := by simp [F32.mag]

@[simp] theorem F32.value_fneg (a : F32) : F32.value (fneg a) = -F32.value a := by
  cases h : F32.sign a <;> simp [F32.value, h]

/-! ### The kinds of data -/

theorem F32.isNaN_of_isFinite {a : F32} (h : F32.isFinite a = true) : F32.isNaN a = false := by
  simp_all [F32.isNaN, F32.isFinite]

theorem F32.isInf_of_isFinite {a : F32} (h : F32.isFinite a = true) : F32.isInf a = false := by
  simp_all [F32.isInf, F32.isFinite]

theorem F32.isNaN_of_isInf {a : F32} (h : F32.isInf a = true) : F32.isNaN a = false := by
  simp_all [F32.isNaN, F32.isInf]

theorem F32.isFinite_of_isZero {a : F32} (h : F32.isZero a = true) : F32.isFinite a = true := by
  simp_all [F32.isZero, F32.isFinite]

theorem F32.mag_of_isZero {a : F32} (h : F32.isZero a = true) : F32.mag a = 0 := by
  simp_all [F32.isZero, F32.mag]

/-- There is one infinity of each sign. -/
theorem F32.eq_of_isInf {a b : F32} (ha : F32.isInf a = true) (hb : F32.isInf b = true)
    (hs : F32.sign a = F32.sign b) : a = b := by
  simp only [F32.isInf, Bool.and_eq_true, beq_iff_eq] at ha hb
  exact F32.eq_of_fields hs (ha.1.trans hb.1.symm) (ha.2.trans hb.2.symm)

/-- The pattern drawn for a NaN is one. -/
@[simp] theorem isNaN_drawNaN (d : Draw) : F32.isNaN (drawNaN d) = true := by
  unfold drawNaN
  split_ifs with h
  · exact h
  · decide

/-! ### The operations by the kinds of their operands -/

theorem ieeeAdd_of_isNaN (d : Draw) {a b : F32} (h : F32.isNaN a = true ∨ F32.isNaN b = true) :
    ieeeAdd d a b = drawNaN d := by
  rw [ieeeAdd, if_pos (by simpa using h)]

theorem ieeeAdd_of_isFinite (d : Draw) {a b : F32} (ha : F32.isFinite a = true) (hb : F32.isFinite b = true) :
    ieeeAdd d a b = if F32.value a + F32.value b = 0 then F32.pack (F32.sign a && F32.sign b) 0
      else F32.pack (decide (F32.value a + F32.value b < 0)) (roundMag (F32.value a + F32.value b).natAbs 0) := by
  simp [ieeeAdd, F32.isNaN_of_isFinite ha, F32.isNaN_of_isFinite hb, F32.isInf_of_isFinite ha, F32.isInf_of_isFinite hb]

theorem ieeeMul_of_isNaN (d : Draw) {a b : F32} (h : F32.isNaN a = true ∨ F32.isNaN b = true) :
    ieeeMul d a b = drawNaN d := by
  rw [ieeeMul, if_pos (by simpa using h)]

theorem ieeeMul_of_isFinite (d : Draw) {a b : F32} (ha : F32.isFinite a = true) (hb : F32.isFinite b = true) :
    ieeeMul d a b = F32.pack (F32.sign a != F32.sign b) (roundMag (F32.mag a * F32.mag b) 149) := by
  simp [ieeeMul, F32.isNaN_of_isFinite ha, F32.isNaN_of_isFinite hb, F32.isInf_of_isFinite ha, F32.isInf_of_isFinite hb]

/-- Zero times infinity, either way round. -/
theorem ieeeMul_of_isInf_isZero (d : Draw) {a b : F32} (ha : F32.isInf a = true) (hb : F32.isZero b = true) :
    ieeeMul d a b = drawNaN d ∧ ieeeMul d b a = drawNaN d := by
  simp [ieeeMul, ha, hb, F32.isNaN_of_isInf ha, F32.isNaN_of_isFinite (F32.isFinite_of_isZero hb)]

@[simp] theorem roundMag_zero (t : Nat) : roundMag 0 t = 0 := by
  have : 1 - t - 24 = 0 := by omega
  simp [roundMag, roundShift, this]

/-! ### Commuting operands -/

theorem isNaN_operands_of_ieeeAdd {d : Draw} {a b : F32} (h : F32.isNaN (ieeeAdd d a b) = false) :
    F32.isNaN a = false ∧ F32.isNaN b = false := by
  by_contra hc
  rw [ieeeAdd_of_isNaN d (by simpa [Classical.or_iff_not_imp_left] using hc)] at h
  simp at h

theorem isNaN_operands_of_ieeeSub {d : Draw} {a b : F32} (h : F32.isNaN (ieeeSub d a b) = false) :
    F32.isNaN a = false ∧ F32.isNaN b = false := by
  simpa using isNaN_operands_of_ieeeAdd h

/-- A sum that is no NaN: of two infinities of one sign, of one infinity and a finite datum, or of two finite data. -/
theorem ieeeAdd_comm (d d' : Draw) {a b : F32} (h : F32.isNaN (ieeeAdd d a b) = false) :
    ieeeAdd d' b a = ieeeAdd d a b := by
  obtain ⟨ha, hb⟩ := isNaN_operands_of_ieeeAdd h
  cases hia : F32.isInf a <;> cases hib : F32.isInf b <;>
    simp only [ieeeAdd, ha, hb, hia, hib, Bool.or_false, Bool.false_eq_true, if_false, if_true, Bool.true_and,
      Bool.false_and] at h ⊢
  case false.false => rw [Int.add_comm, Bool.and_comm]
  case true.true =>
    by_cases hs : F32.sign a = F32.sign b
    · simp [F32.eq_of_isInf hia hib hs]
    · simp [hs] at h

/-- A sum that is no NaN does not depend on the draw. -/
theorem ieeeAdd_draw (d d' : Draw) {a b : F32} (h : F32.isNaN (ieeeAdd d a b) = false) :
    ieeeAdd d' a b = ieeeAdd d a b := by
  have hcomm := ieeeAdd_comm d d h
  rw [ieeeAdd_comm d d' (by rw [hcomm]; exact h), hcomm]

theorem ieeeSub_draw (d d' : Draw) {a b : F32} (h : F32.isNaN (ieeeSub d a b) = false) :
    ieeeSub d' a b = ieeeSub d a b :=
  ieeeAdd_draw d d' h

theorem ieeeMul_comm (d d' : Draw) {a b : F32} (h : F32.isNaN (ieeeMul d a b) = false) :
    ieeeMul d' b a = ieeeMul d a b := by
  have hsign : (F32.sign b != F32.sign a) = (F32.sign a != F32.sign b) := bne_comm
  unfold ieeeMul at h ⊢
  rw [Bool.or_comm (F32.isNaN b), Bool.or_comm (F32.isInf b), Bool.or_comm (F32.isZero b), hsign, Nat.mul_comm (F32.mag b)]
  split_ifs at h ⊢
  · simp at h
  · simp at h
  · rfl
  · rfl

/-- Settles O58: the sum and the product are written with commuting operations, and a component of the complex product that is
no NaN has no NaN among its two products. -/
theorem arithmeticCommutes : Obligations.ArithmeticCommutes := by
  refine ⟨fun d d' a b => ieeeAdd_comm d d', fun d d' a b => ieeeMul_comm d d', fun d d' a b hx hy => ?_⟩
  obtain ⟨hxx, hyy⟩ := isNaN_operands_of_ieeeSub hx
  obtain ⟨hxy, hyx⟩ := isNaN_operands_of_ieeeAdd hy
  simp only [cmul, fadd, fsub, fmul, Cplx.mk.injEq] at hx hy hxx hyy hxy hyx ⊢
  constructor
  · rw [ieeeMul_comm _ _ hxx, ieeeMul_comm _ _ hyy, ieeeSub_draw _ _ hx]
  · rw [ieeeMul_comm _ _ hxy, ieeeMul_comm _ _ hyx, ieeeAdd_comm _ _ hy]

/-! ### NaNs and signed zeros -/

theorem ieeeSub_self_of_isInf (d : Draw) {a : F32} (h : F32.isInf a = true) : ieeeSub d a a = drawNaN d := by
  simp [ieeeSub, ieeeAdd, F32.isNaN_of_isInf h, h]

theorem ieeeSub_self_of_isFinite (d : Draw) {a : F32} (h : F32.isFinite a = true) : ieeeSub d a a = 0#32 := by
  rw [ieeeSub, ieeeAdd_of_isFinite d h (by simpa [F32.isFinite] using h)]
  simp [F32.pack]

theorem ieeeMul_of_isZero_right (d : Draw) {a b : F32} (ha : F32.isFinite a = true) (hb : F32.isZero b = true) :
    ieeeMul d a b = if F32.sign a = F32.sign b then 0x00000000#32 else 0x80000000#32 := by
  rw [ieeeMul_of_isFinite d ha (F32.isFinite_of_isZero hb), F32.mag_of_isZero hb, Nat.mul_zero, roundMag_zero]
  split_ifs with hs <;> simp [hs, F32.pack]

/-- Settles O59, rule by rule. -/
theorem naNAndSignedZeroRules : Obligations.NaNAndSignedZeroRules := by
  refine ⟨fun d a b h => ⟨?_, ?_, ?_⟩, fun d a h => ?_, fun d a b ha hb => ?_, fun d a => ieeeSub_self_of_isFinite d,
    fun d => ⟨?_, ?_⟩, fun d a b => ieeeMul_of_isZero_right d, fun a k => fneg_getLsbD a⟩
  · rw [fadd, ieeeAdd_of_isNaN d h, isNaN_drawNaN]
  · rw [fsub, ieeeSub, ieeeAdd_of_isNaN d (by simpa using h), isNaN_drawNaN]
  · rw [fmul, ieeeMul_of_isNaN d h, isNaN_drawNaN]
  · rw [fsub, ieeeSub_self_of_isInf d h, isNaN_drawNaN]
  · obtain ⟨hab, hba⟩ := ieeeMul_of_isInf_isZero d ha hb
    rw [fmul, fmul, hab, hba, isNaN_drawNaN, and_self]
  · rw [fadd, ieeeAdd_of_isFinite d (by decide) (by decide)]; decide
  · rw [fadd, ieeeAdd_of_isFinite d (by decide) (by decide)]; decide

/-! ### Rounding to nearest -/

/-- A finite magnitude is a significand of at most 24 bits times a power of two. -/
theorem F32.mag_eq_mul_pow (a : F32) : ∃ m k, m < 2 ^ 24 ∧ F32.mag a = m * 2 ^ k := by
  have hf : F32.frac a < 2 ^ 23 := Nat.mod_lt _ (by positivity)
  unfold F32.mag
  split_ifs
  · exact ⟨F32.frac a, 0, by omega, by simp⟩
  · exact ⟨F32.frac a + 2 ^ 23, F32.expo a - 1, by omega, rfl⟩

/-- What `roundMag` assembles: `q` units of `2^e`, the carry of a significand that reached 2^24 included. -/
theorem F32.mag_pack_significand (neg : Bool) {e q : Nat} (hq : q ≤ 2 ^ 24) (he : e ≠ 0 → 2 ^ 23 ≤ q)
    (h : e * 2 ^ 23 + q < 2 ^ 31) : F32.mag (F32.pack neg (e * 2 ^ 23 + q)) = q * 2 ^ e := by
  rw [F32.mag, F32.expo_pack neg h, F32.frac_pack neg h]
  rcases Nat.lt_or_ge q (2 ^ 23) with h1 | h1
  · obtain rfl : e = 0 := by_contra fun hc => absurd (he hc) (by omega)
    rw [if_pos (by omega), pow_zero]
    omega
  rcases Nat.lt_or_ge q (2 ^ 24) with h2 | h2
  · rw [if_neg (by omega), show (e * 2 ^ 23 + q) / 2 ^ 23 - 1 = e by omega,
      show (e * 2 ^ 23 + q) % 2 ^ 23 + 2 ^ 23 = q by omega]
  · rw [if_neg (by omega), show (e * 2 ^ 23 + q) / 2 ^ 23 - 1 = e + 1 by omega,
      show (e * 2 ^ 23 + q) % 2 ^ 23 + 2 ^ 23 = 2 ^ 23 by omega, show q = 2 ^ 23 * 2 by omega]
    ring

/-- Rounded down or up, to the side that is not the farther one. -/
theorem roundShift_cases (mag sh : Nat) :
    roundShift mag sh = mag / 2 ^ sh ∧ 2 * (mag % 2 ^ sh) ≤ 2 ^ sh
      ∨ roundShift mag sh = mag / 2 ^ sh + 1 ∧ 2 ^ sh ≤ 2 * (mag % 2 ^ sh) := by
  simp only [roundShift]
  split_ifs <;> omega

/-- No multiple of `2^sh` is nearer to `mag` than the rounded one: those up to the quotient are below by the remainder or more,
the others above by the rest of a unit or more. -/
theorem roundShift_nearest (mag sh k : Nat) :
    |(roundShift mag sh : ℤ) * 2 ^ sh - mag| ≤ |(k : ℤ) * 2 ^ sh - mag| := by
  have hround := roundShift_cases mag sh
  have hrem : mag % 2 ^ sh < 2 ^ sh := Nat.mod_lt _ (by positivity)
  have hdiv : (mag : ℤ) = 2 ^ sh * (mag / 2 ^ sh : ℕ) + (mag % 2 ^ sh : ℕ) := by
    exact_mod_cast (Nat.div_add_mod mag (2 ^ sh)).symm
  generalize mag / 2 ^ sh = q at hround hdiv
  generalize mag % 2 ^ sh = r at hround hdiv hrem
  have hunit : ((2 ^ sh : ℕ) : ℤ) = 2 ^ sh := by push_cast; rfl
  generalize 2 ^ sh = u at hround hrem hunit
  rw [← hunit] at hdiv ⊢
  have hother : (r : ℤ) ≤ |(k : ℤ) * u - mag| ∧ k ≤ q ∨ (u : ℤ) - r ≤ |(k : ℤ) * u - mag| ∧ q < k := by
    rcases Nat.lt_or_ge q k with hk | hk
    · have : ((q : ℤ) + 1) * u ≤ k * u := by exact_mod_cast Nat.mul_le_mul_right u hk
      exact .inr ⟨le_trans (by linarith) (le_abs_self _), hk⟩
    · have : (k : ℤ) * u ≤ q * u := by exact_mod_cast Nat.mul_le_mul_right u hk
      exact .inl ⟨le_trans (by linarith) (neg_le_abs _), hk⟩
  rcases hround with ⟨h, hr⟩ | ⟨h, hr⟩
  · rw [h, show (q : ℤ) * u - mag = -r by rw [hdiv]; ring, abs_neg, Nat.abs_cast]
    omega
  · rw [h, show ((q + 1 : ℕ) : ℤ) * u - mag = (u - r : ℕ) by push_cast [hrem.le]; rw [hdiv]; ring, Nat.abs_cast]
    omega

theorem roundShift_le {mag sh n : Nat} (h : mag < n * 2 ^ sh) : roundShift mag sh ≤ n := by
  have hq : mag / 2 ^ sh < n := Nat.div_lt_of_lt_mul (by rwa [Nat.mul_comm])
  rcases roundShift_cases mag sh with ⟨h, _⟩ | ⟨h, _⟩ <;> omega

theorem le_roundShift {mag sh n : Nat} (h : n * 2 ^ sh ≤ mag) : n ≤ roundShift mag sh := by
  have hq : n ≤ mag / 2 ^ sh := (Nat.le_div_iff_mul_le (by positivity)).2 h
  rcases roundShift_cases mag sh with ⟨h, _⟩ | ⟨h, _⟩ <;> omega

/-- The exponent `roundMag` rounds at: the unit is `2^e` in units of 2^-149, at least 1 of them (gradual underflow). -/
def roundExpo (mag t : Nat) : Nat := Nat.log2 mag + 1 - t - 24

theorem roundMag_eq (mag t : Nat) :
    roundMag mag t = min (roundExpo mag t * 2 ^ 23 + roundShift mag (t + roundExpo mag t)) 0x7F800000 := rfl

/-- The significand has at most 24 bits before it is rounded. -/
theorem lt_unit_of_roundExpo (mag t : Nat) : mag < 2 ^ 24 * 2 ^ (t + roundExpo mag t) := by
  rw [← pow_add]
  exact Nat.lt_of_lt_of_le Nat.lt_log2_self (Nat.pow_le_pow_right (by decide) (by unfold roundExpo; omega))

/-- Above the gradual underflow it has 24. -/
theorem unit_le_of_roundExpo {mag t : Nat} (h : roundExpo mag t ≠ 0) : 2 ^ 23 * 2 ^ (t + roundExpo mag t) ≤ mag := by
  have h0 : mag ≠ 0 := by rintro rfl; simp [roundExpo] at h; omega
  have hlog : 23 + (t + roundExpo mag t) = Nat.log2 mag := by unfold roundExpo at h ⊢; omega
  rw [← pow_add, hlog]
  exact Nat.log2_self_le h0

/-- The magnitude of a rounded result that did not overflow. -/
theorem F32.mag_pack_roundMag {neg : Bool} {mag t : Nat} (h : F32.isFinite (F32.pack neg (roundMag mag t)) = true) :
    F32.mag (F32.pack neg (roundMag mag t)) = roundShift mag (t + roundExpo mag t) * 2 ^ roundExpo mag t := by
  have hlow : roundMag mag t < 2 ^ 31 := by rw [roundMag_eq]; omega
  have hexpo : roundMag mag t / 2 ^ 23 ≠ 255 := by simpa [F32.isFinite, F32.expo_pack neg hlow] using h
  have heq := roundMag_eq mag t
  rw [min_eq_left (by omega)] at heq
  rw [heq]
  exact F32.mag_pack_significand neg (roundShift_le (lt_unit_of_roundExpo mag t))
    (fun he => le_roundShift (unit_le_of_roundExpo he)) (by omega)

/-- Every datum is as far from `mag` as some whole number of units, or farther: it is a whole number of units itself, or it lies
below the smallest significand of 24 bits, and so below `mag`. -/
theorem exists_units_as_near (mag t : Nat) (f : F32) :
    ∃ k : Nat, |(k : ℤ) * 2 ^ (t + roundExpo mag t) - mag| ≤ |(F32.mag f : ℤ) * 2 ^ t - mag| := by
  obtain ⟨m, j, hm, hf⟩ := F32.mag_eq_mul_pow f
  rw [hf]
  rcases Nat.lt_or_ge j (roundExpo mag t) with hj | hj
  · refine ⟨2 ^ 23, ?_⟩
    have hmag := unit_le_of_roundExpo (mag := mag) (t := t) (by omega)
    have hbelow : m * 2 ^ j * 2 ^ t ≤ 2 ^ 23 * 2 ^ (t + roundExpo mag t) :=
      calc m * 2 ^ j * 2 ^ t ≤ 2 ^ 24 * 2 ^ j * 2 ^ t := by gcongr
        _ = 2 ^ 23 * 2 ^ (t + (j + 1)) := by ring
        _ ≤ 2 ^ 23 * 2 ^ (t + roundExpo mag t) := by gcongr <;> omega
    zify at hmag hbelow
    push_cast
    rw [abs_of_nonpos (by linarith), abs_of_nonpos (by linarith)]
    linarith
  · refine ⟨m * 2 ^ (j - roundExpo mag t), le_of_eq ?_⟩
    obtain ⟨i, rfl⟩ := Nat.exists_eq_add_of_le hj
    rw [Nat.add_sub_cancel_left]
    push_cast
    ring_nf

theorem roundMag_nearest {neg : Bool} {mag t : Nat} (h : F32.isFinite (F32.pack neg (roundMag mag t)) = true) (f : F32) :
    |(F32.mag (F32.pack neg (roundMag mag t)) : ℤ) * 2 ^ t - mag| ≤ |(F32.mag f : ℤ) * 2 ^ t - mag| := by
  obtain ⟨k, hk⟩ := exists_units_as_near mag t f
  refine le_trans (le_of_eq_of_le ?_ (roundShift_nearest mag _ k)) hk
  rw [F32.mag_pack_roundMag h]
  push_cast
  ring_nf

theorem F32.abs_value (a : F32) : |F32.value a| = F32.mag a := by
  unfold F32.value
  split_ifs <;> simp

/-- A result of the exact result's sign whose magnitude is the rounded one is nearest among the signed data too. -/
theorem value_pack_roundMag_nearest {neg : Bool} {t : Nat} {v : ℤ} (hv : v = if neg then -(v.natAbs : ℤ) else v.natAbs)
    (h : F32.isFinite (F32.pack neg (roundMag v.natAbs t)) = true) (f : F32) :
    |F32.value (F32.pack neg (roundMag v.natAbs t)) * 2 ^ t - v| ≤ |F32.value f * 2 ^ t - v| := by
  have hlow : roundMag v.natAbs t < 2 ^ 31 := by rw [roundMag_eq]; omega
  calc |F32.value (F32.pack neg (roundMag v.natAbs t)) * 2 ^ t - v|
      = |(F32.mag (F32.pack neg (roundMag v.natAbs t)) : ℤ) * 2 ^ t - v.natAbs| := by
        rw [F32.value, F32.sign_pack neg hlow]
        generalize (F32.mag (F32.pack neg (roundMag v.natAbs t)) : ℤ) = m
        generalize v.natAbs = n at hv
        subst hv
        cases neg
        · simp
        · rw [← abs_neg, if_pos rfl, if_pos rfl]; ring_nf
    _ ≤ |(F32.mag f : ℤ) * 2 ^ t - v.natAbs| := roundMag_nearest h f
    _ = |(|F32.value f * 2 ^ t| - |v|)| := by
        rw [abs_mul, F32.abs_value, abs_of_nonneg (by positivity : (0 : ℤ) ≤ 2 ^ t), Int.natCast_natAbs]
    _ ≤ |F32.value f * 2 ^ t - v| := abs_abs_sub_abs_le _ _

theorem ieeeAdd_nearest (d : Draw) {a b : F32} (ha : F32.isFinite a = true) (hb : F32.isFinite b = true)
    (h : F32.isFinite (ieeeAdd d a b) = true) (f : F32) :
    |F32.value (ieeeAdd d a b) - (F32.value a + F32.value b)| ≤ |F32.value f - (F32.value a + F32.value b)| := by
  rw [ieeeAdd_of_isFinite d ha hb] at h ⊢
  generalize F32.value a + F32.value b = v at h ⊢
  by_cases hv : v = 0
  · rw [if_pos hv, hv, F32.value, F32.mag, F32.expo_pack _ (by decide), F32.frac_pack _ (by decide)]
    simp
  · rw [if_neg hv] at h ⊢
    have hsign : v = if decide (v < 0) then -(v.natAbs : ℤ) else v.natAbs := by
      simp only [decide_eq_true_eq]
      split_ifs <;> omega
    simpa using value_pack_roundMag_nearest hsign h f

/-- The product of two values, by magnitude and sign. -/
theorem F32.value_mul (a b : F32) :
    F32.value a * F32.value b
      = if F32.sign a != F32.sign b then -((F32.mag a * F32.mag b : ℕ) : ℤ) else (F32.mag a * F32.mag b : ℕ) := by
  cases ha : F32.sign a <;> cases hb : F32.sign b <;> simp [F32.value, ha, hb]

theorem ieeeMul_nearest (d : Draw) {a b : F32} (ha : F32.isFinite a = true) (hb : F32.isFinite b = true)
    (h : F32.isFinite (ieeeMul d a b) = true) (f : F32) :
    |F32.value (ieeeMul d a b) * 2 ^ 149 - F32.value a * F32.value b|
      ≤ |F32.value f * 2 ^ 149 - F32.value a * F32.value b| := by
  have hmag : F32.mag a * F32.mag b = (F32.value a * F32.value b).natAbs := by
    zify
    rw [abs_mul, F32.abs_value, F32.abs_value]
  have hsign := F32.value_mul a b
  rw [ieeeMul_of_isFinite d ha hb] at h ⊢
  rw [hmag] at h hsign ⊢
  exact value_pack_roundMag_nearest hsign h f

/-- Settles O60: the magnitude is rounded to the nearest whole number of units, and no datum is nearer than every whole number
of units. -/
theorem arithmeticRoundsToNearest : Obligations.ArithmeticRoundsToNearest :=
  fun d _ _ f ha hb _ => ⟨fun h => ieeeAdd_nearest d ha hb h f, fun h => ieeeMul_nearest d ha hb h f⟩

end Sys2Proof.Machine
end

section
/-! PROOFS. Frames: what no command changes of the system and of the other nodes, and everything a step other than the host's reset can do
to one node, by whose turn it is (spec 44_pipeline_driver.md R200, 60_exceptions.md R243, R244). -/

namespace Sys2Proof.Machine

/-! ### What no command changes of the system -/

/-- What surrounds the engines and no command touches: the parameters, the regions, whose turn it is and the coming events (20_memory.md R66,
R67). -/
def State.surround (s : State) : Params × Memory × Memory × Nat × List Event :=
  (s.params, s.inRegion, s.outRegion, s.node, s.events)

@[simp] theorem State.surround_modCur (s : State) (f : Engine → Engine) : (s.modCur f).surround = s.surround := rfl

@[simp] theorem State.surround_tick (s : State) : s.tick.surround = s.surround := rfl

@[simp] theorem State.surround_arrive (s : State) : s.arrive.surround = s.surround := rfl

@[simp] theorem State.surround_settle (s : State) (b : Buf) : (s.settle b).surround = s.surround := by
  simp [State.surround]

@[simp] theorem State.surround_fenced (s : State) : s.fenced.surround = s.surround := by
  rcases s.fenced_cases with ⟨_, h⟩ | ⟨_, h⟩ <;> simp [h]

@[simp] theorem State.surround_waitBarrier (s : State) : s.waitBarrier.surround = s.surround := by
  rcases s.waitBarrier_cases with ⟨_, h⟩ | ⟨_, h⟩ <;> simp [h]

@[simp] theorem State.surround_pass (s : State) : s.pass.surround = s.surround := by
  rcases s.pass_cases with ⟨_, h⟩ | ⟨_, h⟩ <;> simp [h]

@[simp] theorem State.surround_announce (s : State) : s.announce.surround = s.surround := by
  rcases s.announce_cases with ⟨_, h⟩ | ⟨_, h⟩ <;> simp [h]

theorem State.surround_send {s t : State} {b : Buf} (h : s.send b = some t) : t.surround = s.surround := by
  obtain ⟨_, _, _, _, rfl⟩ := State.send_cases h
  rfl

theorem exec_surround {i : Instr} {s t : State} (h : exec i s = .next t) : t.surround = s.surround := by
  cases i with
  | twgen | brgen | ctgen | next | halt => cases h; rfl
  | ingest b => rcases execIngest_cases h with ⟨_, rfl⟩ | ⟨_, rfl⟩ | ⟨_, _, rfl⟩ <;> simp [State.ingested]
  | transpose b =>
    rcases execTranspose_cases h with ⟨_, rfl⟩ | ⟨_, rfl⟩ | ⟨u, hu, rfl⟩
    exacts [s.surround_announce, s.surround_pass, u.surround_announce.trans (State.surround_send hu)]
  | fft b => obtain ⟨m, _, rfl⟩ := execFft_cases h; simp [State.rewrote]
  | correct b => obtain ⟨m, _, rfl⟩ := execCorrect_cases h; simp [State.rewrote]
  | emit b =>
    rcases execEmit_cases h with ⟨_, rfl⟩ | ⟨_, rfl⟩ | h
    · rfl
    · exact s.surround_fenced
    · obtain ⟨_, _, rfl⟩ := State.handOver_cases h
      rfl
  | barrier => rcases execBarrier_cases h with ⟨_, rfl⟩ | ⟨_, rfl⟩ <;> simp

theorem exec_node {i : Instr} {s t : State} (h : exec i s = .next t) : t.node = s.node :=
  congrArg (fun w => w.2.2.2.1) (exec_surround h)

theorem exec_inRegion {i : Instr} {s t : State} (h : exec i s = .next t) : t.inRegion = s.inRegion :=
  congrArg (fun w => w.2.1) (exec_surround h)

theorem exec_outRegion {i : Instr} {s t : State} (h : exec i s = .next t) : t.outRegion = s.outRegion :=
  congrArg (fun w => w.2.2.1) (exec_surround h)

/-- The node whose turn a command was is still the one whose turn it is. -/
theorem exec_turnOf_cur {i : Instr} {s t : State} {q : Nat} (h : exec i (s.turnOf q) = .next t) : t.cur = t.eng q :=
  congrArg t.eng (exec_node h)

/-! ### What a command leaves of the other nodes -/

theorem State.eng_one_of_ne (s : State) {q : Nat} (f : Engine → Engine) (hq : q ≠ s.node) :
    (s.modCur f).tick.eng q = s.eng q :=
  s.eng_modCur_of_ne f hq

theorem State.eng_fenced_of_ne (s : State) {q : Nat} (hq : q ≠ s.node) : s.fenced.eng q = s.eng q := by
  rcases s.fenced_cases with ⟨_, h⟩ | ⟨_, h⟩ <;> rw [h]
  exact s.eng_one_of_ne _ hq

theorem State.eng_waitBarrier_of_ne (s : State) {q : Nat} (hq : q ≠ s.node) : s.waitBarrier.eng q = s.eng q := by
  rcases s.waitBarrier_cases with ⟨_, h⟩ | ⟨_, h⟩ <;> rw [h]
  exact s.eng_one_of_ne _ hq

theorem State.eng_arrive_of_ne (s : State) {q : Nat} (hq : q ≠ s.node) : s.arrive.eng q = s.eng q :=
  State.eng_modCur_of_ne { s with arrivals := s.arrivals.set s.node (s.arrivalsOf s.node + 1) } _ hq

theorem State.eng_pass_of_ne (s : State) {q : Nat} (hq : q ≠ s.node) : s.pass.eng q = s.eng q := by
  rcases s.pass_cases with ⟨_, h⟩ | ⟨_, h⟩ <;> rw [h]
  exact s.eng_one_of_ne _ hq

theorem State.eng_announce_of_ne (s : State) {q : Nat} (hq : q ≠ s.node) : s.announce.eng q = s.eng q := by
  rcases s.announce_cases with ⟨_, h⟩ | ⟨_, h⟩ <;> rw [h]
  exact (State.eng_pass_of_ne (s.modCur Engine.announced) hq).trans (s.eng_modCur_of_ne _ hq)

theorem State.eng_send_of_ne {s t : State} {b : Buf} {q : Nat} (h : s.send b = some t) (hq : q ≠ s.node) :
    t.eng q = s.eng q := by
  obtain ⟨_, _, _, _, rfl⟩ := State.send_cases h
  exact s.eng_one_of_ne _ hq

/-- The commands that replace a buffer change of another node which racing writes are still in flight (20_memory.md R91). -/
theorem State.eng_settleThen_of_ne (s : State) (b : Buf) {q : Nat} (f : Engine → Engine) (hq : q ≠ s.node) :
    ((s.settle b).modCur f).tick.eng q
      = { s.eng q with outstanding := (((s.settle b).modCur f).tick.eng q).outstanding } := by
  rw [(s.settle b).eng_one_of_ne f (by simpa using hq)]
  exact s.eng_settle b q

theorem exec_eng_of_ne {i : Instr} {s t : State} {q : Nat} (h : exec i s = .next t) (hq : q ≠ s.node) :
    t.eng q = { s.eng q with outstanding := (t.eng q).outstanding } := by
  have of_eq : t.eng q = s.eng q → t.eng q = { s.eng q with outstanding := (t.eng q).outstanding } := fun he => by rw [he]
  cases i with
  | twgen | brgen | ctgen | next | halt => cases h; exact of_eq (s.eng_one_of_ne _ hq)
  | ingest b =>
    rcases execIngest_cases h with ⟨_, rfl⟩ | ⟨_, rfl⟩ | ⟨_, _, rfl⟩
    exacts [rfl, s.eng_settleThen_of_ne b _ hq, of_eq (s.eng_modCur_of_ne _ hq)]
  | transpose b =>
    refine of_eq ?_
    rcases execTranspose_cases h with ⟨_, rfl⟩ | ⟨_, rfl⟩ | ⟨u, hu, rfl⟩
    · exact s.eng_announce_of_ne hq
    · exact s.eng_pass_of_ne hq
    · have hnode : u.node = s.node := congrArg (fun w => w.2.2.2.1) (State.surround_send hu)
      exact (u.eng_announce_of_ne (hnode ▸ hq)).trans (State.eng_send_of_ne hu hq)
  | fft b => obtain ⟨m, _, rfl⟩ := execFft_cases h; exact s.eng_settleThen_of_ne b _ hq
  | correct b => obtain ⟨m, _, rfl⟩ := execCorrect_cases h; exact s.eng_settleThen_of_ne b _ hq
  | emit b =>
    refine of_eq ?_
    rcases execEmit_cases h with ⟨_, rfl⟩ | ⟨_, rfl⟩ | h
    · rfl
    · exact s.eng_fenced_of_ne hq
    · obtain ⟨_, _, rfl⟩ := State.handOver_cases h
      exact s.eng_one_of_ne _ hq
  | barrier =>
    refine of_eq ?_
    rcases execBarrier_cases h with ⟨_, rfl⟩ | ⟨_, rfl⟩
    exacts [s.eng_waitBarrier_of_ne hq, (s.arrive.eng_waitBarrier_of_ne hq).trans (s.eng_arrive_of_ne hq)]

/-! ### What the turns of others leave of a node -/

/-- The node stands aside while another takes its turn: a peer or the fabric may reach its buffers, its counter, its in-flight sets and the
answer it waits for, and nothing else of it (20_memory.md R77, 60_exceptions.md R244). -/
inductive Engine.Aside (e : Engine) : Engine → Prop
  | mk (bufA bufB : Memory) (stage : Stage) (rdv : BitVec 32) (outstanding : List Transfer) (pendingAdd : List Nat)
      (outPending : List OutWrite) :
      e.Aside
        { e with
          bufA := bufA, bufB := bufB, stage := stage, rdv := rdv, outstanding := outstanding, pendingAdd := pendingAdd,
          outPending := outPending }

theorem Engine.Aside.refl (e : Engine) : e.Aside e :=
  .mk e.bufA e.bufB e.stage e.rdv e.outstanding e.pendingAdd e.outPending

theorem Engine.Aside.trans {e e1 e2 : Engine} (h : e.Aside e1) (h' : e1.Aside e2) : e.Aside e2 := by
  cases h
  cases h'
  exact .mk _ _ _ _ _ _ _

theorem Engine.Aside.cfg {e e' : Engine} (h : e.Aside e') : e'.cfg = e.cfg := by cases h; rfl

theorem Engine.Aside.pc {e e' : Engine} (h : e.Aside e') : e'.pc = e.pc := by cases h; rfl

theorem Engine.Aside.iterLeft {e e' : Engine} (h : e.Aside e') : e'.iterLeft = e.iterLeft := by cases h; rfl

theorem Engine.Aside.sameTables {e e' : Engine} (h : e.Aside e') : e.SameTables e' := by
  cases h
  exact .of_eq rfl

theorem State.aside_modEng (s : State) (p q : Nat) {f : Engine → Engine} (h : ∀ e : Engine, e.Aside (f e)) :
    (s.eng q).Aside ((s.modEng p f).eng q) := by
  rw [State.eng_modEng]
  split_ifs with hq
  · rw [hq.1]; exact h _
  · exact .refl _

theorem Engine.aside_setBuf (e : Engine) (b : Buf) (m : Memory) : e.Aside (e.setBuf b m) := by
  cases b
  · exact .mk m e.bufB e.stage e.rdv e.outstanding e.pendingAdd e.outPending
  · exact .mk e.bufA m e.stage e.rdv e.outstanding e.pendingAdd e.outPending

/-- What an event of the world other than the host's reset does to a node. -/
theorem State.perform_aside {s t : State} {ev : Event} (h : s.perform ev = .next t) (hr : ev ≠ .reset) (q : Nat) :
    ev = .start q ∧ t.eng q = (s.eng q).start ∨ (s.eng q).Aside (t.eng q) := by
  cases ev with
  | reset => exact absurd rfl hr
  | sequencer p => cases h; exact .inr (.refl _)
  | start p =>
    cases h
    rw [State.eng_modEng]
    split_ifs with hq
    · rw [hq.1]; exact .inl ⟨rfl, rfl⟩
    · exact .inr (.refl _)
  | answer p =>
    cases h
    refine .inr (s.aside_modEng p q fun e => ?_)
    rw [e.answered_eq]
    exact .mk e.bufA e.bufB e.answered.stage e.rdv e.outstanding e.pendingAdd e.outPending
  | deliver p i x k =>
    rcases State.deliver_cases h with rfl | ⟨tr, _, _, _, _, rfl⟩
    · exact .inr (.refl _)
    · refine .inr (.trans (s.aside_modEng _ q fun e => e.aside_setBuf _ _) (State.aside_modEng _ p q fun e => ?_))
      exact .mk e.bufA e.bufB e.stage e.rdv (e.performed i (x, k)).outstanding e.pendingAdd e.outPending
  | add p i =>
    rcases State.performAdd_cases h with rfl | ⟨q', _, _, rfl⟩
    · exact .inr (.refl _)
    · refine .inr (.trans (s.aside_modEng q' q fun e => ?_) (State.aside_modEng _ p q fun e => ?_))
      · exact .mk e.bufA e.bufB e.stage (e.rdv + 1) e.outstanding e.pendingAdd e.outPending
      · exact .mk e.bufA e.bufB e.stage e.rdv e.outstanding (e.pendingAdd.eraseIdx i) e.outPending
  | outWrite p i =>
    rcases State.performOut_cases h with rfl | ⟨w, _, _, rfl⟩
    · exact .inr (.refl _)
    · refine .inr (State.aside_modEng { s with outRegion := s.outRegion.write w.off w.val } p q fun e => ?_)
      exact .mk e.bufA e.bufB e.stage e.rdv e.outstanding e.pendingAdd (e.outPending.eraseIdx i)

/-- What an event of the world other than the host's reset does to a rendezvous counter: the agent of an increment adds 1 to the counter
of the node the increment names (10_state.md R43). -/
theorem State.perform_rdv {s t : State} {ev : Event} (h : s.perform ev = .next t) (hr : ev ≠ .reset) (q : Nat) :
    (t.eng q).rdv = (s.eng q).rdv
      ∨ (∃ p i, ev = .add p i ∧ (s.eng p).pendingAdd[i]? = some q) ∧ (t.eng q).rdv = (s.eng q).rdv + 1 := by
  cases ev with
  | reset => exact absurd rfl hr
  | sequencer p => cases h; exact .inl rfl
  | start p =>
    cases h
    exact .inl (s.eng_modEng_keeps p q _ Engine.rdv fun e => by unfold Engine.start; split <;> rfl)
  | answer p => cases h; exact .inl (s.eng_modEng_keeps p q _ Engine.rdv Engine.answered_rdv)
  | deliver p i x k =>
    rcases State.deliver_cases h with rfl | ⟨tr, _, _, _, _, rfl⟩
    · exact .inl rfl
    · refine .inl ((State.eng_modEng_keeps _ p q (Engine.performed i (x, k)) Engine.rdv fun e => rfl).trans ?_)
      exact s.eng_modEng_keeps _ q _ Engine.rdv fun e => e.peerWrite_rdv _ _ _ _
  | add p i =>
    rcases State.performAdd_cases h with rfl | ⟨q', hp, hq', rfl⟩
    · exact .inl rfl
    · have hkeep := (s.modEng q' Engine.cntAdd).eng_modEng_keeps p q
        (fun e => { e with pendingAdd := e.pendingAdd.eraseIdx i }) Engine.rdv fun e => rfl
      rw [hkeep, State.eng_modEng]
      split_ifs with hq
      · rw [hq.1]; exact .inr ⟨⟨p, i, rfl, hp⟩, rfl⟩
      · exact .inl rfl
  | outWrite p i =>
    rcases State.performOut_cases h with rfl | ⟨w, _, _, rfl⟩
    · exact .inl rfl
    · exact .inl (State.eng_modEng_keeps { s with outRegion := s.outRegion.write w.off w.val } p q
        (fun e => { e with outPending := e.outPending.eraseIdx i }) Engine.rdv fun e => rfl)

/-- Everything a step other than the host's reset can do to node `q`: its sequencer runs the command at its `PC` or takes the fault of an
illegal fetch, the host starts it, or another takes its turn. -/
theorem step_node_cases {s t : State} (h : step s = .next t) (hr : s.events.head? ≠ some .reset) (q : Nat) :
    (∃ i, s.runs q i ∧ exec i (s.turnOf q) = .next t)
      ∨ (s.eng q).run = .running ∧ t.eng q = (s.eng q).fatalEntry .illegalCmd
      ∨ s.events.head? = some (.start q) ∧ t.eng q = (s.eng q).start
      ∨ (s.eng q).Aside (t.eng q) ∧ ((t.eng q).rdv = (s.eng q).rdv
          ∨ (∃ p i, s.events.head? = some (.add p i) ∧ (s.eng p).pendingAdd[i]? = some q)
            ∧ (t.eng q).rdv = (s.eng q).rdv + 1) := by
  obtain ⟨_, ⟨p, i, hp, h⟩ | ⟨p, hp, rfl⟩ | ⟨p, rfl⟩ | ⟨ev, hev, _, h⟩⟩ := step_turns h
  · by_cases hq : q = p
    · subst hq; exact .inl ⟨i, hp, h⟩
    · have he := exec_eng_of_ne (s := s.turnOf p) h hq
      rw [State.turnOf_eng] at he
      rw [he]
      exact .inr (.inr (.inr ⟨.mk _ _ _ _ _ _ _, .inl rfl⟩))
  · by_cases hq : q = p
    · subst hq
      exact .inr (.inl ⟨hp, State.cur_modCur (s.turnOf q) _ (State.node_lt_of_running (s := s.turnOf q) hp)⟩)
    · have he : (s.turnOf p).illegalFetch.eng q = s.eng q := State.eng_modCur_of_ne (s.turnOf p) _ hq
      rw [he]
      exact .inr (.inr (.inr ⟨.refl _, .inl rfl⟩))
  · exact .inr (.inr (.inr ⟨.refl _, .inl rfl⟩))
  · have hne : ev ≠ .reset := fun he => hr (he ▸ hev)
    rcases State.perform_aside h hne q with ⟨rfl, he⟩ | ha
    · exact .inr (.inr (.inl ⟨hev, he⟩))
    · refine .inr (.inr (.inr ⟨ha, (State.perform_rdv h hne q).imp_right ?_⟩))
      rintro ⟨⟨p, i, rfl, hpi⟩, hrdv⟩
      exact ⟨⟨p, i, hev, hpi⟩, hrdv⟩

end Sys2Proof.Machine
end

section
/-! PROOFS. The invariants of one engine that every step keeps: canonical memories, a status word that agrees with `RUN`, transfers with
something left to write (spec 10_state.md R31, R32, R39, R44); and the state after reset. -/

namespace Sys2Proof.Machine

/-! ### Canonical memories -/

theorem Engine.memWf_iff (e : Engine) :
    e.memWf = true ↔ (∀ b, (e.buf b).wf = true) ∧ e.tw.wf = true ∧ e.br.wf = true ∧ e.ct.wf = true := by
  have hbuf : (∀ b, (e.buf b).wf = true) ↔ e.bufA.wf = true ∧ e.bufB.wf = true :=
    ⟨fun h => ⟨h .A, h .B⟩, fun h b => by cases b; exacts [h.1, h.2]⟩
  simp only [Engine.memWf, Bool.and_eq_true, hbuf, and_assoc]

theorem EngineMoves.memWf {e e' : Engine} (h : EngineMoves e e') (hw : e.memWf = true) : e'.memWf = true := by
  induction h with
  | trans _ _ ih ih' => exact ih' (ih hw)
  | buffer e b m hm =>
    rw [Engine.memWf_iff] at hw ⊢
    obtain ⟨hbuf, htw, hbr, hct⟩ := hw
    refine ⟨fun c => ?_, by simpa using htw, by simpa using hbr, by simpa using hct⟩
    rw [Engine.setBuf_buf]
    split_ifs
    exacts [hm.1 (hbuf b), hbuf c]
  | tables e tw br ct twLen brLen htw hbr hct =>
    rw [Engine.memWf_iff] at hw ⊢
    obtain ⟨hbuf, hw1, hw2, hw3⟩ := hw
    exact ⟨hbuf, htw hw1, hbr hw2, hct hw3⟩
  | _ => exact hw

theorem Engine.start_memWf (e : Engine) : e.start.memWf = e.memWf := by
  unfold Engine.start
  split <;> rfl

/-! ### The regions -/

/-- An event of the world leaves the regions, or makes one pending byte visible in `OUT` (20_memory.md R80). -/
theorem State.perform_regions {s t : State} {ev : Event} (h : s.perform ev = .next t) :
    t.inRegion = s.inRegion ∧ (t.outRegion = s.outRegion ∨ ∃ k v, t.outRegion = s.outRegion.write k v) := by
  cases ev with
  | start q | answer q | sequencer q => cases h; exact ⟨rfl, .inl rfl⟩
  | reset => obtain ⟨_, rfl⟩ := State.hostReset_cases h; exact ⟨rfl, .inl rfl⟩
  | deliver p i x k => rcases State.deliver_cases h with rfl | ⟨_, _, _, _, _, rfl⟩ <;> exact ⟨rfl, .inl rfl⟩
  | add p i => rcases State.performAdd_cases h with rfl | ⟨_, _, _, rfl⟩ <;> exact ⟨rfl, .inl rfl⟩
  | outWrite p i =>
    rcases State.performOut_cases h with rfl | ⟨w, _, _, rfl⟩
    exacts [⟨rfl, .inl rfl⟩, ⟨rfl, .inr ⟨w.off, w.val, rfl⟩⟩]

theorem step_regions {s t : State} (h : step s = .next t) :
    t.inRegion = s.inRegion ∧ (t.outRegion = s.outRegion ∨ ∃ k v, t.outRegion = s.outRegion.write k v) := by
  obtain ⟨_, ⟨q, i, _, h⟩ | ⟨q, _, rfl⟩ | ⟨q, rfl⟩ | ⟨ev, _, _, h⟩⟩ := step_turns h
  · exact ⟨exec_inRegion (s := s.turnOf q) h, .inl (exec_outRegion (s := s.turnOf q) h)⟩
  · exact ⟨rfl, .inl rfl⟩
  · exact ⟨rfl, .inl rfl⟩
  · exact State.perform_regions (s := { s with events := s.events.tail }) h

/-- Settles O45: every write to a memory keeps the canonical form, be it a move of an engine or a byte made visible in `OUT`. -/
theorem stepKeepsMemoriesCanonical : Obligations.StepKeepsMemoriesCanonical := by
  intro s t hs h
  simp only [State.memWf, Bool.and_eq_true, State.all_engines_iff (P := Engine.memWf) rfl] at hs ⊢
  obtain ⟨⟨heng, hin⟩, hout⟩ := hs
  obtain ⟨hin', hout'⟩ := step_regions h
  refine ⟨⟨step_keeps (fun e e' hm => hm.memWf) (fun e hw => e.start_memWf.trans hw) (fun e _ => rfl) h heng, ?_⟩, ?_⟩
  · rwa [hin']
  · rcases hout' with hout' | ⟨k, v, hout'⟩ <;> rw [hout']
    exacts [hout, Memory.wf_write k v hout]

/-! ### `STATUS` and `RUN` -/

@[simp] theorem flagOf_zero (i : Nat) : flagOf 0#32 i = false := BitVec.getLsbD_zero

theorem Engine.statusAgrees_fatalEntry {e : Engine} (c : FatalCause) (hr : e.run = .running) (h : e.statusAgrees = true) :
    (e.fatalEntry c).statusAgrees = true := by
  have hc : fatalCode c ≠ 0 := by cases c <;> decide
  simp_all [Engine.statusAgrees, flagOf_setCode, flagOf_setFlag, statusHigh_setCode, statusHigh_setFlag, Flag.done,
    Flag.fatal, Flag.started]
  rfl

/-- A flag that does not follow from `RUN`: `XFER_ERR` or a valid bit. -/
theorem Engine.statusAgrees_flag {e : Engine} {i : Nat} (v : Bool)
    (hi : i = Flag.xferErr ∨ i = Flag.twValid ∨ i = Flag.brValid ∨ i = Flag.ctValid) :
    (e.flag i v).statusAgrees = e.statusAgrees := by
  rcases hi with rfl | rfl | rfl | rfl <;>
    simp [Engine.statusAgrees, flagOf_setFlag, statusHigh_setFlag, Flag.done, Flag.fatal, Flag.started, Flag.xferErr,
      Flag.twValid, Flag.brValid, Flag.ctValid]

theorem Engine.statusAgrees_halt {e : Engine} (n : Nat) (hr : e.run = .running) (h : e.statusAgrees = true) :
    (e.halt n).statusAgrees = true := by
  simp_all [Engine.statusAgrees, Engine.halt, flagOf_setFlag, statusHigh_setFlag, Flag.done, Flag.fatal, Flag.started]
  rfl

theorem Engine.statusAgrees_start {e : Engine} (h : e.statusAgrees = true) : e.start.statusAgrees = true := by
  unfold Engine.start
  split
  · simp_all [Engine.statusAgrees, flagOf_setFlag, statusHigh_setFlag, Flag.done, Flag.fatal, Flag.started]
  · exact h

theorem Engine.statusAgrees_reset (c : NodeCfg) : (Engine.reset c).statusAgrees = true := by
  simp [Engine.statusAgrees, Engine.reset, codeOf]

theorem EngineMoves.statusAgrees {e e' : Engine} (h : EngineMoves e e') (ha : e.statusAgrees = true) :
    e'.statusAgrees = true := by
  induction h with
  | trans _ _ ih ih' => exact ih' (ih ha)
  | fatal e c hr => exact Engine.statusAgrees_fatalEntry c hr ha
  | halt e n hr => exact Engine.statusAgrees_halt n hr ha
  | flag e i v hi => rw [Engine.statusAgrees_flag v (by tauto), ha]
  | buffer e b m _ => cases b <;> exact ha
  | _ => exact ha

/-- Settles O46: `RUN` and the fields that follow from it change together in the start, HALT, a fatal fault and reset. -/
theorem stepKeepsStatusAgreeing : Obligations.StepKeepsStatusAgreeing := by
  intro s t hs h
  rw [State.statusAgrees, State.all_engines_iff (by decide)] at hs ⊢
  exact step_keeps (fun e e' hm => hm.statusAgrees) (fun e => Engine.statusAgrees_start) (fun e _ => Engine.statusAgrees_reset e.cfg) h hs

/-! ### Transfers in flight -/

/-- Each member of `OUTSTANDING` has something left to write. -/
def Engine.transfersAlive (e : Engine) : Prop := ∀ t ∈ e.outstanding, t.pending ≠ []

theorem State.transfersAlive_iff (s : State) : s.transfersAlive = true ↔ ∀ q, (s.eng q).transfersAlive := by
  rw [State.transfersAlive, State.all_engines_iff (by rfl)]
  simp [Engine.transfersAlive]

theorem EngineMoves.transfersAlive {e e' : Engine} (h : EngineMoves e e') (ha : e.transfersAlive) : e'.transfersAlive := by
  induction h with
  | trans _ _ ih ih' => exact ih' (ih ha)
  | transfers e ts hts => exact hts ha
  | buffer e b m _ => cases b <;> exact ha
  | _ => exact ha

/-- Settles O49: a transfer that has nothing left to write leaves with its last write, and TRANSPOSE enqueues no empty one. -/
theorem stepKeepsTransfersAlive : Obligations.StepKeepsTransfersAlive := by
  intro s t hs h
  rw [State.transfersAlive_iff] at hs ⊢
  refine step_keeps (fun e e' hm => hm.transfersAlive) (fun e ha => ?_) (fun e _ _ ht => by cases ht) h hs
  unfold Engine.start
  split <;> exact ha

/-! ### Reset -/

/-- Settles O8: both engines are `Engine.reset` of a configuration, whose memories list nothing. -/
theorem resetLeavesTheSpecValues : Obligations.ResetLeavesTheSpecValues := by
  refine ⟨fun e he => ?_, by decide, rfl, rfl⟩
  obtain ⟨c, rfl⟩ : ∃ c, e = Engine.reset c := by
    rcases List.mem_pair.1 he with rfl | rfl <;> exact ⟨_, rfl⟩
  exact ⟨rfl, rfl, rfl, rfl, rfl, rfl, rfl, rfl, rfl, rfl, rfl, rfl, fun k => ⟨rfl, rfl, rfl, rfl, rfl⟩⟩

theorem Engine.tablesHold_reset (src : TrigSource) (c : NodeCfg) : (Engine.reset c).tablesHold src :=
  Engine.tablesHold_of_not_valid (flagOf_zero _) (flagOf_zero _) (flagOf_zero _) rfl rfl

/-- Settles O51: the checks evaluate on the two engines of the reset state, and no table is valid there. -/
theorem resetMeetsTheInvariants : Obligations.ResetMeetsTheInvariants := by
  refine ⟨by decide, by decide, by decide, by decide, by decide, fun q => ?_⟩
  match q with
  | 0 | 1 => exact Engine.tablesHold_reset _ _
  | _ + 2 => exact Engine.tablesHold_reset _ _

/-! ### The host's register reads -/

/-- Settles O11, register by register: a narrower register is widened, and a cycle counter is the two halves put together. -/
theorem hostReadsTheRegisterMap : Obligations.HostReadsTheRegisterMap := by
  intro e
  refine ⟨?_, ?_, ?_, rfl, rfl, rfl, rfl, rfl, rfl, ?_, rfl, rfl, rfl, rfl, ?_, ?_, fun n hn => ?_⟩
  · exact BitVec.toNat_setWidth_of_le (by decide)
  · exact BitVec.toNat_setWidth_of_le (by decide)
  · exact BitVec.toNat_setWidth_of_le (by decide)
  · exact BitVec.toNat_setWidth_of_le (by decide)
  · exact (BitVec.extractLsb'_append_extractLsb'_eq_extractLsb' rfl).trans BitVec.extractLsb'_eq_self
  · exact (BitVec.extractLsb'_append_extractLsb'_eq_extractLsb' rfl).trans BitVec.extractLsb'_eq_self
  · unfold Engine.readRegister
    split
    on_goal 18 => rfl
    all_goals omega

end Sys2Proof.Machine
end

section
/-! PROOFS. The tables: what each generator leaves in its own table, and that every step keeps the tables as their valid bits say (spec
10_state.md R40 to R42, 40_precompute.md R121, R125, R127, R129, R132). -/

namespace Sys2Proof.Machine

/-! ### The passes of BRGEN -/

/-- Each pass emits at most one pair. -/
theorem brEmit_wp_le (r : BrRun) : (brEmit r).wp ≤ r.wp + 1 := by
  unfold brEmit
  split_ifs <;> simp

theorem brEmit_overflow (r : BrRun) : (brEmit r).overflow = r.overflow := by
  unfold brEmit
  split_ifs <;> rfl

/-- With fewer passes left than pairs to spare, no emission makes the pair count reach `N` (R127). -/
theorem brLoop_of_spare {n fuel : Nat} {r : BrRun} (hw : r.wp + fuel < n) (ho : r.overflow = false) :
    (brLoop n fuel r).overflow = false ∧ (brLoop n fuel r).wp < n := by
  induction fuel generalizing r with
  | zero => exact ⟨ho, hw⟩
  | succ fuel ih =>
    have hwp := brEmit_wp_le r
    rw [brLoop, if_neg (by omega)]
    refine ih (r := brCarry n (brEmit r)) ?_ ((brEmit_overflow r).trans ho)
    show (brEmit r).wp + fuel < n
    omega

/-- `N - 1` passes emit fewer than `N` pairs. -/
theorem brRun_overflow (n k : Nat) : (brRun n k).overflow = false := by
  cases n with
  | zero => rfl
  | succ n => exact (brLoop_of_spare (by simp) rfl).1

theorem brRun_wp_lt {n : Nat} (h : 0 < n) (k : Nat) : (brRun n k).wp < n :=
  (brLoop_of_spare (by simp; omega) rfl).2

@[simp] theorem carry_zero_zero (fuel : Nat) : carry fuel 0 0 = (0, 0) := by
  induction fuel with
  | zero => rfl
  | succ fuel ih => simpa [carry] using ih

/-- With passes enough to bring `K` to 0, the carry rule leaves `J + K` below twice the `K` it began with. -/
theorem carry_add_lt {fuel m j : Nat} (hf : m < fuel) (hj : j < 2 * 2 ^ m) :
    (carry fuel (2 ^ m) j).2 + (carry fuel (2 ^ m) j).1 < 2 * 2 ^ m := by
  induction fuel generalizing m j with
  | zero => omega
  | succ fuel ih =>
    rw [carry]
    split_ifs with hle
    · cases m with
      | zero =>
        obtain rfl : j = 1 := by omega
        simp
      | succ m =>
        have hlt := ih (m := m) (j := j - 2 ^ (m + 1)) (by omega) (by omega)
        rw [show 2 ^ (m + 1) / 2 = 2 ^ m by omega]
        omega
    · show j + 2 ^ m < _
      omega

/-- The pairs emitted so far are pairs of columns in ascending order, `WP` counts them, and `J` is a column. -/
structure BrRun.Sound (n : Nat) (r : BrRun) : Prop where
  count : r.pairs.length = r.wp
  pairs : ∀ p ∈ r.pairs, p.i < p.j ∧ p.j < n
  column : r.j < n

theorem BrRun.Sound.emit {n : Nat} {r : BrRun} (h : r.Sound n) : (brEmit r).Sound n := by
  unfold brEmit
  split_ifs with hlt
  · refine ⟨by simp [h.count], fun p hp => ?_, h.column⟩
    rcases List.mem_append.1 hp with hp | hp
    · exact h.pairs p hp
    · rw [List.mem_singleton.1 hp]; exact ⟨hlt, h.column⟩
  · exact h

theorem BrRun.Sound.carry {m : Nat} {r : BrRun} (h : r.Sound (2 ^ (m + 1))) : (brCarry (2 ^ (m + 1)) r).Sound (2 ^ (m + 1)) := by
  refine ⟨h.count, h.pairs, ?_⟩
  have hj := h.column
  have hlt := carry_add_lt (fuel := 2 ^ (m + 1)) (m := m) (j := r.j) ((Nat.lt_succ_self m).trans Nat.lt_two_pow_self) (by omega)
  show (Machine.carry (2 ^ (m + 1)) (2 ^ (m + 1) / 2) r.j).2 + (Machine.carry (2 ^ (m + 1)) (2 ^ (m + 1) / 2) r.j).1 < 2 ^ (m + 1)
  rw [show 2 ^ (m + 1) / 2 = 2 ^ m by omega]
  omega

theorem BrRun.Sound.loop {m fuel : Nat} {r : BrRun} (h : r.Sound (2 ^ (m + 1))) : (brLoop (2 ^ (m + 1)) fuel r).Sound (2 ^ (m + 1)) := by
  induction fuel generalizing r with
  | zero => exact h
  | succ fuel ih =>
    rw [brLoop]
    split_ifs
    exacts [⟨h.emit.count, h.emit.pairs, h.emit.column⟩, ih h.emit.carry]

theorem brRun_sound (l k : Nat) : (brRun (2 ^ l) k).Sound (2 ^ l) := by
  have hinit : BrRun.Sound (2 ^ l) { pairs := [], i := 0, j := 0, k := k, wp := 0, overflow := false } :=
    ⟨rfl, nofun, by positivity⟩
  cases l with
  | zero => exact hinit
  | succ m => exact hinit.loop

/-! ### What a generator has built when it completes -/

/-- The engine with the twiddle table written and valid (R121). -/
def Engine.twBuilt (src : TrigSource) (n : Nat) (e : Engine) : Engine :=
  ({ e.twClear.chargeComp n with
      tw := e.tw.writeElems 0 ((twTable src (cfgN e.cfg) (cfgL e.cfg)).map TrigPair.toCplx)
      twLen := BitVec.ofNat 32 (twTable src (cfgN e.cfg) (cfgL e.cfg)).length } : Engine).flag Flag.twValid true

/-- The engine with the LUT written and valid (R125). -/
def Engine.brBuilt (n : Nat) (e : Engine) : Engine :=
  ({ e.brClear.chargeComp n with
      br := e.br.writeElems 0 ((brRun (cfgN e.cfg) e.work.gen.brK.toNat).pairs.map SwapPair.toCplx)
      brLen := BitVec.ofNat 32 (brRun (cfgN e.cfg) e.work.gen.brK.toNat).wp } : Engine).flag Flag.brValid true

/-- The engine with the correction table written and valid (R129). -/
def Engine.ctBuilt (src : TrigSource) (n : Nat) (e : Engine) : Engine :=
  ({ (e.flag Flag.ctValid false).chargeComp n with
      ct := e.ct.writeElems 0 ((ctTable src e.cfg).map TrigPair.toCplx) } : Engine).flag Flag.ctValid true

theorem Engine.twgen_of_fits {src : TrigSource} {n : Nat} {e : Engine} (h : twNeed e.cfg ≤ e.cfg.twCap) :
    e.twgen src n = (e.twBuilt src n).complete n := by
  simp only [Engine.twgen, if_neg (Nat.not_lt.2 h)]
  rfl

theorem Engine.brgen_of_fits {n : Nat} {e : Engine} (h : cfgN e.cfg ≤ e.cfg.brCap) :
    e.brgen n = (e.brBuilt n).complete n := by
  simp only [Engine.brgen, if_neg (Nat.not_lt.2 h), brRun_overflow, Bool.false_eq_true, if_false]
  rfl

theorem Engine.ctgen_of_fits {src : TrigSource} {n : Nat} {e : Engine} (h : cfgTH e.cfg ≤ e.cfg.ctCap) :
    e.ctgen src n = (e.ctBuilt src n).complete n := by
  simp only [Engine.ctgen, if_neg (Nat.not_lt.2 h)]
  rfl

/-! ### What the valid bits say, table by table -/

/-- What `TW_VALID` says (R40). -/
def Engine.twHolds (src : TrigSource) (e : Engine) : Prop :=
  (flagOf e.status Flag.twValid = true → e.twLen.toNat = twNeed e.cfg
      ∧ e.tw.readElems 0 (twNeed e.cfg) = some ((twTable src (cfgN e.cfg) (cfgL e.cfg)).map TrigPair.toCplx))
    ∧ (flagOf e.status Flag.twValid = false → e.twLen = 0)

/-- What `BR_VALID` says (R41). -/
def Engine.brHolds (e : Engine) : Prop :=
  (flagOf e.status Flag.brValid = true → e.brLen.toNat < cfgN e.cfg ∧ ∀ p, p < e.brLen.toNat →
      ∃ v, e.br.readElem p = some v ∧ v.x.toNat < v.y.toNat ∧ v.y.toNat < cfgN e.cfg)
    ∧ (flagOf e.status Flag.brValid = false → e.brLen = 0)

/-- What `CT_VALID` says (R42). -/
def Engine.ctHolds (src : TrigSource) (e : Engine) : Prop :=
  flagOf e.status Flag.ctValid = true → e.ct.readElems 0 (cfgTH e.cfg) = some ((ctTable src e.cfg).map TrigPair.toCplx)

theorem Engine.tablesHold_iff (src : TrigSource) (e : Engine) :
    e.tablesHold src ↔ e.twHolds src ∧ e.brHolds ∧ e.ctHolds src := by
  unfold Engine.tablesHold Engine.twHolds Engine.brHolds Engine.ctHolds
  tauto

theorem Engine.twHolds_congr {src : TrigSource} {e e' : Engine} (hc : e'.cfg = e.cfg) (ht : e'.tw = e.tw)
    (hl : e'.twLen = e.twLen) (hv : flagOf e'.status Flag.twValid = flagOf e.status Flag.twValid) :
    e'.twHolds src ↔ e.twHolds src := by
  rw [Engine.twHolds, Engine.twHolds, hc, ht, hl, hv]

theorem Engine.brHolds_congr {e e' : Engine} (hc : e'.cfg = e.cfg) (ht : e'.br = e.br) (hl : e'.brLen = e.brLen)
    (hv : flagOf e'.status Flag.brValid = flagOf e.status Flag.brValid) : e'.brHolds ↔ e.brHolds := by
  rw [Engine.brHolds, Engine.brHolds, hc, ht, hl, hv]

theorem Engine.ctHolds_congr {src : TrigSource} {e e' : Engine} (hc : e'.cfg = e.cfg) (ht : e'.ct = e.ct)
    (hv : flagOf e'.status Flag.ctValid = flagOf e.status Flag.ctValid) : e'.ctHolds src ↔ e.ctHolds src := by
  rw [Engine.ctHolds, Engine.ctHolds, hc, ht, hv]

/-- An engine with the same tables, lengths and valid bits. -/
theorem Engine.SameTables.tablesHold_iff {src : TrigSource} {e e' : Engine} (h : e.SameTables e') (hc : e'.cfg = e.cfg) :
    e'.tablesHold src ↔ e.tablesHold src := by
  obtain ⟨⟨htw, htl, hbr, hbl, hct⟩, hvt, hvb, hvc⟩ := h
  rw [Engine.tablesHold_iff, Engine.tablesHold_iff, Engine.twHolds_congr hc htw htl hvt, Engine.brHolds_congr hc hbr hbl hvb,
    Engine.ctHolds_congr hc hct hvc]

/-! ### Each generator and its own table -/

theorem Engine.twHolds_twBuilt (src : TrigSource) (n : Nat) {e : Engine} (hw : e.cfg.wf = true) : (e.twBuilt src n).twHolds src := by
  obtain ⟨_, _, _, hN, _, hN15, _⟩ := NodeCfg.wf_spec hw
  have hlen : (twTable src (cfgN e.cfg) (cfgL e.cfg)).length = twNeed e.cfg := by
    rw [length_twTable, twNeed, hN, length_loopNest]
  have hsmall : twNeed e.cfg < 2 ^ 32 := by
    have hL : cfgL e.cfg ≤ 15 := (Nat.pow_le_pow_iff_right (by norm_num)).1 (hN ▸ hN15)
    calc twNeed e.cfg ≤ 2 ^ 15 / 2 * 15 := Nat.mul_le_mul (Nat.div_le_div_right hN15) hL
      _ < 2 ^ 32 := by norm_num
  refine ⟨fun _ => ⟨?_, ?_⟩, fun hv => ?_⟩
  · show (BitVec.ofNat 32 (twTable src (cfgN e.cfg) (cfgL e.cfg)).length).toNat = twNeed e.cfg
    rw [hlen, BitVec.toNat_ofNat, Nat.mod_eq_of_lt hsmall]
  · have hread := Memory.readElems_writeElems_self e.tw 0 ((twTable src (cfgN e.cfg) (cfgL e.cfg)).map TrigPair.toCplx)
    rwa [List.length_map, hlen] at hread
  · simp [Engine.twBuilt, flagOf_setFlag, Flag.twValid] at hv

theorem Engine.twHolds_twgen (src : TrigSource) (n : Nat) {e : Engine} (hw : e.cfg.wf = true) : (e.twgen src n).twHolds src := by
  rcases Nat.lt_or_ge e.cfg.twCap (twNeed e.cfg) with hc | hc
  · rw [Engine.twgen_of_small hc]
    have hv : flagOf ((e.twClear.chargeComp n).fatalEntry .allocFail).status Flag.twValid = false := by
      rw [Engine.flagOf_fatalEntry _ _ (by decide)]
      simp [Engine.twClear, flagOf_setFlag, Flag.twValid]
    exact ⟨fun ht => absurd (hv.symm.trans ht) Bool.false_ne_true, fun _ => rfl⟩
  · rw [Engine.twgen_of_fits hc]
    obtain ⟨⟨htw, htl, _⟩, hvt, _⟩ := Engine.sameTables_complete n (e.twBuilt src n)
    exact (Engine.twHolds_congr (by simp) htw htl hvt).2 (Engine.twHolds_twBuilt src n hw)

theorem Engine.brHolds_brBuilt (n : Nat) {e : Engine} (hw : e.cfg.wf = true) : (e.brBuilt n).brHolds := by
  obtain ⟨_, _, _, hN, _, hN15, _⟩ := NodeCfg.wf_spec hw
  have hwp := brRun_wp_lt (NodeCfg.n_pos hw) e.work.gen.brK.toNat
  have hsound := brRun_sound (cfgL e.cfg) e.work.gen.brK.toNat
  rw [← hN] at hsound
  have hlen : (e.brBuilt n).brLen.toNat = (brRun (cfgN e.cfg) e.work.gen.brK.toNat).wp := by
    show (BitVec.ofNat 32 _).toNat = _
    rw [BitVec.toNat_ofNat, Nat.mod_eq_of_lt (by omega)]
  refine ⟨fun _ => ⟨by rw [hlen]; exact hwp, fun p hp => ?_⟩, fun hv => ?_⟩
  · rw [hlen, ← hsound.count] at hp
    obtain ⟨hij, hjn⟩ := hsound.pairs _ (List.getElem_mem hp)
    refine ⟨SwapPair.toCplx (brRun (cfgN e.cfg) e.work.gen.brK.toNat).pairs[p], ?_, ?_, ?_⟩
    · show (e.br.writeElems 0 _).readElem p = _
      rw [Memory.readElem_writeElems, if_pos (by simpa using hp)]
      simp [hp]
    · rw [SwapPair.toCplx, BitVec.toNat_ofNat, BitVec.toNat_ofNat, Nat.mod_eq_of_lt (by omega), Nat.mod_eq_of_lt (by omega)]
      exact hij
    · rw [SwapPair.toCplx, BitVec.toNat_ofNat, Nat.mod_eq_of_lt (by omega)]
      exact hjn
  · simp [Engine.brBuilt, flagOf_setFlag, Flag.brValid] at hv

theorem Engine.brHolds_brgen (n : Nat) {e : Engine} (hw : e.cfg.wf = true) : (e.brgen n).brHolds := by
  rcases Nat.lt_or_ge e.cfg.brCap (cfgN e.cfg) with hc | hc
  · rw [Engine.brgen_of_small hc]
    have hv : flagOf ((e.brClear.chargeComp n).fatalEntry .allocFail).status Flag.brValid = false := by
      rw [Engine.flagOf_fatalEntry _ _ (by decide)]
      simp [Engine.brClear, flagOf_setFlag, Flag.brValid]
    exact ⟨fun ht => absurd (hv.symm.trans ht) Bool.false_ne_true, fun _ => rfl⟩
  · rw [Engine.brgen_of_fits hc]
    obtain ⟨⟨_, _, hbr, hbl, _⟩, _, hvb, _⟩ := Engine.sameTables_complete n (e.brBuilt n)
    exact (Engine.brHolds_congr (by simp) hbr hbl hvb).2 (Engine.brHolds_brBuilt n hw)

theorem Engine.ctHolds_ctBuilt (src : TrigSource) (n : Nat) (e : Engine) : (e.ctBuilt src n).ctHolds src := fun _ => by
  have hread := Memory.readElems_writeElems_self e.ct 0 ((ctTable src e.cfg).map TrigPair.toCplx)
  rwa [List.length_map, length_ctTable] at hread

theorem Engine.ctHolds_ctgen (src : TrigSource) (n : Nat) (e : Engine) : (e.ctgen src n).ctHolds src := by
  rcases Nat.lt_or_ge e.cfg.ctCap (cfgTH e.cfg) with hc | hc
  · rw [Engine.ctgen_of_small hc]
    have hv : flagOf (((e.flag Flag.ctValid false).chargeComp n).fatalEntry .allocFail).status Flag.ctValid = false := by
      rw [Engine.flagOf_fatalEntry _ _ (by decide)]
      simp [flagOf_setFlag, Flag.ctValid]
    exact fun ht => absurd (hv.symm.trans ht) Bool.false_ne_true
  · rw [Engine.ctgen_of_fits hc]
    obtain ⟨⟨_, _, _, _, hct⟩, _, _, hvc⟩ := Engine.sameTables_complete n (e.ctBuilt src n)
    exact (Engine.ctHolds_congr (by simp) hct hvc).2 (Engine.ctHolds_ctBuilt src n e)

/-! ### Every step -/

theorem Engine.sameTables_nextIter (entry : BitVec 8) (n : Nat) (e : Engine) : e.SameTables (e.nextIter entry n) := by
  unfold Engine.nextIter
  split_ifs
  · exact .of_eq rfl
  · exact .trans (.of_eq rfl) (Engine.sameTables_complete n _)

/-- A flag that is no valid bit. -/
theorem Engine.sameTables_flag (e : Engine) {i : Nat} (v : Bool) (h : i < 3 ∨ 5 < i) : e.SameTables (e.flag i v) := by
  refine ⟨⟨rfl, rfl, rfl, rfl, rfl⟩, ?_, ?_, ?_⟩ <;>
    rw [Engine.flag_status, flagOf_setFlag _ _ _ _ (by decide), if_neg] <;>
    simp only [Flag.twValid, Flag.brValid, Flag.ctValid] <;> omega

theorem Engine.sameTables_halt (n : Nat) (e : Engine) : e.SameTables (e.halt n) :=
  .trans (.of_eq rfl) (.trans (Engine.sameTables_flag { e with run := .done } true (.inl (by decide))) (.of_eq rfl))

theorem Engine.sameTables_start (e : Engine) : e.SameTables e.start := by
  unfold Engine.start
  split
  · exact .trans (.of_eq rfl) (Engine.sameTables_flag _ true (.inr (by decide)))
  · exact .refl e

/-- A command keeps the tables of its node as their valid bits say. -/
theorem exec_tablesHold {i : Instr} {s t : State} (h : exec i s = .next t) (hl : s.legal = true)
    (hn : s.node < s.engines.length) (hs : s.cur.tablesHold s.params.numerics.trig) :
    t.cur.tablesHold s.params.numerics.trig := by
  have hw : s.cur.cfg.wf = true := (State.legal_eng hl hn).1
  cases i with
  | twgen =>
    cases h
    rw [State.cur_one _ hn]
    rw [Engine.tablesHold_iff] at hs ⊢
    obtain ⟨_, hbr, hct⟩ := hs
    obtain ⟨kbr, kbl, kct, kvb, kvc, _, _, kcfg⟩ := Engine.twgen_keeps s.params.numerics.trig s.draws s.cur
    exact ⟨Engine.twHolds_twgen _ _ hw, (Engine.brHolds_congr kcfg kbr kbl kvb).2 hbr, (Engine.ctHolds_congr kcfg kct kvc).2 hct⟩
  | brgen =>
    cases h
    rw [State.cur_one _ hn]
    rw [Engine.tablesHold_iff] at hs ⊢
    obtain ⟨htw, _, hct⟩ := hs
    obtain ⟨ktw, ktl, kct, kvt, kvc, _, _, kcfg⟩ := Engine.brgen_keeps s.draws s.cur
    exact ⟨(Engine.twHolds_congr kcfg ktw ktl kvt).2 htw, Engine.brHolds_brgen _ hw, (Engine.ctHolds_congr kcfg kct kvc).2 hct⟩
  | ctgen =>
    cases h
    rw [State.cur_one _ hn]
    rw [Engine.tablesHold_iff] at hs ⊢
    obtain ⟨htw, hbr, _⟩ := hs
    obtain ⟨ktw, ktl, kbr, kbl, kvt, kvb, _, _, kcfg⟩ := Engine.ctgen_keeps s.params.numerics.trig s.draws s.cur
    exact ⟨(Engine.twHolds_congr kcfg ktw ktl kvt).2 htw, (Engine.brHolds_congr kcfg kbr kbl kvb).2 hbr, Engine.ctHolds_ctgen _ _ _⟩
  | next =>
    cases h
    rw [State.cur_one _ hn]
    refine ((Engine.sameTables_nextIter _ _ _).tablesHold_iff ?_).2 hs
    unfold Engine.nextIter
    split <;> simp
  | halt =>
    cases h
    rw [State.cur_one _ hn]
    exact ((Engine.sameTables_halt _ _).tablesHold_iff rfl).2 hs
  | _ =>
    have hplain := exec_plain h hn (by simp)
    exact (hplain.tables.tablesHold_iff hplain.cfg).2 hs

/-- Settles O50: a generator leaves its own table as its valid bit says, and every other turn leaves the tables. -/
theorem stepKeepsTablesValid : Obligations.StepKeepsTablesValid := by
  intro s t hs h q
  rw [(step_sameShape h).params]
  by_cases hr : s.events.head? = some .reset
  · rw [step_of_reset h hr]
    by_cases hq : q < s.engines.length
    · simpa [State.eng, hq] using Engine.tablesHold_reset _ _
    · rw [State.eng_of_le _ (by simpa using hq)]
      exact Engine.tablesHold_reset _ _
  rcases step_node_cases h hr q with ⟨i, hruns, hexec⟩ | ⟨_, he⟩ | ⟨_, he⟩ | ⟨ha, _⟩
  · rw [← exec_turnOf_cur hexec]
    exact exec_tablesHold (s := s.turnOf q) hexec (step_cases h).1 (State.lt_of_runs (s := s) (q := q) hruns) (hs q)
  · rw [he]
    exact ((Engine.sameTables_fatalEntry _ _).tablesHold_iff rfl).2 (hs q)
  · rw [he]
    exact ((Engine.sameTables_start _).tablesHold_iff (Engine.start_cfg _)).2 (hs q)
  · exact (ha.sameTables.tablesHold_iff ha.cfg).2 (hs q)

end Sys2Proof.Machine
end

section
/-! PROOFS. How the registers of one node change: the run state, the log, `XFER_ERR` and the cycle counters in any step, and `PC`, `ITER_LEFT` and
the rendezvous counter by the command that its sequencer runs (spec 10_state.md R28 to R32, R43, R46, R47). -/

namespace Sys2Proof.Machine

/-! ### What every move keeps -/

theorem Engine.start_of_idle {e : Engine} (h : e.run = .idle) :
    e.start = ({ e with run := .running, iterLeft := e.cfg.nIter } : Engine).flag Flag.started true := if_pos h

theorem Engine.start_of_not_idle {e : Engine} (h : e.run ≠ .idle) : e.start = e := if_neg h

/-- A step other than the host's reset moves each engine or starts it. -/
theorem step_moves_or_starts {s t : State} (h : step s = .next t) (hr : s.events.head? ≠ some .reset) (q : Nat) :
    EngineMoves (s.eng q) (t.eng q) ∨ t.eng q = (s.eng q).start := by
  by_cases hs : ∃ p, s.events.head? = some (.start p)
  · obtain ⟨p, hp⟩ := hs
    rw [step_of_start h hp, State.eng_modEng]
    split_ifs with hq
    · rw [hq.1]; exact .inr rfl
    · exact .inl (.refl _)
  · exact .inl (SystemMoves.step h hr (fun p hp => hs ⟨p, hp⟩) q)

theorem EngineMoves.run_eq_or {e e' : Engine} (h : EngineMoves e e') :
    e'.run = e.run ∨ e.run = .running ∧ (e'.run = .done ∨ e'.run = .fatal) := by
  induction h with
  | trans _ _ ih ih' =>
    rcases ih with he | ⟨hr, he⟩
    · rwa [he] at ih'
    · rcases ih' with he' | ⟨hr', _⟩
      · exact .inr ⟨hr, by rwa [he']⟩
      · rw [hr'] at he
        exact absurd he nofun
  | fatal e c hr => exact .inr ⟨hr, .inr rfl⟩
  | halt e n hr => exact .inr ⟨hr, .inl rfl⟩
  | buffer e b m _ => exact .inl (e.setBuf_run b m)
  | _ => exact .inl rfl

/-- Settles O52: a move leaves RUNNING for DONE or FATAL alone, and the start leaves IDLE. -/
theorem doneAndFatalAreLeftOnlyByReset : Obligations.DoneAndFatalAreLeftOnlyByReset := by
  intro s t q h hr
  rcases step_moves_or_starts h hr q with hm | hs
  · rcases hm.run_eq_or with he | ⟨hrun, he | he⟩
    · rw [he]
      exact ⟨id, id, .inl, fun hrun => by rw [hrun]; decide⟩
    · simp [hrun, he]
    · simp [hrun, he]
  · by_cases hi : (s.eng q).run = .idle
    · simp [hs, hi, Engine.start_of_idle hi]
    · rw [hs, Engine.start_of_not_idle hi]
      exact ⟨id, id, .inl, fun _ => hi⟩

/-- The log is extended at its end, `XFER_ERR` stays set and no cycle counter falls. -/
structure Engine.Grows (e e' : Engine) : Prop where
  log : e.log <+: e'.log
  xferErr : flagOf e.status Flag.xferErr = true → flagOf e'.status Flag.xferErr = true
  comm : e.commCycles.toNat ≤ e'.commCycles.toNat
  comp : e.compCycles.toNat ≤ e'.compCycles.toNat

theorem Engine.Grows.trans {e e1 e2 : Engine} (h : e.Grows e1) (h' : e1.Grows e2) : e.Grows e2 :=
  ⟨h.log.trans h'.log, h'.xferErr ∘ h.xferErr, h.comm.trans h'.comm, h.comp.trans h'.comp⟩

/-- A change of other fields. -/
theorem Engine.Grows.of_eq {e e' : Engine} (hl : e'.log = e.log) (hx : flagOf e'.status Flag.xferErr = flagOf e.status Flag.xferErr)
    (h1 : e'.commCycles = e.commCycles) (h2 : e'.compCycles = e.compCycles) : e.Grows e' :=
  ⟨hl ▸ List.prefix_rfl, hx ▸ id, h1 ▸ le_rfl, h2 ▸ le_rfl⟩

/-- Any other flag written, or `XFER_ERR` set. -/
theorem Engine.grows_flag (e : Engine) {i : Nat} {v : Bool} (hi : i ≠ Flag.xferErr ∨ v = true) : e.Grows (e.flag i v) := by
  refine ⟨List.prefix_rfl, fun h => ?_, le_rfl, le_rfl⟩
  rw [Engine.flag_status, flagOf_setFlag _ _ _ _ (by decide)]
  split_ifs with hx
  exacts [hi.resolve_left fun hne => hne hx.symm, h]

theorem EngineMoves.grows {e e' : Engine} (h : EngineMoves e e') : e.Grows e' := by
  induction h with
  | trans _ _ ih ih' => exact ih.trans ih'
  | fatal e c _ =>
    refine .of_eq rfl ?_ rfl rfl
    simp [flagOf_setCode, flagOf_setFlag, Flag.xferErr, Flag.fatal]
  | halt e n _ => exact (e.grows_flag (.inl (by decide))).trans (.of_eq rfl rfl rfl rfl)
  | flag e i v hi =>
    refine e.grows_flag ?_
    rcases hi with rfl | rfl | rfl | ⟨_, hv⟩
    exacts [.inl (by decide), .inl (by decide), .inl (by decide), .inr hv]
  | buffer e b m _ => exact .of_eq (e.setBuf_log b m) (by simp) (by simp) (by simp)
  | logged e evs => exact ⟨List.prefix_append _ _, id, le_rfl, le_rfl⟩
  | comm e n => exact ⟨List.prefix_rfl, id, e.chargeComm_mono n, le_rfl⟩
  | comp e n => exact ⟨List.prefix_rfl, id, le_rfl, e.chargeComp_mono n⟩
  | _ => exact .of_eq rfl rfl rfl rfl

theorem Engine.grows_start (e : Engine) : e.Grows e.start := by
  by_cases h : e.run = .idle
  · rw [Engine.start_of_idle h]
    exact .trans (e1 := { e with run := .running, iterLeft := e.cfg.nIter }) (.of_eq rfl rfl rfl rfl)
      (Engine.grows_flag _ (.inl (by decide)))
  · rw [Engine.start_of_not_idle h]
    exact .of_eq rfl rfl rfl rfl

/-- Settles O54: so does every move, and so does the start. -/
theorem logAndErrorFlagOnlyGrow : Obligations.LogAndErrorFlagOnlyGrow := by
  intro s t q h hr
  have hgrows : (s.eng q).Grows (t.eng q) := by
    rcases step_moves_or_starts h hr q with hm | hs
    · exact hm.grows
    · rw [hs]; exact (s.eng q).grows_start
  exact ⟨hgrows.log, hgrows.xferErr, hgrows.comm, hgrows.comp⟩

/-! ### `PC` and `ITER_LEFT` -/

theorem Engine.start_pc (e : Engine) : e.start.pc = e.pc := by
  unfold Engine.start
  split <;> rfl

theorem Engine.start_rdv (e : Engine) : e.start.rdv = e.rdv := by
  unfold Engine.start
  split <;> rfl

/-- NEXT takes one off where one is left (44_pipeline_driver.md R207). -/
theorem Engine.nextIter_iterLeft (entry : BitVec 8) (n : Nat) (e : Engine) :
    (e.nextIter entry n).iterLeft.toNat = e.iterLeft.toNat - 1 := by
  unfold Engine.nextIter
  split_ifs with h
  · exact BitVec.toNat_sub_of_le (x := e.iterLeft) (y := 1) h.le
  · rw [Engine.complete_iterLeft]
    show 0 = _
    omega

/-- NEXT goes back to `ITER_ENTRY`, or completes. -/
theorem Engine.nextIter_pc (entry : BitVec 8) (n : Nat) (e : Engine) :
    (e.nextIter entry n).stage = .begin ∧ (e.nextIter entry n).pc = entry ∨ e.PcStep (e.nextIter entry n) := by
  unfold Engine.nextIter
  split_ifs
  · exact .inl ⟨rfl, rfl⟩
  · exact .inr ((Engine.pcStep_complete n _).of_eq rfl)

/-- `PC` and `ITER_LEFT` of the node whose command runs. -/
theorem exec_control {i : Instr} {s t : State} (h : exec i s = .next t) (hn : s.node < s.engines.length) :
    (s.cur.PcStep t.cur ∧ (i = .halt → t.cur.pc = s.cur.pc)
        ∨ i = .next ∧ t.cur.stage = .begin ∧ t.cur.pc = s.params.iterEntry)
      ∧ (t.cur.iterLeft = s.cur.iterLeft ∨ i = .next ∧ t.cur.iterLeft.toNat = s.cur.iterLeft.toNat - 1) := by
  cases i with
  | twgen =>
    cases h
    obtain ⟨_, _, _, _, _, hpc, hiter, _⟩ := Engine.twgen_keeps s.params.numerics.trig s.draws s.cur
    rw [State.cur_one _ hn]
    exact ⟨.inl ⟨hpc, nofun⟩, .inl hiter⟩
  | brgen =>
    cases h
    obtain ⟨_, _, _, _, _, hpc, hiter, _⟩ := Engine.brgen_keeps s.draws s.cur
    rw [State.cur_one _ hn]
    exact ⟨.inl ⟨hpc, nofun⟩, .inl hiter⟩
  | ctgen =>
    cases h
    obtain ⟨_, _, _, _, _, _, hpc, hiter, _⟩ := Engine.ctgen_keeps s.params.numerics.trig s.draws s.cur
    rw [State.cur_one _ hn]
    exact ⟨.inl ⟨hpc, nofun⟩, .inl hiter⟩
  | next =>
    cases h
    rw [State.cur_one _ hn]
    refine ⟨?_, .inr ⟨rfl, Engine.nextIter_iterLeft _ _ _⟩⟩
    rcases Engine.nextIter_pc s.params.iterEntry s.draws s.cur with hloop | hpc
    exacts [.inr ⟨rfl, hloop⟩, .inl ⟨hpc, nofun⟩]
  | halt =>
    cases h
    rw [State.cur_one _ hn]
    exact ⟨.inl ⟨.inl rfl, fun _ => rfl⟩, .inl rfl⟩
  | _ =>
    have hplain := exec_plain h hn (by simp)
    exact ⟨.inl ⟨hplain.pc, nofun⟩, .inl hplain.iterLeft⟩

/-- Settles O53: of the turns that reach a node's control registers, its own command's and the host's start are the only ones that
write them. -/
theorem controlRegistersChangeOnlyAsStated : Obligations.ControlRegistersChangeOnlyAsStated := by
  intro s t q h hr
  rcases step_node_cases h hr q with ⟨i, hruns, hexec⟩ | ⟨_, he⟩ | ⟨hhead, he⟩ | ⟨ha, _⟩
  · obtain ⟨hpc, hiter⟩ := exec_control hexec (State.lt_of_runs (s := s) (q := q) hruns)
    rw [exec_turnOf_cur hexec, State.turnOf_cur] at hpc hiter
    constructor
    · rcases hpc with ⟨hkept | ⟨hstage, hne, hnext⟩, hhalt⟩ | ⟨rfl, hstage, hloop⟩
      · exact .inl hkept
      · by_cases hi : i = .halt
        · exact .inl (hhalt hi)
        · exact .inr ⟨hstage, i, hruns, hi, .inl ⟨hne, hnext⟩⟩
      · exact .inr ⟨hstage, .next, hruns, nofun, .inr ⟨rfl, hloop⟩⟩
    · rcases hiter with hiter | ⟨rfl, hiter⟩
      exacts [.inl hiter, .inr (.inl ⟨hruns, hiter⟩)]
  · rw [he]
    exact ⟨.inl rfl, .inl rfl⟩
  · rw [he]
    refine ⟨.inl (Engine.start_pc _), ?_⟩
    by_cases hi : (s.eng q).run = .idle
    · exact .inr (.inr ⟨hhead, hi, by rw [Engine.start_of_idle hi]; rfl⟩)
    · exact .inl (by rw [Engine.start_of_not_idle hi])
  · exact ⟨.inl ha.pc, .inl ha.iterLeft⟩

/-! ### How the turn of a command ends -/

/-- The rendezvous passed: `NB` or more were counted, and `NB` are taken off (10_state.md R43). -/
def Engine.PassedRdv (e e' : Engine) : Prop :=
  cfgNB e.cfg ≤ e.rdv.toNat ∧ e'.rdv.toNat = e.rdv.toNat - cfgNB e.cfg

/-- The node lacks the capacity that a generator needs (R123, R125, R131). -/
def LacksCapacity (i : Instr) (c : NodeCfg) : Prop :=
  i = .twgen ∧ c.twCap < twNeed c ∨ i = .brgen ∧ c.brCap < cfgN c ∨ i = .ctgen ∧ c.ctCap < cfgTH c

/-- The ends of a turn of command `i` that began at engine `e`, where the work of the turn made `d` of it. -/
inductive TurnEnd (i : Instr) (e d : Engine) : Engine → Prop
  /-- the command waits (60_exceptions.md R233). -/
  | waits (h : d.stage ≠ .begin) : TurnEnd i e d d
  /-- the command completes (44_pipeline_driver.md R200). -/
  | completes (n : Nat) (h : d.pc = e.pc) : TurnEnd i e d (d.complete n)
  /-- a generator takes the fault ALLOC_FAIL (60_exceptions.md R226). -/
  | lacks (h : LacksCapacity i e.cfg) : TurnEnd i e d (d.fatalEntry .allocFail)
  /-- HALT, or a NEXT that goes back to `ITER_ENTRY` (44_pipeline_driver.md R207, R208). -/
  | leaves (n : Nat) (h : i = .halt ∨ i = .next ∧ 1 < e.iterLeft.toNat) : TurnEnd i e d (d.leave n)

/-- What a turn of command `i` makes of the engine whose sequencer runs it: its work leaves the rendezvous counter, or is that of a
TRANSPOSE that passes the rendezvous, and the turn ends. -/
def Engine.TakesTurn (i : Instr) (e e' : Engine) : Prop :=
  ∃ d, TurnEnd i e d e' ∧ (d.rdv = e.rdv ∨ (∃ b, i = .transpose b) ∧ e.PassedRdv d)

theorem TurnEnd.rdv {i : Instr} {e d e' : Engine} (h : TurnEnd i e d e') : e'.rdv = d.rdv := by
  cases h with
  | completes n _ => exact d.complete_rdv n
  | _ => rfl

theorem Engine.TakesTurn.rdv {i : Instr} {e e' : Engine} (h : Engine.TakesTurn i e e') :
    e'.rdv = e.rdv ∨ (∃ b, i = .transpose b) ∧ e.PassedRdv e' := by
  obtain ⟨d, hend, hrdv⟩ := h
  rwa [Engine.PassedRdv, hend.rdv]

theorem Engine.TakesTurn.waits {i : Instr} {e e' : Engine} (hs : e'.stage ≠ .begin) (hr : e'.rdv = e.rdv) : Engine.TakesTurn i e e' :=
  ⟨e', .waits hs, .inl hr⟩

theorem Engine.TakesTurn.completes {i : Instr} {e d : Engine} (n : Nat) (hp : d.pc = e.pc) (hr : d.rdv = e.rdv) :
    Engine.TakesTurn i e (d.complete n) :=
  ⟨d, .completes n hp, .inl hr⟩

/-- A turn that goes straight on from `e1`, which agrees with `e` on what its end looks at. -/
theorem Engine.TakesTurn.of_eq {i : Instr} {e e1 e' : Engine} (h : Engine.TakesTurn i e1 e') (hc : e1.cfg = e.cfg) (hp : e1.pc = e.pc)
    (hi : e1.iterLeft = e.iterLeft) (hr : e1.rdv = e.rdv) : Engine.TakesTurn i e e' := by
  obtain ⟨d, hend, hrdv⟩ := h
  rw [Engine.PassedRdv, hr, hc] at hrdv
  refine ⟨d, ?_, hrdv⟩
  cases hend with
  | waits h => exact .waits h
  | completes n h => exact .completes n (h.trans hp)
  | lacks h => exact .lacks (hc ▸ h)
  | leaves n h => exact .leaves n (hi ▸ h)

theorem State.turn_fenced (s : State) (i : Instr) (hn : s.node < s.engines.length) (hs : s.cur.stage ≠ .begin) :
    Engine.TakesTurn i s.cur s.fenced.cur := by
  rcases s.fenced_cases with ⟨_, h⟩ | ⟨_, h⟩ <;> rw [h]
  · exact .waits hs rfl
  · rw [State.cur_one _ hn]
    exact .completes _ rfl rfl

theorem State.turn_waitBarrier (s : State) (i : Instr) (hn : s.node < s.engines.length) (hs : s.cur.stage ≠ .begin) :
    Engine.TakesTurn i s.cur s.waitBarrier.cur := by
  rcases s.waitBarrier_cases with ⟨_, h⟩ | ⟨_, h⟩ <;> rw [h]
  · exact .waits hs rfl
  · rw [State.cur_one _ hn]
    exact .completes _ rfl rfl

theorem State.turn_pass (s : State) (b : Buf) (hn : s.node < s.engines.length) (hs : s.cur.stage ≠ .begin) :
    Engine.TakesTurn (.transpose b) s.cur s.pass.cur := by
  rcases s.pass_cases with ⟨_, h⟩ | ⟨hge, h⟩ <;> rw [h]
  · exact .waits hs rfl
  · have hnb : (BitVec.ofNat 32 (cfgNB s.cur.cfg)).toNat = cfgNB s.cur.cfg := by
      rw [BitVec.toNat_ofNat, Nat.mod_eq_of_lt (hge.trans_lt s.cur.rdv.isLt)]
    rw [State.cur_one _ hn]
    refine ⟨_, .completes _ rfl, .inr ⟨⟨b, rfl⟩, hge, ?_⟩⟩
    show (s.cur.rdv - BitVec.ofNat 32 (cfgNB s.cur.cfg)).toNat = _
    rw [BitVec.toNat_sub_of_le (by rwa [BitVec.le_def, hnb]), hnb]

theorem State.turn_announce (s : State) (b : Buf) (hn : s.node < s.engines.length) (hs : s.cur.stage ≠ .begin) :
    Engine.TakesTurn (.transpose b) s.cur s.announce.cur := by
  rcases s.announce_cases with ⟨_, h⟩ | ⟨_, h⟩ <;> rw [h]
  · exact .waits hs rfl
  · have hcur := s.cur_modCur Engine.announced hn
    have hpass := (s.modCur Engine.announced).turn_pass b (by simpa using hn) (by rw [hcur]; exact nofun)
    rw [hcur] at hpass
    exact hpass.of_eq rfl rfl rfl rfl

theorem State.turn_send {s u : State} {b : Buf} (h : s.send b = some u) (hn : s.node < s.engines.length) :
    Engine.TakesTurn (.transpose b) s.cur u.announce.cur := by
  obtain ⟨quad, sent, _, _, rfl⟩ := State.send_cases h
  have hcur : State.cur { (s.modCur (Engine.sent s.draws b quad sent)).tick with answers := sent.answers }
      = Engine.sent s.draws b quad sent s.cur := s.cur_modCur _ hn
  obtain ⟨hcfg, hpc, hstage, _, hiter, _, _, _, _, hrdv, _⟩ := Engine.sent_spec s.draws b quad sent s.cur
  have hturn := State.turn_announce { (s.modCur (Engine.sent s.draws b quad sent)).tick with answers := sent.answers } b
    (by simpa using hn) (by rw [hcur, hstage]; decide)
  rw [hcur] at hturn
  exact hturn.of_eq hcfg hpc hiter hrdv

/-- The commands that replace a buffer complete. -/
theorem State.turn_settleThen (s : State) (i : Instr) (b : Buf) (f : Engine → Engine) (n : Nat)
    (hf : ∀ e, (f e).pc = e.pc ∧ (f e).rdv = e.rdv) (hn : s.node < s.engines.length) :
    Engine.TakesTurn i s.cur ((s.settle b).modCur fun e => (f e).complete n).tick.cur := by
  rw [State.cur_one _ (by simpa using hn)]
  have hcur := s.cur_settle b
  exact .completes n ((hf _).1.trans (by rw [hcur])) ((hf _).2.trans (by rw [hcur]))

theorem Engine.turn_twgen (src : TrigSource) (n : Nat) (e : Engine) : Engine.TakesTurn .twgen e (e.twgen src n) := by
  rcases Nat.lt_or_ge e.cfg.twCap (twNeed e.cfg) with hc | hc
  · rw [Engine.twgen_of_small hc]
    exact ⟨_, .lacks (.inl ⟨rfl, hc⟩), .inl rfl⟩
  · rw [Engine.twgen_of_fits hc]
    exact .completes n rfl rfl

theorem Engine.turn_brgen (n : Nat) (e : Engine) : Engine.TakesTurn .brgen e (e.brgen n) := by
  rcases Nat.lt_or_ge e.cfg.brCap (cfgN e.cfg) with hc | hc
  · rw [Engine.brgen_of_small hc]
    exact ⟨_, .lacks (.inr (.inl ⟨rfl, hc⟩)), .inl rfl⟩
  · rw [Engine.brgen_of_fits hc]
    exact .completes n rfl rfl

theorem Engine.turn_ctgen (src : TrigSource) (n : Nat) (e : Engine) : Engine.TakesTurn .ctgen e (e.ctgen src n) := by
  rcases Nat.lt_or_ge e.cfg.ctCap (cfgTH e.cfg) with hc | hc
  · rw [Engine.ctgen_of_small hc]
    exact ⟨_, .lacks (.inr (.inr ⟨rfl, hc⟩)), .inl rfl⟩
  · rw [Engine.ctgen_of_fits hc]
    exact .completes n rfl rfl

theorem Engine.turn_nextIter (entry : BitVec 8) (n : Nat) (e : Engine) : Engine.TakesTurn .next e (e.nextIter entry n) := by
  unfold Engine.nextIter
  split_ifs with h
  · exact ⟨_, .leaves n (.inr ⟨rfl, h⟩), .inl rfl⟩
  · exact .completes n rfl rfl

/-- Every command a sequencer runs takes a turn of its node. -/
theorem exec_turn {i : Instr} {s t : State} (h : exec i s = .next t) (hn : s.node < s.engines.length) :
    Engine.TakesTurn i s.cur t.cur := by
  cases i with
  | twgen => cases h; rw [State.cur_one _ hn]; exact Engine.turn_twgen _ _ _
  | brgen => cases h; rw [State.cur_one _ hn]; exact Engine.turn_brgen _ _
  | ctgen => cases h; rw [State.cur_one _ hn]; exact Engine.turn_ctgen _ _ _
  | ingest b =>
    rcases execIngest_cases h with ⟨hs, rfl⟩ | ⟨_, rfl⟩ | ⟨_, _, rfl⟩
    · exact .waits (by rw [hs]; decide) rfl
    · exact s.turn_settleThen _ b _ _ (fun e => ⟨by simp, by simp⟩) hn
    · rw [s.cur_modCur _ hn]
      exact .waits nofun rfl
  | transpose b =>
    rcases execTranspose_cases h with ⟨hs, rfl⟩ | ⟨hs, rfl⟩ | ⟨u, hu, rfl⟩
    · exact s.turn_announce b hn (by rw [hs]; decide)
    · exact s.turn_pass b hn (by rw [hs]; decide)
    · exact State.turn_send hu hn
  | fft b =>
    obtain ⟨m, _, rfl⟩ := execFft_cases h
    exact s.turn_settleThen _ b _ _ (fun e => ⟨by simp, by simp⟩) hn
  | correct b =>
    obtain ⟨m, _, rfl⟩ := execCorrect_cases h
    exact s.turn_settleThen _ b _ _ (fun e => ⟨by simp, by simp⟩) hn
  | emit b =>
    rcases execEmit_cases h with ⟨hs, rfl⟩ | ⟨hs, rfl⟩ | h
    · exact .waits (by rw [hs]; decide) rfl
    · exact s.turn_fenced _ hn (by rw [hs]; decide)
    · obtain ⟨_, _, rfl⟩ := State.handOver_cases h
      rw [State.cur_one _ hn]
      exact .waits nofun rfl
  | barrier =>
    rcases execBarrier_cases h with ⟨hs, rfl⟩ | ⟨_, rfl⟩
    · exact s.turn_waitBarrier _ hn (by rw [hs]; decide)
    · have hcur : s.arrive.cur = s.cur.atStage .barrier :=
        State.cur_modCur { s with arrivals := s.arrivals.set s.node (s.arrivalsOf s.node + 1) } _ hn
      have hturn := s.arrive.turn_waitBarrier .barrier (by simpa [State.arrive] using hn) (by rw [hcur]; exact nofun)
      rw [hcur] at hturn
      exact hturn.of_eq rfl rfl rfl rfl
  | next => cases h; rw [State.cur_one _ hn]; exact Engine.turn_nextIter _ _ _
  | halt => cases h; rw [State.cur_one _ hn]; exact ⟨_, .leaves _ (.inl rfl), .inl rfl⟩

/-- Settles O56: of a node's own commands only a TRANSPOSE that passes the rendezvous writes the counter, and of the agents only that
of an increment. -/
theorem rendezvousCounterChangesInTwoWays : Obligations.RendezvousCounterChangesInTwoWays := by
  intro s t q h hr
  rcases step_node_cases h hr q with ⟨i, hruns, hexec⟩ | ⟨_, he⟩ | ⟨_, he⟩ | ⟨_, hrdv⟩
  · have hrdv := (exec_turn hexec (State.lt_of_runs (s := s) (q := q) hruns)).rdv
    rw [exec_turnOf_cur hexec, State.turnOf_cur] at hrdv
    rcases hrdv with hkept | ⟨⟨b, rfl⟩, hpassed⟩
    exacts [.inl hkept, .inr (.inr ⟨⟨b, hruns⟩, hpassed⟩)]
  · exact .inl (by rw [he]; rfl)
  · exact .inl (by rw [he, Engine.start_rdv])
  · exact hrdv.imp_right .inl

theorem Engine.complete_at_last {e : Engine} (n : Nat) (h : e.pc = 255#8) :
    (e.complete n).run = .fatal ∧ flagOf (e.complete n).status Flag.fatal = true ∧ codeOf (e.complete n).status = 3
      ∧ (e.complete n).pc = 255#8 := by
  rw [Engine.complete_of_eq n h]
  refine ⟨rfl, ?_, codeOf_setCode _ _, h⟩
  rw [Engine.fatalEntry_status, flagOf_setCode _ _ (by decide), flagOf_setFlag _ _ _ _ (by decide), if_pos rfl]

/-- Settles O35: a turn that leaves the command and is neither HALT, nor a NEXT that loops, nor a generator's ALLOC_FAIL completes it. -/
theorem completionAtTheLastIndexIsFatal : Obligations.CompletionAtTheLastIndexIsFatal := by
  intro s t i _ hn hpc _ h hstage hhalt hnext htw hbr hct
  obtain ⟨d, hend, _⟩ := exec_turn h hn
  generalize t.cur = e' at hend hstage
  cases hend with
  | waits hw => exact absurd hstage hw
  | completes n hp => exact Engine.complete_at_last n (hp.trans hpc)
  | lacks hc =>
    rcases hc with ⟨hi, hc⟩ | ⟨hi, hc⟩ | ⟨hi, hc⟩
    exacts [absurd (htw hi) (by omega), absurd (hbr hi) (by omega), absurd (hct hi) (by omega)]
  | leaves n hl =>
    rcases hl with hi | ⟨hi, hlt⟩
    exacts [absurd hi hhalt, absurd (hnext hi) (by omega)]

end Sys2Proof.Machine
end

section
/-! PROOFS. The reads of what holds no value, and the fault they end in (spec 10_state.md R39, 40_precompute.md R133, 41_fft_kernel.md R151,
42_phase_correction.md R167, 60_exceptions.md R234). -/

namespace Sys2Proof.Machine

/-- A fork over the rows stops where an element of the buffer holds no value. -/
theorem forkOver_eq_none {e : Engine} {b : Buf} {f : Nat → List Cplx → List Cplx} {k : Nat} (hw : e.cfg.wf = true)
    (hk : k < bufElems e.cfg) (hnone : (e.buf b).readElem k = none) (hf : ∀ r row, (f r row).length = row.length) :
    forkOver e b f = none := by
  have hrow : k / cfgN e.cfg < cfgTH e.cfg := Nat.div_lt_of_lt_mul (by rwa [Nat.mul_comm])
  refine overRows_eq_none ((mem_forkRows (NodeCfg.wf_spec hw).2.1).2 hrow) (Nat.mod_lt k (NodeCfg.n_pos hw)) ?_ hf
  rwa [Nat.div_add_mod' k (cfgN e.cfg)]

/-- Rows of two columns or more have butterflies (R122). -/
theorem twNeed_pos {c : NodeCfg} (hw : c.wf = true) (h : 2 ≤ cfgN c) : 0 < twNeed c := by
  have hN := (NodeCfg.wf_spec hw).2.2.2.1
  have hL : cfgL c ≠ 0 := fun h0 => by rw [h0] at hN; omega
  exact Nat.mul_pos (by omega) (Nat.pos_of_ne_zero hL)

/-! ### FFT -/

theorem fftBuffer_of_no_tw {a : ArithSource} {n : Nat} {inc : Incoming} {e : Engine} {b : Buf}
    (h : readTable (flagOf e.status Flag.twValid) e.twLen.toNat e.tw (twNeed e.cfg) = none) :
    fftBuffer a n inc e b = .error .unwrittenRead := by
  unfold fftBuffer
  rw [h]
  split
  · rename_i htw
    cases htw
  · rfl

theorem fftBuffer_of_no_br {a : ArithSource} {n : Nat} {inc : Incoming} {e : Engine} {b : Buf}
    (h : readTable (flagOf e.status Flag.brValid) e.brLen.toNat e.br e.brLen.toNat = none) :
    fftBuffer a n inc e b = .error .unwrittenRead := by
  unfold fftBuffer
  rw [h]

/-- With tables that hold columns and at least one butterfly, an element that holds no value stops FFT. -/
theorem fftBuffer_of_unwritten {a : ArithSource} {n : Nat} {inc : Incoming} {e : Engine} {b : Buf} {br tw : List Cplx} {k : Nat}
    (hw : e.cfg.wf = true) (hN : 2 ≤ cfgN e.cfg)
    (hbr : readTable (flagOf e.status Flag.brValid) e.brLen.toNat e.br e.brLen.toNat = some br)
    (htw : readTable (flagOf e.status Flag.twValid) e.twLen.toNat e.tw (twNeed e.cfg) = some tw)
    (hlen : tw.length = twNeed e.cfg) (hcols : ∀ v ∈ br, v.x.toNat < cfgN e.cfg ∧ v.y.toNat < cfgN e.cfg)
    (hk : k < bufElems e.cfg) (hnone : (e.buf b).readElem k = none) : fftBuffer a n inc e b = .error .unwrittenRead := by
  have hpairs : (br.map SwapPair.ofCplx).all (fun p => decide (p.i < cfgN e.cfg) && decide (p.j < cfgN e.cfg)) = true := by
    refine List.all_eq_true.2 fun p hp => ?_
    obtain ⟨v, hv, rfl⟩ := List.mem_map.1 hp
    obtain ⟨hx, hy⟩ := hcols v hv
    exact Bool.and_eq_true_iff.2 ⟨decide_eq_true hx, decide_eq_true hy⟩
  have hsteps : ((loopNest (cfgN e.cfg) (cfgL e.cfg)).zip (tw.map TrigPair.ofCplx)).isEmpty = false := by
    have hnest : (loopNest (cfgN e.cfg) (cfgL e.cfg)).length = twNeed e.cfg := by
      rw [twNeed, (NodeCfg.wf_spec hw).2.2.2.1, length_loopNest]
    have hpos := twNeed_pos hw hN
    rw [List.isEmpty_eq_false_iff, ← List.length_pos_iff]
    simpa [hnest, hlen] using hpos
  unfold fftBuffer
  rw [hbr, htw]
  simp only [hpairs, hsteps, Bool.and_false, Bool.false_eq_true, if_true, if_false]
  rw [forkOver_eq_none hw hk hnone fun r row => length_fftRow _ _ _ _ _ _ _]

theorem execFft_of_error {b : Buf} {s : State} {f : Fault}
    (h : fftBuffer s.params.numerics.arith s.draws (s.incoming s.node b) s.cur b = .error f) : execFft b s = .fault f := by
  unfold execFft
  rw [h]

/-! ### CORRECT -/

theorem correctBuffer_of_no_ct {a : ArithSource} {n : Nat} {inc : Incoming} {e : Engine} {b : Buf}
    (h : readTable (flagOf e.status Flag.ctValid) (cfgTH e.cfg) e.ct (cfgTH e.cfg) = none) :
    correctBuffer a n inc e b = .error .unwrittenRead := by
  unfold correctBuffer
  rw [h]

theorem correctBuffer_of_unwritten {a : ArithSource} {n : Nat} {inc : Incoming} {e : Engine} {b : Buf} {k : Nat}
    (hw : e.cfg.wf = true) (hk : k < bufElems e.cfg) (hnone : (e.buf b).readElem k = none) :
    correctBuffer a n inc e b = .error .unwrittenRead := by
  unfold correctBuffer
  split
  · rw [forkOver_eq_none hw hk hnone fun r row => length_correctRow _ _ _ _ _ _]
  · rfl

theorem execCorrect_of_error {b : Buf} {s : State} {f : Fault}
    (h : correctBuffer s.params.numerics.arith s.draws (s.incoming s.node b) s.cur b = .error f) : execCorrect b s = .fault f := by
  unfold execCorrect
  rw [h]

/-! ### EMIT and TRANSPOSE -/

theorem execEmit_of_unwritten {b : Buf} {s : State} {k : Nat} (hs : s.cur.stage = .begin) (hk : k < bufElems s.cur.cfg)
    (hnone : (s.cur.buf b).readElem k = none) : execEmit b s = .fault .unwrittenRead := by
  have hread : (s.cur.buf b).readElems 0 (bufElems s.cur.cfg) = none :=
    Memory.readElems_eq_none.2 ⟨k, hk, by rwa [Nat.zero_add]⟩
  have hover : s.handOver b = none := by
    unfold State.handOver
    rw [hread]
  unfold execEmit
  rw [hs, hover]

theorem execTranspose_of_unwritten {b : Buf} {s : State} {p : Nat × Nat} (hs : s.cur.stage = .begin) (hp : p ∈ quadrant s.cur.cfg)
    (hnone : (s.cur.buf b).readElem (quadSrc s.cur.cfg p) = none) : execTranspose b s = .fault .unwrittenRead := by
  have hread : s.srcRead b (quadSrc s.cur.cfg p) = none := by
    unfold State.srcRead
    rw [hnone]
    rfl
  have hsend : s.send b = none := by
    unfold State.send
    rw [readAll_eq_none (List.mem_map_of_mem hp) hread]
  unfold execTranspose
  rw [hs, hsend]

/-! ### The statement -/

/-- Settles O26, command by command. -/
theorem unwrittenReadsFault : Obligations.UnwrittenReadsFault := by
  intro b s hl hn
  have hw : s.cur.cfg.wf = true := (State.legal_eng hl hn).1
  refine ⟨fun hN htw => ?_, fun hlen hbr => ?_, fun br tw e hN hbrOk htwOk hfits hbr htw hcols hk hnone => ?_, fun hct => ?_,
    fun e _ _ hk hnone => ?_, fun e hk hnone hs => ?_, fun r xc hr hxc hnone hs => ?_⟩
  · refine execFft_of_error (fftBuffer_of_no_tw ?_)
    rw [htw, readTable_of_invalid _ (twNeed_pos hw hN)]
  · refine execFft_of_error (fftBuffer_of_no_br ?_)
    rw [hbr, readTable_of_invalid _ (by simpa [Nat.pos_iff_ne_zero, BitVec.toNat_eq] using hlen)]
  · refine execFft_of_error (fftBuffer_of_unwritten hw hN ?_ ?_ (Memory.readElems_eq_some.1 htw).1 hcols hk hnone)
    · rcases hbrOk with h0 | hv
      · rw [h0] at hbr ⊢
        exact hbr
      · rw [hv, readTable_of_valid _ le_rfl, hbr]
    · rw [htwOk, readTable_of_valid _ hfits, htw]
  · refine execCorrect_of_error (correctBuffer_of_no_ct ?_)
    rw [hct, readTable_of_invalid _ (NodeCfg.th_pos hw)]
  · exact execCorrect_of_error (correctBuffer_of_unwritten hw hk hnone)
  · exact execEmit_of_unwritten hs hk hnone
  · exact execTranspose_of_unwritten (p := (r, xc)) hs (mem_quadrant.2 ⟨hr, hxc⟩) hnone

end Sys2Proof.Machine
end

section
/-! PROOFS. Buffers, regions and racing accesses: no step lists anything beyond a buffer, a pending byte becomes visible in `OUT` alone,
what a command leaves of the other nodes, and what a racing read gives (spec 20_memory.md R65 to R67, R76, R77, R80, R89, R91). -/

namespace Sys2Proof.Machine

/-! ### Buffers stay inside their range -/

theorem Engine.buffersInRange_iff (e : Engine) :
    e.buffersInRange = true ↔ ∀ b, (e.buf b).below (8 * bufElems e.cfg) = true := by
  rw [Engine.buffersInRange, Bool.and_eq_true]
  exact ⟨fun h b => by cases b; exacts [h.1, h.2], fun h => ⟨h .A, h .B⟩⟩

/-- Of the moves of an engine only the replacement of a buffer concerns a range, and that one is tame. -/
theorem EngineMoves.buffersInRange {e e' : Engine} (h : EngineMoves e e') (hr : e.buffersInRange = true) :
    e'.buffersInRange = true := by
  induction h with
  | trans _ _ ih ih' => exact ih' (ih hr)
  | buffer e b m hm =>
    rw [Engine.buffersInRange_iff] at hr ⊢
    intro c
    rw [Engine.setBuf_buf, Engine.setBuf_cfg]
    split_ifs
    exacts [hm.2 (hr b), hr c]
  | _ => exact hr

theorem Engine.start_buffersInRange (e : Engine) : e.start.buffersInRange = e.buffersInRange := by
  unfold Engine.start
  split <;> rfl

/-- Settles O48: every move of an engine keeps its buffers inside their range, the start leaves them and reset empties them. -/
theorem stepKeepsBuffersInRange : Obligations.StepKeepsBuffersInRange := by
  intro s t hs h
  rw [State.buffersInRange, State.all_engines_iff (by rfl)] at hs ⊢
  exact step_keeps (fun e e' hm => hm.buffersInRange) (fun e hr => e.start_buffersInRange.trans hr) (fun e _ => rfl) h hs

/-! ### A pending byte becomes visible -/

theorem State.performOut_of_pending {s : State} {p i : Nat} {w : OutWrite} (hw : (s.eng p).outPending[i]? = some w)
    (hoff : w.off < regionBytes (s.eng p).cfg) :
    s.performOut p i = .next (({ s with outRegion := s.outRegion.write w.off w.val } : State).modEng p fun e =>
      { e with outPending := e.outPending.eraseIdx i }) := by
  rw [State.performOut, hw]
  exact if_pos hoff

/-- Settles O31: the fabric's turn writes the byte at its own offset and takes it off the node's pending bytes. -/
theorem outputWriteBecomesVisible : Obligations.OutputWriteBecomesVisible := by
  intro s p i w rest hl hp hev hw hoff
  have hstep := (step_of_world_event hl hev nofun).trans
    (State.performOut_of_pending (s := { s with events := rest }) hw hoff)
  have hself := State.eng_modEng_self { s with events := rest, outRegion := s.outRegion.write w.off w.val }
    (fun e => { e with outPending := e.outPending.eraseIdx i }) hp
  refine ⟨_, hstep, Memory.read_write_self _ _ _, fun a ha => Memory.read_write_of_ne _ _ ha, ?_, ?_,
    fun q hq => State.eng_modEng_of_ne _ _ hq, rfl, rfl⟩ <;> rw [hself] <;> rfl

/-! ### What a command leaves of the other nodes -/

@[simp] theorem State.fenced_arrivals (s : State) : s.fenced.arrivals = s.arrivals := by
  rcases s.fenced_cases with ⟨_, h⟩ | ⟨_, h⟩ <;> simp [h]

@[simp] theorem State.waitBarrier_arrivals (s : State) : s.waitBarrier.arrivals = s.arrivals := by
  rcases s.waitBarrier_cases with ⟨_, h⟩ | ⟨_, h⟩ <;> simp [h]

@[simp] theorem State.pass_arrivals (s : State) : s.pass.arrivals = s.arrivals := by
  rcases s.pass_cases with ⟨_, h⟩ | ⟨_, h⟩ <;> simp [h]

@[simp] theorem State.announce_arrivals (s : State) : s.announce.arrivals = s.arrivals := by
  rcases s.announce_cases with ⟨_, h⟩ | ⟨_, h⟩ <;> simp [h]

theorem State.send_arrivals {s t : State} {b : Buf} (h : s.send b = some t) : t.arrivals = s.arrivals := by
  obtain ⟨_, _, _, _, rfl⟩ := State.send_cases h
  rfl

theorem State.handOver_arrivals {s t : State} {b : Buf} (h : s.handOver b = some t) : t.arrivals = s.arrivals := by
  obtain ⟨_, _, rfl⟩ := State.handOver_cases h
  rfl

/-- An arrival counts for the node that arrives (44_pipeline_driver.md R206). -/
theorem State.arrivalsOf_arrive_of_ne (s : State) {q : Nat} (hq : q ≠ s.node) : s.arrive.arrivalsOf q = s.arrivalsOf q := by
  show (s.arrivals.set s.node (s.arrivalsOf s.node + 1)).getD q 0 = s.arrivals.getD q 0
  rw [List.getD_eq_getElem?_getD, List.getElem?_set_ne hq.symm, ← List.getD_eq_getElem?_getD]

theorem State.arrivalsOf_congr {s t : State} (h : t.arrivals = s.arrivals) (q : Nat) : t.arrivalsOf q = s.arrivalsOf q :=
  congrArg (fun l => l.getD q 0) h

/-- Only BARRIER counts an arrival, and its own node's. -/
theorem exec_arrivalsOf_of_ne {i : Instr} {s t : State} {q : Nat} (h : exec i s = .next t) (hq : q ≠ s.node) :
    t.arrivalsOf q = s.arrivalsOf q := by
  cases i with
  | twgen | brgen | ctgen | next | halt => cases h; rfl
  | ingest b =>
    rcases execIngest_cases h with ⟨_, rfl⟩ | ⟨_, rfl⟩ | ⟨_, _, rfl⟩
    exacts [rfl, State.arrivalsOf_congr (s.settle_arrivals b) q, rfl]
  | transpose b =>
    refine State.arrivalsOf_congr ?_ q
    rcases execTranspose_cases h with ⟨_, rfl⟩ | ⟨_, rfl⟩ | ⟨u, hu, rfl⟩
    exacts [s.announce_arrivals, s.pass_arrivals, u.announce_arrivals.trans (State.send_arrivals hu)]
  | fft b => obtain ⟨m, _, rfl⟩ := execFft_cases h; exact State.arrivalsOf_congr (s.settle_arrivals b) q
  | correct b => obtain ⟨m, _, rfl⟩ := execCorrect_cases h; exact State.arrivalsOf_congr (s.settle_arrivals b) q
  | emit b =>
    refine State.arrivalsOf_congr ?_ q
    rcases execEmit_cases h with ⟨_, rfl⟩ | ⟨_, rfl⟩ | h
    exacts [rfl, s.fenced_arrivals, State.handOver_arrivals h]
  | barrier =>
    rcases execBarrier_cases h with ⟨_, rfl⟩ | ⟨_, rfl⟩
    · exact State.arrivalsOf_congr s.waitBarrier_arrivals q
    · exact (State.arrivalsOf_congr s.arrive.waitBarrier_arrivals q).trans (s.arrivalsOf_arrive_of_ne hq)

/-! ### Which racing writes are still in flight -/

/-- The same transfer with no write pending that was not (20_memory.md R91). -/
def Transfer.Narrows (tr tr' : Transfer) : Prop :=
  tr'.desc = tr.desc ∧ tr'.values = tr.values ∧ tr'.pending.Sublist tr.pending

theorem Transfer.Narrows.refl (tr : Transfer) : tr.Narrows tr := ⟨rfl, rfl, .refl _⟩

theorem Transfer.narrows_settle (n q : Nat) (b : Buf) (p : Nat) (tr : Transfer) : tr.Narrows (tr.settle n q b p) := by
  unfold Transfer.settle
  split_ifs
  exacts [⟨rfl, rfl, List.filter_sublist⟩, .refl tr]

/-- Some transfers have left, in whichever places, and the others are narrowed. -/
def TransfersNarrow (ts ts' : List Transfer) : Prop :=
  ∃ kept : List Transfer, kept.Sublist ts ∧ List.Forall₂ Transfer.Narrows kept ts'

theorem TransfersNarrow.refl (ts : List Transfer) : TransfersNarrow ts ts :=
  ⟨ts, .refl ts, List.forall₂_same.2 fun tr _ => .refl tr⟩

/-- The transfers kept are those a settling leaves something to write. -/
theorem transfersNarrow_stillPending {f : Transfer → Transfer} (hf : ∀ tr : Transfer, tr.Narrows (f tr)) (ts : List Transfer) :
    TransfersNarrow ts (stillPending (ts.map f)) := by
  refine ⟨ts.filter fun tr => !(f tr).pending.isEmpty, List.filter_sublist, ?_⟩
  rw [stillPending, List.filter_map, List.forall₂_map_right_iff]
  exact List.forall₂_same.2 fun tr _ => hf tr

/-- A settling narrows the transfers of every node. -/
theorem State.transfersNarrow_settle (s : State) (b : Buf) (q : Nat) :
    TransfersNarrow (s.eng q).outstanding ((s.settle b).eng q).outstanding := by
  rcases Nat.lt_or_ge q s.engines.length with hq | hq
  · unfold State.settle
    split
    · exact .refl _
    · have heng : State.eng { s with engines := s.engines.map (Engine.settle s.draws s.node b) } q
          = (s.eng q).settle s.draws s.node b := by simp [State.eng, hq]
      rw [heng]
      exact transfersNarrow_stillPending (Transfer.narrows_settle _ _ _ _) _
  · rw [(s.settle b).eng_of_le (by simpa using hq), s.eng_of_le hq]
    exact .refl _

/-- A command leaves another node as it is, or settles a buffer: INGEST, FFT and CORRECT. -/
theorem exec_eng_eq_or_settled {i : Instr} {s t : State} {q : Nat} (h : exec i s = .next t) (hq : q ≠ s.node) :
    t.eng q = s.eng q ∨ ∃ b, t.eng q = (s.settle b).eng q := by
  have settled : ∀ b f, ((s.settle b).modCur f).tick.eng q = (s.settle b).eng q :=
    fun b f => (s.settle b).eng_one_of_ne f (by simpa using hq)
  cases i with
  | twgen | brgen | ctgen | next | halt => cases h; exact .inl (s.eng_one_of_ne _ hq)
  | ingest b =>
    rcases execIngest_cases h with ⟨_, rfl⟩ | ⟨_, rfl⟩ | ⟨_, _, rfl⟩
    exacts [.inl rfl, .inr ⟨b, settled b _⟩, .inl (s.eng_modCur_of_ne _ hq)]
  | transpose b =>
    rcases execTranspose_cases h with ⟨_, rfl⟩ | ⟨_, rfl⟩ | ⟨u, hu, rfl⟩
    · exact .inl (s.eng_announce_of_ne hq)
    · exact .inl (s.eng_pass_of_ne hq)
    · have hnode : u.node = s.node := congrArg (fun w => w.2.2.2.1) (State.surround_send hu)
      exact .inl ((u.eng_announce_of_ne (hnode ▸ hq)).trans (State.eng_send_of_ne hu hq))
  | fft b => obtain ⟨m, _, rfl⟩ := execFft_cases h; exact .inr ⟨b, settled b _⟩
  | correct b => obtain ⟨m, _, rfl⟩ := execCorrect_cases h; exact .inr ⟨b, settled b _⟩
  | emit b =>
    rcases execEmit_cases h with ⟨_, rfl⟩ | ⟨_, rfl⟩ | h
    · exact .inl rfl
    · exact .inl (s.eng_fenced_of_ne hq)
    · obtain ⟨_, _, rfl⟩ := State.handOver_cases h
      exact .inl (s.eng_one_of_ne _ hq)
  | barrier =>
    rcases execBarrier_cases h with ⟨_, rfl⟩ | ⟨_, rfl⟩
    exacts [.inl (s.eng_waitBarrier_of_ne hq), .inl ((s.arrive.eng_waitBarrier_of_ne hq).trans (s.eng_arrive_of_ne hq))]

theorem exec_transfersNarrow_of_ne {i : Instr} {s t : State} {q : Nat} (h : exec i s = .next t) (hq : q ≠ s.node) :
    TransfersNarrow (s.eng q).outstanding (t.eng q).outstanding := by
  rcases exec_eng_eq_or_settled h hq with he | ⟨b, he⟩ <;> rw [he]
  exacts [.refl _, s.transfersNarrow_settle b q]

/-- Settles O57: of another node a command changes nothing but `OUTSTANDING`, and that only by a settling, which narrows it. -/
theorem commandsStayOnTheirNode : Obligations.CommandsStayOnTheirNode :=
  fun _ _ _ _ h hq =>
    ⟨exec_eng_of_ne h hq, exec_inRegion h, exec_outRegion h, exec_arrivalsOf_of_ne h hq, exec_transfersNarrow_of_ne h hq⟩

/-! ### Racing reads -/

theorem mem_newHalves {inc : Incoming} {e : Nat} {h : Half} {v : F32} : v ∈ newHalves inc e h ↔ ((e, h), v) ∈ inc := by
  simp [newHalves]

theorem newHalves_eq_nil {inc : Incoming} {e : Nat} (hne : ∀ w ∈ inc, w.1.1 ≠ e) (h : Half) : newHalves inc e h = [] :=
  List.eq_nil_iff_forall_not_mem.2 fun _ hv => hne _ (mem_newHalves.1 hv) rfl

/-- Whichever write a read of a half sees, it is one in flight to that half, or none. -/
theorem newHalves_getD (inc : Incoming) (e : Nat) (h : Half) (k : Nat) (old : F32) :
    (newHalves inc e h).getD k old = old ∨ ((e, h), (newHalves inc e h).getD k old) ∈ inc := by
  rcases Nat.lt_or_ge k (newHalves inc e h).length with hk | hk
  · rw [List.getD_eq_getElem _ _ hk]
    exact .inr (mem_newHalves.1 (List.getElem_mem hk))
  · exact .inl (List.getD_eq_default _ _ hk)

/-- Settles O44, half by half. -/
theorem racingReadsAreOldOrNewPerHalf : Obligations.RacingReadsAreOldOrNewPerHalf := by
  intro inc d e old
  refine ⟨newHalves_getD inc e .x _ _, newHalves_getD inc e .y _ _, fun hne => ?_⟩
  rw [raceRead, newHalves_eq_nil hne, newHalves_eq_nil hne]
  rfl

end Sys2Proof.Machine
end

section
/-! PROOFS. Decoder and encoder are inverse, and the decoder rejects exactly the words R105 calls illegal (spec 30_encoding.md R100,
R101, R105). -/

namespace Sys2Proof.Machine

/-! ### The fields of a word -/

@[simp] theorem op_packWord (o : BitVec 4) (c : Bool) : CmdWord.op (packWord o c) = o := by
  revert o c; decide

@[simp] theorem b_packWord (o : BitVec 4) (c : Bool) : CmdWord.b (packWord o c) = c := by
  revert o c; decide

@[simp] theorem z_packWord (o : BitVec 4) (c : Bool) : CmdWord.z (packWord o c) = 0 := by
  revert o c; decide

theorem toNat_packWord (o : BitVec 4) (c : Bool) : (packWord o c).toNat = 16 * o.toNat + 8 * c.toNat := by
  revert o c; decide

theorem toNat_op (w : CmdWord) : (CmdWord.op w).toNat = w.toNat / 16 := by
  have := w.isLt
  simp only [CmdWord.op, BitVec.extractLsb'_toNat, Nat.shiftRight_eq_div_pow]
  omega

theorem toNat_b (w : CmdWord) : (CmdWord.b w).toNat = w.toNat / 8 % 2 :=
  Nat.toNat_testBit w.toNat 3

theorem z_eq_zero_iff (w : CmdWord) : CmdWord.z w = 0 ↔ w.toNat % 8 = 0 := by
  simp [CmdWord.z, ← BitVec.toNat_inj]

/-- A word with `z = 000` is packed from its other two fields. -/
theorem packWord_fields {w : CmdWord} (hz : CmdWord.z w = 0) : packWord (CmdWord.op w) (CmdWord.b w) = w := by
  apply BitVec.eq_of_toNat_eq
  rw [z_eq_zero_iff] at hz
  rw [toNat_packWord, toNat_op, toNat_b]
  omega

@[simp] theorem ofBit_toBit (b : Buf) : Buf.ofBit b.toBit = b := by cases b <;> rfl

@[simp] theorem toBit_ofBit (c : Bool) : (Buf.ofBit c).toBit = c := by cases c <;> rfl

/-! ### The decoder -/

theorem noBuffer_eq_ok_iff {w : CmdWord} {i j : Instr} : noBuffer w j = .ok i ↔ CmdWord.b w = false ∧ j = i := by
  cases h : CmdWord.b w <;> simp [noBuffer, h]

theorem decode_eq_ok_iff {w : CmdWord} {i : Instr} : decode w = .ok i ↔ CmdWord.z w = 0 ∧ decodeOp w = .ok i := by
  rw [decode]
  split <;> simp_all only [true_and, false_and, reduceCtorEq]

theorem decode_encode (i : Instr) : decode (encode i) = .ok i := by
  cases i <;> simp [encode, decode, decodeOp, noBuffer]

/-- Per operation, the command decoded is encoded with the fields of the word. -/
theorem encode_of_decodeOp {w : CmdWord} {i : Instr} (h : decodeOp w = .ok i) :
    encode i = packWord (CmdWord.op w) (CmdWord.b w) := by
  unfold decodeOp at h
  split at h <;> rename_i hop
  case h_1 | h_2 | h_3 | h_9 | h_10 | h_11 =>
    obtain ⟨hb, rfl⟩ := noBuffer_eq_ok_iff.1 h
    exact congrArg₂ packWord (BitVec.eq_of_toNat_eq hop.symm) hb.symm
  case h_4 | h_5 | h_6 | h_7 | h_8 =>
    cases h
    exact congrArg₂ packWord (BitVec.eq_of_toNat_eq hop.symm) (toBit_ofBit _)
  case h_12 => cases h

theorem encode_of_decode {w : CmdWord} {i : Instr} (h : decode w = .ok i) : encode i = w := by
  obtain ⟨hz, hop⟩ := decode_eq_ok_iff.1 h
  exact (encode_of_decodeOp hop).trans (packWord_fields hz)

/-! ### Illegal words -/

theorem illegalWord_eq_false_iff (w : CmdWord) :
    illegalWord w = false ↔ CmdWord.z w = 0 ∧ (CmdWord.op w).toNat ≠ 0 ∧ (CmdWord.op w).toNat < 12
      ∧ (CmdWord.b w = true → hasNoBuffer (CmdWord.op w).toNat = false) := by
  rw [z_eq_zero_iff, ← Bool.toNat_eq_one, toNat_b, toNat_op]
  simp [illegalWord, and_assoc, and_comm]

theorem exists_decodeOp_iff (w : CmdWord) :
    (∃ i, decodeOp w = .ok i) ↔ (CmdWord.op w).toNat ≠ 0 ∧ (CmdWord.op w).toNat < 12
      ∧ (CmdWord.b w = true → hasNoBuffer (CmdWord.op w).toNat = false) := by
  unfold decodeOp
  split <;> rename_i hop
  case h_1 | h_2 | h_3 | h_9 | h_10 | h_11 => simp [noBuffer_eq_ok_iff, hasNoBuffer, hop]
  case h_4 | h_5 | h_6 | h_7 | h_8 => simp [hasNoBuffer, hop]
  case h_12 =>
    simp only [reduceCtorEq, exists_false, false_iff]
    rintro ⟨h0, h12, -⟩
    simp only [imp_false] at *
    omega

theorem illegalWord_eq_false_iff_decode (w : CmdWord) : illegalWord w = false ↔ ∃ i, decode w = .ok i := by
  simp only [illegalWord_eq_false_iff, decode_eq_ok_iff, exists_and_left, exists_decodeOp_iff]

/-! ### The statements -/

/-- Settles O1: each word is the encoding of the command it stands for. -/
theorem encodedWordsOfTheTable : Obligations.EncodedWordsOfTheTable :=
  ⟨decode_encode .twgen, decode_encode .brgen, decode_encode .ctgen, decode_encode (.ingest .A), decode_encode (.ingest .B),
    decode_encode (.transpose .A), decode_encode (.transpose .B), decode_encode (.fft .A), decode_encode (.fft .B),
    decode_encode (.correct .A), decode_encode (.correct .B), decode_encode (.emit .A), decode_encode (.emit .B),
    decode_encode .barrier, decode_encode .next, decode_encode .halt⟩

/-- Settles O2: the fields of a packed word are those it was packed from, and no command is ill formed. -/
theorem decodeOfEncode : Obligations.DecodeOfEncode := fun i _ => decode_encode i

/-- Settles O3: `decodeOp` answers on exactly the fields R105 leaves legal, and the fields say all of a word with `z = 000`. -/
theorem illegalWordsAreRejected : Obligations.IllegalWordsAreRejected :=
  ⟨illegalWord_eq_false_iff_decode, fun _ _ => encode_of_decode, by decide⟩

end Sys2Proof.Machine
end

section
/-! PROOFS. The reference `TRIG` depends on the quotient of its arguments alone, and its values at the printed angles (spec
40_precompute.md R120). -/

namespace Sys2Proof.Machine

theorem quarterTrig_mul_right (r den : Nat) {k : Nat} (hk : 0 < k) : quarterTrig (r * k) (den * k) = quarterTrig r den := by
  unfold quarterTrig
  rw [← Nat.mul_assoc, ← Nat.mul_assoc, Nat.mul_div_mul_right _ _ hk]

/-- The angle `2*pi*num/den` is reduced exactly, so a common factor of `num` and `den` makes no difference. -/
theorem trigReference_mul_right (num den : Nat) {k : Nat} (hk : 0 < k) :
    trigReference (num * k) (den * k) = trigReference num den := by
  have hzero : ∀ x, (x * k != 0) = (x != 0) := fun x => by
    rw [Bool.eq_iff_iff]
    simp [hk.ne']
  unfold trigReference
  simp only [Nat.mul_mod_mul_right, ← Nat.mul_assoc, Nat.mul_div_mul_right _ _ hk, quarterTrig_mul_right _ _ hk, hzero]

/-- Settles O18: the angles are those of `k = 1`, where the fixed-point series is evaluated. -/
theorem trigReferenceValues : Obligations.TrigReferenceValues := by
  intro k hk
  have hscale (num den : Nat) {n d : Nat} (hn : n = num * k) (hd : d = den * k) : trig .reference n d = trigReference num den := by
    rw [hn, hd]
    exact trigReference_mul_right num den hk
  refine ⟨(hscale 0 1 ?_ ?_).trans ?_, (hscale 1 4 ?_ ?_).trans ?_, (hscale 1 8 ?_ ?_).trans ?_, (hscale 3 8 ?_ ?_).trans ?_,
    (hscale 1 16 ?_ ?_).trans ?_⟩
  case refine_3 | refine_6 | refine_9 | refine_12 | refine_15 => decide +kernel
  all_goals omega

end Sys2Proof.Machine
end

section
/-! PROOFS. The generators: what each leaves where its table fits and where it does not, and that a table changes in its own generator
alone (spec 40_precompute.md R121 to R132, 60_exceptions.md R226, R230). -/

namespace Sys2Proof.Machine

/-! ### A table written from its first unit on -/

theorem Memory.readElem_writeElems_zero (m : Memory) {vs : List Cplx} {p : Nat} (h : p < vs.length) :
    (m.writeElems 0 vs).readElem p = vs[p]? := by
  rw [Memory.readElem_writeElems, if_pos (by omega), Nat.sub_zero]

theorem Memory.keptFrom_writeElems_zero (m : Memory) (vs : List Cplx) : Memory.KeptFrom (8 * vs.length) m (m.writeElems 0 vs) :=
  fun _ ha => Memory.read_writeElems_of_outside m vs (.inr (by omega))

@[simp] theorem flagOf_setFlag_self (w : BitVec 32) {i : Nat} (v : Bool) (h : i < 32) : flagOf (setFlag w i v) i = v := by
  rw [flagOf_setFlag _ _ _ _ h, if_pos rfl]

/-! ### TWGEN -/

/-- Block `i`, entry `j` of blocks of one length put one after the other. -/
theorem getElem?_flatMap_range {α : Type} {f : Nat → List α} {c n i j : Nat} (hf : ∀ k, k < n → (f k).length = c)
    (hi : i < n) (hj : j < c) : ((List.range n).flatMap f)[i * c + j]? = (f i)[j]? := by
  induction n generalizing f i with
  | zero => omega
  | succ n ih =>
    have h0 := hf 0 n.succ_pos
    rw [List.range_succ_eq_map, List.flatMap_cons, List.flatMap_map]
    cases i with
    | zero => rw [List.getElem?_append_left (by omega), Nat.zero_mul, Nat.zero_add]
    | succ i =>
      have hle : c ≤ (i + 1) * c := Nat.le_mul_of_pos_left c i.succ_pos
      rw [List.getElem?_append_right (by omega), h0, show (i + 1) * c + j - c = i * c + j by rw [Nat.succ_mul]; omega]
      exact ih (f := fun k => f (k + 1)) (fun k hk => hf (k + 1) (by omega)) (by omega)

theorem getElem?_stageNest {n m blk j : Nat} (hb : blk < n / m) (hj : j < m / 2) :
    (stageNest n m)[blk * (m / 2) + j]? = some { m := m, k := blk * m, j := j } := by
  unfold stageNest
  rw [getElem?_flatMap_range (fun _ _ => by simp) hb hj]
  simp [hj]

/-- The position law of the twiddle table (R122). -/
theorem getElem?_loopNest {l st blk j : Nat} (h1 : 1 ≤ st) (hst : st ≤ l) (hb : blk < 2 ^ l / 2 ^ st) (hj : j < 2 ^ st / 2) :
    (loopNest (2 ^ l) l)[(st - 1) * (2 ^ l / 2) + blk * (2 ^ st / 2) + j]? = some { m := 2 ^ st, k := blk * 2 ^ st, j := j } := by
  obtain ⟨s, rfl⟩ := Nat.exists_eq_add_of_le' h1
  have hstage := getElem?_stageNest hb hj
  have hlt := (List.getElem?_eq_some_iff.1 hstage).1
  rw [length_stageNest hst] at hlt
  unfold loopNest
  rw [Nat.add_sub_cancel, Nat.add_assoc, getElem?_flatMap_range (fun _ hk => length_stageNest hk) hst hlt, hstage]

/-- Settles O12: the table is `TRIG(J, M)` along the loop nest, whose order is the position law. -/
theorem twgenFillsTheTable : Obligations.TwgenFillsTheTable := by
  rintro s ⟨hl, hn, _, hpc⟩ hcap
  have hw : s.cur.cfg.wf = true := (State.legal_eng hl hn).1
  have hN : cfgN s.cur.cfg = 2 ^ cfgL s.cur.cfg := (NodeCfg.wf_spec hw).2.2.2.1
  have hlen : (twTable s.params.numerics.trig (cfgN s.cur.cfg) (cfgL s.cur.cfg)).length = twNeed s.cur.cfg := by
    rw [length_twTable, twNeed, hN, length_loopNest]
  have hheld := (Engine.twHolds_twgen s.params.numerics.trig s.draws hw).1
  have hcur := s.cur_one (Engine.twgen s.params.numerics.trig s.draws) hn
  rw [Engine.twgen_of_capacity hcap hpc] at hcur hheld
  refine ⟨_, rfl, ?_⟩
  rw [hcur]
  refine ⟨rfl, rfl, (hheld (flagOf_setFlag_self _ _ (by decide))).1, flagOf_setFlag_self _ _ (by decide),
    statusKeptBut_setFlag_setFlag _ _ _ _, fun st blk j h1 hst hb hj => ?_, ?_, rfl, rfl, rfl, ⟨rfl, rfl⟩,
    ⟨rfl, rfl, rfl, rfl, rfl⟩, ⟨rfl, rfl, rfl⟩, rfl, s.keepsOthers_one _, s.keepsWorld_one _⟩
  · have hentry := getElem?_loopNest h1 hst (hN ▸ hb) hj
    have hlt := (List.getElem?_eq_some_iff.1 hentry).1
    rw [← hN] at hentry hlt
    rw [Memory.readElem_writeElems_zero _ (by simpa using hlt)]
    simp [twTable, hentry]
  · have hkept := Memory.keptFrom_writeElems_zero s.cur.tw
      ((twTable s.params.numerics.trig (cfgN s.cur.cfg) (cfgL s.cur.cfg)).map TrigPair.toCplx)
    rwa [List.length_map, hlen] at hkept

/-! ### CTGEN -/

/-- Settles O17: the table is `TRIG(BAND_OFFSET + R, WIDTH * HEIGHT)` for each local row. -/
theorem ctgenFillsTheTable : Obligations.CtgenFillsTheTable := by
  rintro s ⟨hl, hn, _, hpc⟩ hcap
  have hcur := s.cur_one (Engine.ctgen s.params.numerics.trig s.draws) hn
  rw [Engine.ctgen_of_capacity hcap hpc] at hcur
  refine ⟨_, rfl, ?_⟩
  rw [hcur]
  refine ⟨rfl, rfl, flagOf_setFlag_self _ _ (by decide), statusKeptBut_setFlag_setFlag _ _ _ _, fun r hr => ?_, ?_, rfl, rfl, rfl, rfl,
    ⟨rfl, rfl⟩, ⟨rfl, rfl, rfl, rfl, rfl⟩, ⟨rfl, rfl, rfl⟩, rfl, s.keepsOthers_one _, s.keepsWorld_one _⟩
  · rw [Memory.readElem_writeElems_zero _ (by simpa using hr)]
    simp [ctTable, hr, bandOffset, cfgP]
  · have hkept := Memory.keptFrom_writeElems_zero s.cur.ct ((ctTable s.params.numerics.trig s.cur.cfg).map TrigPair.toCplx)
    rwa [List.length_map, length_ctTable] at hkept

/-! ### ALLOC_FAIL -/

/-- Generator `i`, whose valid bit is `v`, lacks the capacity for its table (R123, R125, R131). -/
def LacksTable (i : Instr) (v : Nat) (c : NodeCfg) : Prop :=
  i = .twgen ∧ v = Flag.twValid ∧ c.twCap < twNeed c ∨ i = .brgen ∧ v = Flag.brValid ∧ c.brCap < cfgN c
    ∨ i = .ctgen ∧ v = Flag.ctValid ∧ c.ctCap < cfgTH c

/-- A generator that lacks the capacity clears its valid bit and its length register, charges its time and takes the fault. -/
theorem exec_of_lacksTable {i : Instr} {v : Nat} {s : State} (h : LacksTable i v s.cur.cfg) :
    ∃ cycles work, exec i s = .next (s.modCur fun _ => Engine.fatalEntry .allocFail
      { s.cur with
        twLen := if i = .twgen then 0 else s.cur.twLen
        brLen := if i = .brgen then 0 else s.cur.brLen
        status := setFlag s.cur.status v false
        compCycles := cycles
        work := work }).tick := by
  have hexec : ∀ {f : Engine → Engine} {d : Engine}, f s.cur = d → (s.modCur f).tick = (s.modCur fun _ => d).tick :=
    fun hd => by subst hd; rfl
  rcases h with ⟨rfl, rfl, hc⟩ | ⟨rfl, rfl, hc⟩ | ⟨rfl, rfl, hc⟩
  · exact ⟨_, _, congrArg _ (hexec (Engine.twgen_of_small hc))⟩
  · exact ⟨_, _, congrArg _ (hexec (Engine.brgen_of_small hc))⟩
  · exact ⟨_, _, congrArg _ (hexec (Engine.ctgen_of_small hc))⟩

/-- Settles O13: what the fault leaves is the same for the three generators but for the bit and the length register they clear. -/
theorem smallTableIsAllocFail : Obligations.SmallTableIsAllocFail := by
  intro s i v _ hn _ hlacks
  obtain ⟨cycles, work, hexec⟩ := exec_of_lacksTable hlacks
  have hv : v = 3 ∨ v = 4 ∨ v = 5 := by
    rcases hlacks with ⟨_, rfl, _⟩ | ⟨_, rfl, _⟩ | ⟨_, rfl, _⟩ <;> decide
  refine ⟨_, hexec, ?_⟩
  rw [State.cur_one _ hn]
  refine ⟨rfl, codeOf_setCode _ _, ?_, ?_, fun k hfatal hkv hcode => ?_, rfl, rfl, rfl, rfl, rfl, rfl, ⟨rfl, rfl⟩,
    ⟨rfl, rfl, rfl, rfl, rfl⟩, rfl, rfl, rfl, s.keepsOthers_one _, s.keepsWorld_one _⟩
  · rw [Engine.fatalEntry_status, flagOf_setCode _ _ (by decide), flagOf_setFlag_self _ _ (by decide)]
  · rw [Engine.flagOf_fatalEntry _ _ hv, flagOf_setFlag_self _ _ (by omega)]
  · rw [Engine.fatalEntry_status, getLsbD_setCode, if_neg (by omega), getLsbD_setFlag, if_neg fun h => hfatal h.1, getLsbD_setFlag,
      if_neg fun h => hkv h.1]

/-! ### LUT_OVERFLOW -/

/-- Settles O16: fewer passes than `N` are made, each with at most one pair, so that BRGEN with enough capacity completes. -/
theorem lutOverflowIsUnreachable : Obligations.LutOverflowIsUnreachable := by
  refine ⟨brRun_overflow, fun s t ⟨_, hn, _, hpc⟩ hcap hrun h => ?_⟩
  cases h
  rw [State.cur_one _ hn, Engine.brgen_of_capacity hcap hpc (brRun_overflow _ _)]
  exact hrun

/-! ### A table changes in its own generator alone -/

/-- The twiddle table, its length and its valid bit are the same (R132). -/
def Engine.SameTw (e e' : Engine) : Prop :=
  e'.tw = e.tw ∧ e'.twLen = e.twLen ∧ flagOf e'.status Flag.twValid = flagOf e.status Flag.twValid

/-- The LUT, its length and its valid bit are the same (R132). -/
def Engine.SameBr (e e' : Engine) : Prop :=
  e'.br = e.br ∧ e'.brLen = e.brLen ∧ flagOf e'.status Flag.brValid = flagOf e.status Flag.brValid

/-- The correction table and its valid bit are the same (R132). -/
def Engine.SameCt (e e' : Engine) : Prop := e'.ct = e.ct ∧ flagOf e'.status Flag.ctValid = flagOf e.status Flag.ctValid

/-- The same tables are the same table by table, whatever a table is asked under. -/
theorem Engine.SameTables.each {e e' : Engine} (h : e.SameTables e') {a b c : Prop} :
    (a → e.SameTw e') ∧ (b → e.SameBr e') ∧ (c → e.SameCt e') := by
  obtain ⟨⟨htw, htl, hbr, hbl, hct⟩, hvt, hvb, hvc⟩ := h
  exact ⟨fun _ => ⟨htw, htl, hvt⟩, fun _ => ⟨hbr, hbl, hvb⟩, fun _ => ⟨hct, hvc⟩⟩

/-- A command leaves every table of its node but that of the generator it is. -/
theorem exec_sameTables {i : Instr} {s t : State} (h : exec i s = .next t) (hn : s.node < s.engines.length) :
    (i ≠ .twgen → s.cur.SameTw t.cur) ∧ (i ≠ .brgen → s.cur.SameBr t.cur) ∧ (i ≠ .ctgen → s.cur.SameCt t.cur) := by
  cases i with
  | twgen =>
    cases h
    rw [State.cur_one _ hn]
    obtain ⟨kbr, kbl, kct, kvb, kvc, _⟩ := Engine.twgen_keeps s.params.numerics.trig s.draws s.cur
    exact ⟨fun hi => absurd rfl hi, fun _ => ⟨kbr, kbl, kvb⟩, fun _ => ⟨kct, kvc⟩⟩
  | brgen =>
    cases h
    rw [State.cur_one _ hn]
    obtain ⟨ktw, ktl, kct, kvt, kvc, _⟩ := Engine.brgen_keeps s.draws s.cur
    exact ⟨fun _ => ⟨ktw, ktl, kvt⟩, fun hi => absurd rfl hi, fun _ => ⟨kct, kvc⟩⟩
  | ctgen =>
    cases h
    rw [State.cur_one _ hn]
    obtain ⟨ktw, ktl, kbr, kbl, kvt, kvb, _⟩ := Engine.ctgen_keeps s.params.numerics.trig s.draws s.cur
    exact ⟨fun _ => ⟨ktw, ktl, kvt⟩, fun _ => ⟨kbr, kbl, kvb⟩, fun hi => absurd rfl hi⟩
  | next => cases h; rw [State.cur_one _ hn]; exact (Engine.sameTables_nextIter _ _ _).each
  | halt => cases h; rw [State.cur_one _ hn]; exact (Engine.sameTables_halt _ _).each
  | _ => exact (exec_plain h hn (by simp)).tables.each

/-- Settles O55: a node's own command writes the table of the generator it is, and no other turn but reset writes any. -/
theorem tablesChangeOnlyInTheirGenerator : Obligations.TablesChangeOnlyInTheirGenerator := by
  intro s t q h hr
  rcases step_node_cases h hr q with ⟨i, hruns, hexec⟩ | ⟨_, he⟩ | ⟨_, he⟩ | ⟨ha, _⟩
  · obtain ⟨htw, hbr, hct⟩ := exec_sameTables hexec (State.lt_of_runs (s := s) (q := q) hruns)
    rw [exec_turnOf_cur hexec, State.turnOf_cur] at htw hbr hct
    exact ⟨fun hn => htw fun hi => hn (hi ▸ hruns), fun hn => hbr fun hi => hn (hi ▸ hruns),
      fun hn => hct fun hi => hn (hi ▸ hruns)⟩
  · rw [he]; exact (Engine.sameTables_fatalEntry _ _).each
  · rw [he]; exact (Engine.sameTables_start _).each
  · exact ha.sameTables.each

end Sys2Proof.Machine
end

section
/-! PROOFS. The bit reversal: its arithmetic, the number of its pairs, that the passes of BRGEN emit exactly them, and that their swaps
bit-reverse a row (spec 40_precompute.md R125, R126, 41_fft_kernel.md R144). -/

namespace Sys2Proof.Machine

/-! ### The reversal of the low bits -/

theorem revBits_lt (l i : Nat) : revBits l i < 2 ^ l := by
  induction l generalizing i with
  | zero => exact Nat.one_pos
  | succ l ih =>
    have hlow := ih (i / 2)
    have hbit : i % 2 * 2 ^ l ≤ 1 * 2 ^ l := Nat.mul_le_mul_right _ (by omega)
    rw [revBits, pow_succ]
    omega

theorem revBits_zero (l : Nat) : revBits l 0 = 0 := by
  induction l with
  | zero => rfl
  | succ l ih => simp [revBits, ih]

/-- The lowest bit of an index is the highest of its reversal. -/
theorem revBits_succ_two_mul (l m : Nat) : revBits (l + 1) (2 * m) = revBits l m := by
  rw [revBits, show 2 * m % 2 = 0 by omega, show 2 * m / 2 = m by omega, Nat.zero_mul, Nat.zero_add]

theorem revBits_succ_two_mul_add_one (l m : Nat) : revBits (l + 1) (2 * m + 1) = 2 ^ l + revBits l m := by
  rw [revBits, show (2 * m + 1) % 2 = 1 by omega, show (2 * m + 1) / 2 = m by omega, Nat.one_mul]

/-- The highest bit of an index is the lowest of its reversal. -/
theorem revBits_succ_of_high {l b m : Nat} (hb : b < 2) (hm : m < 2 ^ l) : revBits (l + 1) (b * 2 ^ l + m) = b + 2 * revBits l m := by
  induction l generalizing m with
  | zero =>
    obtain rfl : m = 0 := by omega
    simp [revBits, Nat.mod_eq_of_lt hb]
  | succ l ih =>
    have hrev := ih (m := m / 2) (by omega)
    rw [revBits, show b * 2 ^ (l + 1) + m = 2 * (b * 2 ^ l) + m by ring, show (2 * (b * 2 ^ l) + m) % 2 = m % 2 by omega,
      show (2 * (b * 2 ^ l) + m) / 2 = b * 2 ^ l + m / 2 by omega, hrev, revBits]
    ring

theorem revBits_revBits {l i : Nat} (h : i < 2 ^ l) : revBits l (revBits l i) = i := by
  induction l generalizing i with
  | zero => simp [revBits]; omega
  | succ l ih =>
    have hstep : revBits (l + 1) i = i % 2 * 2 ^ l + revBits l (i / 2) := rfl
    rw [hstep, revBits_succ_of_high (by omega) (revBits_lt l _), ih (by omega)]
    omega

/-! ### The number of pairs -/

theorem length_revPairs (l n : Nat) : (revPairs l n).length = Nat.count (fun i => i < revBits l i) n := by
  rw [revPairs, List.length_map, ← List.countP_eq_length_filter, Nat.count]

/-- Even and odd numbers counted apart. -/
theorem count_two_mul (p : Nat → Prop) [DecidablePred p] (n : Nat) :
    Nat.count p (2 * n) = Nat.count (fun m => p (2 * m)) n + Nat.count (fun m => p (2 * m + 1)) n := by
  induction n with
  | zero => simp
  | succ n ih =>
    rw [Nat.mul_succ, Nat.count_succ, Nat.count_succ, ih, Nat.count_succ, Nat.count_succ]
    omega

theorem count_congr {p q : Nat → Prop} [DecidablePred p] [DecidablePred q] {n : Nat} (h : ∀ i, i < n → (p i ↔ q i)) :
    Nat.count p n = Nat.count q n :=
  le_antisymm (Nat.count_mono_left fun i hi => (h i hi).1) (Nat.count_mono_left fun i hi => (h i hi).2)

/-- With a bit more at either end: where the two are equal the inner bits decide, and where they differ the low one does. -/
theorem length_revPairs_add_two (l : Nat) :
    (revPairs (l + 2) (2 ^ (l + 2))).length = 2 * (revPairs l (2 ^ l)).length + 2 ^ l := by
  have high0 : ∀ {m}, m < 2 ^ l → revBits (l + 1) m = 2 * revBits l m := fun hm => by
    simpa using revBits_succ_of_high (b := 0) (by omega) hm
  have high1 : ∀ {m}, m < 2 ^ l → revBits (l + 1) (2 ^ l + m) = 1 + 2 * revBits l m := fun hm => by
    simpa using revBits_succ_of_high (b := 1) (by omega) hm
  have h00 : Nat.count (fun m => 2 * m < revBits (l + 2) (2 * m)) (2 ^ l) = Nat.count (fun m => m < revBits l m) (2 ^ l) :=
    count_congr fun m hm => by rw [revBits_succ_two_mul, high0 hm]; omega
  have h01 : Nat.count (fun m => 2 * (2 ^ l + m) < revBits (l + 2) (2 * (2 ^ l + m))) (2 ^ l) = 0 :=
    Nat.count_of_forall_not fun m hm => by
      have hrev := revBits_lt l m
      rw [revBits_succ_two_mul, high1 hm]
      omega
  have h10 : Nat.count (fun m => 2 * m + 1 < revBits (l + 2) (2 * m + 1)) (2 ^ l) = 2 ^ l :=
    Nat.count_of_forall fun m hm => by
      rw [revBits_succ_two_mul_add_one, pow_succ]
      omega
  have h11 : Nat.count (fun m => 2 * (2 ^ l + m) + 1 < revBits (l + 2) (2 * (2 ^ l + m) + 1)) (2 ^ l)
      = Nat.count (fun m => m < revBits l m) (2 ^ l) :=
    count_congr fun m hm => by rw [revBits_succ_two_mul_add_one, high1 hm, pow_succ]; omega
  rw [length_revPairs, length_revPairs, show 2 ^ (l + 2) = 2 * (2 ^ l + 2 ^ l) by ring, count_two_mul, Nat.count_add, Nat.count_add,
    h00, h01, h10, h11]
  omega

theorem two_mul_length_revPairs (l : Nat) : 2 * (revPairs l (2 ^ l)).length + 2 ^ ((l + 1) / 2) = 2 ^ l := by
  induction l using Nat.twoStepInduction with
  | zero => decide
  | one => decide
  | more l ih _ =>
    rw [length_revPairs_add_two, show (l + 2 + 1) / 2 = (l + 1) / 2 + 1 by omega, pow_succ, pow_add]
    omega

/-- Settles O15: the pairs and their mirror images are the indices that are no palindromes. -/
theorem bitReversalPairCount : Obligations.BitReversalPairCount := by
  intro l
  have hcount := two_mul_length_revPairs l
  have hpos : 0 < 2 ^ ((l + 1) / 2) := by positivity
  omega

/-! ### The passes of BRGEN -/

theorem revPairs_succ (l n : Nat) :
    revPairs l (n + 1) = revPairs l n ++ if n < revBits l n then [{ i := n, j := revBits l n }] else [] := by
  unfold revPairs
  rw [List.range_succ, List.filter_append, List.map_append]
  split_ifs with h <;> simp [h]

/-- The carry rule takes the reversal of an index to that of the next (R125). -/
theorem carry_revBits {l fuel i : Nat} (hf : l < fuel) (hi : i + 1 < 2 ^ (l + 1)) :
    (carry fuel (2 ^ l) (revBits (l + 1) i)).2 + (carry fuel (2 ^ l) (revBits (l + 1) i)).1 = revBits (l + 1) (i + 1) := by
  induction l generalizing fuel i with
  | zero =>
    obtain rfl : i = 0 := by omega
    obtain ⟨fuel, rfl⟩ := Nat.exists_eq_add_of_lt hf
    simp [carry, revBits]
  | succ l ih =>
    obtain ⟨fuel, rfl⟩ : ∃ f, fuel = f + 1 := ⟨fuel - 1, by omega⟩
    rw [carry]
    rcases Nat.even_or_odd' i with ⟨m, rfl | rfl⟩
    · rw [revBits_succ_two_mul, revBits_succ_two_mul_add_one, if_neg (Nat.not_le.2 (revBits_lt _ _)), Nat.add_comm]
    · rw [revBits_succ_two_mul_add_one, if_pos (by omega), Nat.add_sub_cancel_left, show 2 ^ (l + 1) / 2 = 2 ^ l by omega,
        ih (by omega) (by omega), show 2 * m + 1 + 1 = 2 * (m + 1) by ring, revBits_succ_two_mul]

/-- What the passes before index `I` leave: `J` is the reversal of `I`, and the pairs emitted are those below `I`. -/
structure BrRun.Reached (l : Nat) (r : BrRun) : Prop where
  column : r.j = revBits l r.i
  pairs : r.pairs = revPairs l r.i

theorem brEmit_eq (r : BrRun) :
    brEmit r = { r with
      pairs := r.pairs ++ if r.i < r.j then [{ i := r.i, j := r.j }] else []
      wp := r.wp + if r.i < r.j then 1 else 0 } := by
  unfold brEmit
  split_ifs <;> simp

theorem BrRun.Reached.pass {l : Nat} {r : BrRun} (h : r.Reached (l + 1)) (hi : r.i + 1 < 2 ^ (l + 1)) :
    (brCarry (2 ^ (l + 1)) (brEmit r)).Reached (l + 1) := by
  obtain ⟨hj, hp⟩ := h
  rw [brEmit_eq]
  constructor
  · have hcarry := carry_revBits (fuel := 2 ^ (l + 1)) ((Nat.lt_succ_self l).trans Nat.lt_two_pow_self) hi
    show (Machine.carry (2 ^ (l + 1)) (2 ^ (l + 1) / 2) r.j).2 + (Machine.carry (2 ^ (l + 1)) (2 ^ (l + 1) / 2) r.j).1 = _
    rwa [show 2 ^ (l + 1) / 2 = 2 ^ l by omega, hj]
  · show r.pairs ++ _ = revPairs (l + 1) (r.i + 1)
    rw [revPairs_succ, hp, hj]

/-- The passes go through without LUT_OVERFLOW, since at most one pair per pass is emitted. -/
theorem BrRun.Reached.loop {l fuel : Nat} {r : BrRun} (h : r.Reached (l + 1)) (hi : r.i + fuel < 2 ^ (l + 1))
    (hw : r.wp + fuel < 2 ^ (l + 1)) :
    (brLoop (2 ^ (l + 1)) fuel r).Reached (l + 1) ∧ (brLoop (2 ^ (l + 1)) fuel r).i = r.i + fuel := by
  induction fuel generalizing r with
  | zero => exact ⟨h, rfl⟩
  | succ fuel ih =>
    have hwp := brEmit_wp_le r
    have hnext : (brCarry (2 ^ (l + 1)) (brEmit r)).i = r.i + 1 := by rw [brEmit_eq]; rfl
    have hrest := ih (h.pass (by omega)) (by omega) (by show (brEmit r).wp + fuel < _; omega)
    rw [brLoop, if_neg (by omega)]
    exact ⟨hrest.1, hrest.2.trans (by omega)⟩

/-- BRGEN emits the bit-reversal pairs (R126). -/
theorem brRun_pairs (l k : Nat) : (brRun (2 ^ l) k).pairs = revPairs l (2 ^ l) := by
  cases l with
  | zero => rfl
  | succ l =>
    have hpow : 0 < 2 ^ (l + 1) := by positivity
    have hinit : BrRun.Reached (l + 1) { pairs := [], i := 0, j := 0, k := k, wp := 0, overflow := false } :=
      ⟨(revBits_zero _).symm, rfl⟩
    obtain ⟨⟨_, hpairs⟩, hi⟩ := hinit.loop (fuel := 2 ^ (l + 1) - 1) (by simp) (by simp)
    have hlast : revPairs (l + 1) (2 ^ (l + 1)) = revPairs (l + 1) (2 ^ (l + 1) - 1) := by
      have hrev := revBits_lt (l + 1) (2 ^ (l + 1) - 1)
      have hsucc := revPairs_succ (l + 1) (2 ^ (l + 1) - 1)
      rwa [if_neg (by omega), List.append_nil, Nat.sub_add_cancel hpow] at hsucc
    rw [hi, Nat.zero_add, ← hlast] at hpairs
    exact hpairs

theorem brRun_wp (l k : Nat) : (brRun (2 ^ l) k).wp = (revPairs l (2 ^ l)).length := by
  rw [← (brRun_sound l k).count, brRun_pairs]

theorem revPairs_lt {l n : Nat} {p : SwapPair} (h : p ∈ revPairs l n) (hn : n ≤ 2 ^ l) : p.i < 2 ^ l ∧ p.j < 2 ^ l := by
  obtain ⟨i, hi, rfl⟩ := List.mem_map.1 h
  have hin := List.mem_range.1 (List.mem_filter.1 hi).1
  exact ⟨by show i < _; omega, revBits_lt l i⟩

theorem SwapPair.ofCplx_toCplx {p : SwapPair} (hi : p.i < 2 ^ 32) (hj : p.j < 2 ^ 32) : SwapPair.ofCplx (SwapPair.toCplx p) = p := by
  simp only [SwapPair.ofCplx, SwapPair.toCplx, BitVec.toNat_ofNat, Nat.mod_eq_of_lt hi, Nat.mod_eq_of_lt hj]

/-- Settles O14: the passes emit the pairs, and each is read back as it was stored, since columns fit in 32 bits. -/
theorem brgenStoresTheBitReversalPairs : Obligations.BrgenStoresTheBitReversalPairs := by
  rintro s ⟨hl, hn, _, hpc⟩ hcap
  have hw : s.cur.cfg.wf = true := (State.legal_eng hl hn).1
  obtain ⟨_, _, _, hN, _, hN15, _⟩ := NodeCfg.wf_spec hw
  have hcur := s.cur_one (Engine.brgen s.draws) hn
  rw [Engine.brgen_of_capacity hcap hpc (brRun_overflow _ _)] at hcur
  have hpairs := brRun_pairs (cfgL s.cur.cfg) s.cur.work.gen.brK.toNat
  have hwp := brRun_wp (cfgL s.cur.cfg) s.cur.work.gen.brK.toNat
  have hlt := (bitReversalPairCount (cfgL s.cur.cfg)).2
  have hmem : ∀ p ∈ revPairs (cfgL s.cur.cfg) (cfgN s.cur.cfg), SwapPair.ofCplx (SwapPair.toCplx p) = p := fun p hp => by
    obtain ⟨hi, hj⟩ := revPairs_lt hp hN.le
    exact SwapPair.ofCplx_toCplx (by omega) (by omega)
  rw [← hN] at hpairs hwp hlt
  rw [hpairs, hwp] at hcur
  refine ⟨_, rfl, ?_⟩
  rw [hcur]
  refine ⟨rfl, rfl, ?_, flagOf_setFlag_self _ _ (by decide), statusKeptBut_setFlag_setFlag _ _ _ _, fun p hp => ?_, ?_, rfl, rfl, rfl,
    ⟨rfl, rfl⟩, ⟨rfl, rfl, rfl, rfl, rfl⟩, ⟨rfl, rfl, rfl⟩, rfl, s.keepsOthers_one _, s.keepsWorld_one _⟩
  · rw [BitVec.toNat_ofNat, Nat.mod_eq_of_lt (by omega)]
  · rw [Memory.readElem_writeElems_zero _ (by simpa using hp)]
    simp [hp, hmem]
  · simpa using Memory.keptFrom_writeElems_zero s.cur.br ((revPairs (cfgL s.cur.cfg) (cfgN s.cur.cfg)).map SwapPair.toCplx)

/-! ### The swaps of a row -/

theorem drawAt_drawAt (d : Draw) (j k : Nat) : drawAt (drawAt d j) k = drawAt d (j + k) := by
  simp [drawAt, Nat.add_assoc]

theorem swapAll_append (inc : Incoming) (base : Nat) (d : Draw) (ps qs : List SwapPair) (row : List Cplx) :
    swapAll inc base d (ps ++ qs) row = swapAll inc base (drawAt d (16 * ps.length)) qs (swapAll inc base d ps row) := by
  induction ps generalizing d row with
  | nil => rfl
  | cons p ps ih =>
    rw [List.cons_append, swapAll, ih, drawAt_drawAt, swapAll, List.length_cons, Nat.mul_succ, Nat.add_comm 16]

/-- A swap without racing writes (R144). -/
theorem getElem?_swapCols_nil {base i j : Nat} {d : Draw} {row : List Cplx} (hi : i < row.length) (hj : j < row.length) (x : Nat) :
    (swapCols [] base d { i := i, j := j } row)[x]? = if x = j then row[i]? else if x = i then row[j]? else row[x]? := by
  simp only [swapCols, fetchCol, raceRead_nil, List.getElem?_set, List.length_set]
  by_cases hxj : x = j
  · subst hxj
    simp [hi, hj]
  by_cases hxi : x = i
  · subst hxi
    simp [hi, hj, hxj, Ne.symm hxj]
  · simp [hxi, hxj, Ne.symm hxi, Ne.symm hxj]

/-- The swaps of the pairs below `n` reverse the columns of those pairs, and no other column has moved. -/
theorem getElem?_swapAll_revPairs {l n : Nat} (base : Nat) (d : Draw) {row : List Cplx} (hrow : row.length = 2 ^ l) (hn : n ≤ 2 ^ l)
    {x : Nat} (hx : x < 2 ^ l) :
    (swapAll [] base d (revPairs l n) row)[x]? = if x < n ∨ revBits l x < n then row[revBits l x]? else row[x]? := by
  induction n generalizing x with
  | zero => rw [if_neg (by omega)]; rfl
  | succ n ih =>
    replace ih {x : Nat} := ih (x := x) (by omega)
    have hrev := revBits_lt l n
    have hinv := revBits_revBits (l := l) (i := n) (by omega)
    have hinvx := revBits_revBits hx
    rw [revPairs_succ, swapAll_append]
    by_cases hlt : n < revBits l n
    · rw [if_pos hlt, swapAll, swapAll, getElem?_swapCols_nil (by simp only [length_swapAll]; omega)
        (by simp only [length_swapAll]; omega)]
      by_cases hj : x = revBits l n
      · subst hj
        rw [if_pos rfl, ih (by omega), if_neg (by omega), if_pos (by omega), hinv]
      by_cases hi : x = n
      · subst hi
        rw [if_neg hj, if_pos rfl, ih hrev, if_neg (by omega), if_pos (by omega)]
      have himage : revBits l x ≠ n := fun h => hj (by rw [← h, hinvx])
      have hiff : (x < n ∨ revBits l x < n) ↔ (x < n + 1 ∨ revBits l x < n + 1) := by omega
      rw [if_neg hj, if_neg hi, ih hx]
      simp only [hiff]
    · rw [if_neg hlt]
      show (swapAll [] base d (revPairs l n) row)[x]? = _
      have hself : x = n → revBits l x ≤ x := by rintro rfl; omega
      have himage : revBits l x = n → x ≤ n := by rintro rfl; omega
      rw [ih hx]
      by_cases hfix : revBits l x = x
      · simp only [hfix, ite_self]
      · have hiff : (x < n ∨ revBits l x < n) ↔ (x < n + 1 ∨ revBits l x < n + 1) := by omega
        simp only [hiff]

/-- Settles O25: in the end every column has been reached. -/
theorem swapsBitReverseARow : Obligations.SwapsBitReverseARow := by
  intro l base k d row hrow i hi
  rw [brRun_pairs, getElem?_swapAll_revPairs base d hrow le_rfl hi, if_pos (.inl hi)]

end Sys2Proof.Machine
end

section
/-! PROOFS. The FFT kernel: the row partition of the cores, the butterflies of the loop nest, one butterfly, and the command on a whole
buffer (spec 41_fft_kernel.md R140 to R150, 42_phase_correction.md R164). -/

namespace Sys2Proof.Machine

/-! ### The row partition (R141) -/

/-- The rows of the cores, core after core, are the rows of the band in ascending order, however many cores there are. -/
theorem forkRows_eq_range (th : Nat) {cores : Nat} (h : 0 < cores) : forkRows th cores = List.range th := by
  rw [forkRows, forkRows_prefix, coreStart_cores th h]

theorem coreStart_mono (th cores : Nat) : Monotone (coreStart th cores) :=
  monotone_nat_of_le_succ fun c => by rw [coreStart_succ]; omega

theorem mem_coreRows {th cores c r : Nat} :
    r ∈ coreRows th cores c ↔ coreStart th cores c ≤ r ∧ r < coreStart th cores (c + 1) := by
  rw [coreRows, List.mem_range'_1, coreStart_succ]

theorem coreRows_eq_filter {th cores c : Nat} (hc : c < cores) :
    coreRows th cores c = (List.range th).filter fun r =>
      decide (coreStart th cores c ≤ r) && decide (r < coreStart th cores c + coreCount th cores c) := by
  refine List.Pairwise.eq_of_mem_iff List.pairwise_lt_range' (List.pairwise_lt_range.filter _) fun r => ?_
  have hend : coreStart th cores (c + 1) ≤ th := (coreStart_mono th cores hc).trans_eq (coreStart_cores th (by omega))
  rw [mem_coreRows, List.mem_filter, List.mem_range, Bool.and_eq_true, decide_eq_true_eq, decide_eq_true_eq, ← coreStart_succ]
  omega

theorem coreCount_le_succ (th cores j k : Nat) : coreCount th cores j ≤ coreCount th cores k + 1 := by
  unfold coreCount
  split_ifs <;> omega

theorem sum_coreCount (th : Nat) {cores : Nat} (h : 0 < cores) : ((List.range cores).map (coreCount th cores)).sum = th := by
  have hlen := congrArg List.length (forkRows_eq_range th h)
  simpa [forkRows, coreRows, List.length_flatMap] using hlen

/-- The cores own disjoint ranges. -/
theorem core_eq_of_mem_coreRows {th cores j k r : Nat} (hj : r ∈ coreRows th cores j) (hk : r ∈ coreRows th cores k) : j = k := by
  rw [mem_coreRows] at hj hk
  rcases Nat.lt_trichotomy j k with hlt | heq | hgt
  · have := coreStart_mono th cores (show j + 1 ≤ k from hlt); omega
  · exact heq
  · have := coreStart_mono th cores (show k + 1 ≤ j from hgt); omega

theorem coreRows_of_idle {th cores c : Nat} (h : th ≤ c) (hc : c < cores) : coreRows th cores c = [] := by
  have hcount : coreCount th cores c = 0 := by
    rw [coreCount, Nat.div_eq_of_lt (by omega), Nat.mod_eq_of_lt (by omega), if_neg (by omega)]
  rw [coreRows, hcount, List.range'_zero]

/-- Settles O19: the cores' rows put one after the other are `[0, H)`, so each row lies with one core, and by the starts with no other. -/
theorem rowPartitionCoversEveryRow : Obligations.RowPartitionCoversEveryRow := by
  intro h c hc
  refine ⟨fun k hk => ⟨rfl, rfl, coreRows_eq_filter hk⟩, fun j k _ _ => coreCount_le_succ h c j k, sum_coreCount h hc,
    forkRows_eq_range h hc, fun r hr => ?_, fun k hk hkc => coreRows_of_idle hk hkc⟩
  have hmem : r ∈ forkRows h c := (mem_forkRows hc).2 hr
  obtain ⟨k, hk, hrk⟩ := List.mem_flatMap.1 hmem
  exact ⟨k, List.mem_range.1 hk, hrk, fun j _ hrj => core_eq_of_mem_coreRows hrj hrk⟩

/-! ### A fork over the rows -/

/-- With any positive number of cores a fork runs over the rows of the band in ascending order (R148). -/
theorem forkOver_eq_overRows {e : Engine} (b : Buf) (f : Nat → List Cplx → List Cplx) (h : 0 < cfgC e.cfg) :
    forkOver e b f = overRows (cfgN e.cfg) f (List.range (cfgTH e.cfg)) (e.buf b) := by
  rw [forkOver, forkRows_eq_range _ h]

/-- A fork over the rows of a buffer that holds values ends with each row replaced and nothing beyond the buffer changed. -/
theorem forkOver_of_holds {e : Engine} {b : Buf} {f : Nat → List Cplx → List Cplx} (hw : e.cfg.wf = true)
    (hh : (e.buf b).holds (bufElems e.cfg)) (hf : ∀ r row, (f r row).length = row.length) :
    ∃ m, forkOver e b f = some m
      ∧ (∀ r, r < cfgTH e.cfg → ∃ row, (e.buf b).readElems (r * cfgN e.cfg) (cfgN e.cfg) = some row
          ∧ m.readElems (r * cfgN e.cfg) (cfgN e.cfg) = some (f r row))
      ∧ Memory.KeptFrom (8 * bufElems e.cfg) (e.buf b) m := by
  rw [forkOver_eq_overRows b f (NodeCfg.wf_spec hw).2.1]
  obtain ⟨m, hm⟩ := overRows_isSome (n := cfgN e.cfg) (f := f) (rs := List.range (cfgTH e.cfg)) (m := e.buf b)
    fun r hr i hi => hh _ (elemOffset_lt (List.mem_range.1 hr) hi)
  obtain ⟨hrows, hrest⟩ := overRows_spec hm List.nodup_range hf
  refine ⟨m, hm, fun r hr => hrows r (List.mem_range.2 hr), fun a ha => hrest a fun r hr => .inr ?_⟩
  have hend : (r + 1) * cfgN e.cfg ≤ bufElems e.cfg := Nat.mul_le_mul_right _ (List.mem_range.1 hr)
  rw [Nat.succ_mul] at hend
  omega

/-! ### The number of cores (R148, R164) -/

theorem forkOver_nbCores {e : Engine} {c : BitVec 5} (hc : 0 < c.toNat) (he : 0 < e.cfg.nbCores.toNat) (b : Buf)
    (f : Nat → List Cplx → List Cplx) :
    forkOver { e with cfg := { e.cfg with nbCores := c } } b f = forkOver e b f := by
  rw [forkOver_eq_overRows b f he, forkOver_eq_overRows b f (by exact hc)]
  cases b <;> rfl

/-- Settles O22: the number of cores enters both commands through the fork alone. -/
theorem resultIndependentOfCoreCount : Obligations.ResultIndependentOfCoreCount := by
  intro a n inc e b c hc he
  constructor
  · unfold fftBuffer
    simp only [forkOver_nbCores hc he]
    rfl
  · unfold correctBuffer
    simp only [forkOver_nbCores hc he]
    rfl

/-! ### The loop nest (R143, R147) -/

theorem mem_stageNest {n m : Nat} {q : Bfly} :
    q ∈ stageNest n m ↔ ∃ blk j, blk < n / m ∧ j < m / 2 ∧ q = { m := m, k := blk * m, j := j } := by
  simp only [stageNest, List.mem_flatMap, List.mem_map, List.mem_range]
  constructor
  · rintro ⟨blk, hblk, j, hj, rfl⟩
    exact ⟨blk, j, hblk, hj, rfl⟩
  · rintro ⟨blk, j, hblk, hj, rfl⟩
    exact ⟨blk, hblk, j, hj, rfl⟩

/-- Settles O23: a block of an even length `m` ends inside the row, and the butterfly pairs its halves. -/
theorem butterflyIndicesStayInTheRow : Obligations.ButterflyIndicesStayInTheRow := by
  refine fun l => ⟨fun q hq => ?_, length_loopNest l⟩
  obtain ⟨s, -, hstage⟩ := List.mem_flatMap.1 hq
  obtain ⟨blk, j, hblk, hj, rfl⟩ := mem_stageNest.1 hstage
  have heven : 2 ^ (s + 1) = 2 * 2 ^ s := by rw [pow_succ, Nat.mul_comm]
  have hend : (blk + 1) * 2 ^ (s + 1) ≤ 2 ^ l := (Nat.mul_le_mul_right _ hblk).trans (Nat.div_mul_le_self _ _)
  rw [Nat.succ_mul] at hend
  dsimp only
  omega

/-! ### One butterfly (R146) -/

/-- A butterfly without racing writes: each column holds the component of `combine` that belongs to it, or what it held. -/
theorem getElem?_bfly_nil {a : ArithSource} {base ia ib : Nat} {d : Draw} {x : TrigPair} {row : List Cplx} {u v : Cplx}
    (hu : row[ia]? = some u) (hv : row[ib]? = some v) (k : Nat) :
    (bfly a [] base d ia ib x row)[k]?
      = if k = ib then some (combine a (drawAt d 2) x u v).2
        else if k = ia then some (combine a (drawAt d 2) x u v).1 else row[k]? := by
  obtain ⟨hia, hu⟩ := List.getElem?_eq_some_iff.1 hu
  obtain ⟨hib, hv⟩ := List.getElem?_eq_some_iff.1 hv
  have hfetch : ∀ (d' : Draw) {i : Nat} (hi : i < row.length), fetchCol [] base d' row i = row[i] := fun d' i hi => by
    rw [fetchCol, raceRead_nil, List.getD_eq_getElem _ _ hi]
  simp only [bfly, hfetch _ hia, hfetch _ hib, hu, hv, List.getElem?_set, List.length_set, hia, hib, if_true, eq_comm (b := k)]

/-- Settles O24: both columns are read before either is written, so `combine` meets the elements as they were. -/
theorem butterflyReplacesTwoColumns : Obligations.ButterflyReplacesTwoColumns := by
  intro a base d ia ib x row u v hne hu hv
  refine ⟨_, _, rfl, rfl, ?_, ?_, fun k hka hkb => ?_⟩
  · rw [getElem?_bfly_nil hu hv, if_neg hne, if_pos rfl]
    rfl
  · rw [getElem?_bfly_nil hu hv, if_pos rfl]
    rfl
  · rw [getElem?_bfly_nil hu hv, if_neg hkb, if_neg hka]

/-! ### FFT of a whole buffer (R140, R143, R150) -/

/-- The LUT as FFT reads it: valid, or of no entry. -/
theorem readTable_of_all {valid : Bool} {len : Idx} {m : Memory} (h : len = 0 ∨ valid = true) :
    readTable valid len.toNat m len.toNat = m.readElems 0 len.toNat := by
  rcases h with rfl | rfl
  · rfl
  · exact readTable_of_valid m le_rfl

/-- Rows of one column have no butterfly. -/
theorem twNeed_of_one_column {c : NodeCfg} (h : cfgN c = 1) : twNeed c = 0 := by
  rw [twNeed, h]
  exact Nat.zero_mul _

/-- The butterflies of a row, each with its twiddle pair, are as many as the pairs of the table. -/
theorem length_fftSteps {c : NodeCfg} {tw : List Cplx} (hw : c.wf = true) (hlen : tw.length = twNeed c) :
    ((loopNest (cfgN c) (cfgL c)).zip (tw.map TrigPair.ofCplx)).length = twNeed c := by
  have hnest : (loopNest (cfgN c) (cfgL c)).length = twNeed c := by
    rw [twNeed, (NodeCfg.wf_spec hw).2.2.2.1, length_loopNest]
  rw [List.length_zip, List.length_map, hnest, hlen, Nat.min_self]

theorem fftBuffer_of_one_column {a : ArithSource} {n : Nat} {inc : Incoming} {e : Engine} {b : Buf} (hN : cfgN e.cfg = 1)
    (hbr : e.brLen = 0) : fftBuffer a n inc e b = .ok (e.buf b) := by
  unfold fftBuffer
  rw [readTable_of_all (.inl hbr), hbr, twNeed_of_one_column hN, readTable_zero]
  simp [Memory.readElems]

/-- With tables that hold columns and at least one butterfly, FFT is the fork that runs every row through the swaps and the stages. -/
theorem fftBuffer_of_forkOver {a : ArithSource} {n : Nat} {inc : Incoming} {e : Engine} {b : Buf} {br tw : List Cplx} {m : Memory}
    (hw : e.cfg.wf = true) (hN : 2 ≤ cfgN e.cfg)
    (hbr : readTable (flagOf e.status Flag.brValid) e.brLen.toNat e.br e.brLen.toNat = some br)
    (htw : readTable (flagOf e.status Flag.twValid) e.twLen.toNat e.tw (twNeed e.cfg) = some tw)
    (hlen : tw.length = twNeed e.cfg) (hcols : ∀ v ∈ br, v.x.toNat < cfgN e.cfg ∧ v.y.toNat < cfgN e.cfg)
    (hm : forkOver e b (fun r row => fftRow a inc (r * cfgN e.cfg) (rowDraw n r) (br.map SwapPair.ofCplx)
      ((loopNest (cfgN e.cfg) (cfgL e.cfg)).zip (tw.map TrigPair.ofCplx)) row) = some m) :
    fftBuffer a n inc e b = .ok m := by
  have hpairs : (br.map SwapPair.ofCplx).all (fun p => decide (p.i < cfgN e.cfg) && decide (p.j < cfgN e.cfg)) = true := by
    rw [List.all_map, List.all_eq_true]
    exact fun v hv => Bool.and_eq_true_iff.2 ⟨decide_eq_true (hcols v hv).1, decide_eq_true (hcols v hv).2⟩
  have hsteps : ((loopNest (cfgN e.cfg) (cfgL e.cfg)).zip (tw.map TrigPair.ofCplx)).isEmpty = false := by
    rw [List.isEmpty_eq_false_iff, ← List.length_pos_iff, length_fftSteps hw hlen]
    exact twNeed_pos hw hN
  unfold fftBuffer
  simp only [hbr, htw, hpairs, hsteps, hm, Bool.and_false, Bool.false_eq_true, if_true, if_false]

theorem execFft_of_ok {b : Buf} {s : State} {m : Memory}
    (h : fftBuffer s.params.numerics.arith s.draws (s.incoming s.node b) s.cur b = .ok m) :
    execFft b s = .next (s.rewrote b m) := by
  unfold execFft
  rw [h]

/-- Settles O20: the tables make FFT a fork over the rows, and the rest is what a rewritten buffer leaves. -/
theorem fftTransformsEveryRow : Obligations.FftTransformsEveryRow := by
  rintro b s br tw ⟨hl, hn, _, hpc⟩ hN hbrOk htwOk hfits hbr htw hcols hh
  have hw : s.cur.cfg.wf = true := (State.legal_eng hl hn).1
  obtain ⟨m, hm, hrows, hkept⟩ := forkOver_of_holds
    (f := fun r row => fftRow s.params.numerics.arith (s.incoming s.node b) (r * cfgN s.cur.cfg) (rowDraw s.draws r)
      (br.map SwapPair.ofCplx) ((loopNest (cfgN s.cur.cfg) (cfgL s.cur.cfg)).zip (tw.map TrigPair.ofCplx)) row)
    hw hh fun r row => length_fftRow _ _ _ _ _ _ _
  have hexec : execFft b s = .next (s.rewrote b m) := by
    refine execFft_of_ok (fftBuffer_of_forkOver hw hN ?_ ?_ (Memory.readElems_eq_some.1 htw).1 hcols hm)
    · rw [readTable_of_all hbrOk, hbr]
    · rw [htwOk, readTable_of_valid _ hfits, htw]
  obtain ⟨hpc', hstage, hbuf, hother, htables, hstatus, hrdv, hadd, hout, hlog, hcontrol, hworld, hquiet⟩ :=
    State.rewrote_spec b m hn hpc
  refine ⟨_, hexec, hpc', hstage, ?_, ?_, hother, htables, hstatus, hrdv, hadd, hout, hlog, hcontrol, State.rewrote_commCycles b m hn,
    hworld, hquiet⟩
  · rw [hbuf]
    exact hrows
  · rw [hbuf]
    exact hkept

/-- Settles O21: the tables hold nothing to do, so the buffer is replaced by itself. -/
theorem fftOfOneColumnIsTheIdentity : Obligations.FftOfOneColumnIsTheIdentity := by
  rintro b s ⟨_, hn, _, hpc⟩ hN hbr hinc
  obtain ⟨hpc', -, hbuf, hother, htables, hstatus, hrdv, hadd, hout, hlog, hcontrol, hworld, hquiet⟩ :=
    State.rewrote_spec b (s.cur.buf b) hn hpc
  obtain ⟨houtstanding, hothers⟩ := hquiet hinc
  exact ⟨_, execFft_of_ok (fftBuffer_of_one_column hN hbr), hpc', (Engine.keepsBuffers_iff _ _ b).2 ⟨hbuf, hother⟩, htables,
    ⟨hrdv, houtstanding, hadd, hout, hlog⟩, hcontrol, hstatus, State.rewrote_commCycles b _ hn, hothers, hworld⟩

end Sys2Proof.Machine
end

section
/-! PROOFS. The phase-correction stage: a corrected row column by column, and the command on a whole buffer (spec 42_phase_correction.md
R160 to R163). -/

namespace Sys2Proof.Machine

/-! ### One row (R161 to R163) -/

/-- The columns from `j` on, with the draw and the phasor that `j` columns of the row leave. -/
theorem getElem?_correctCols (a : ArithSource) (inc : Incoming) (base : Nat) (om : TrigPair) (d : Draw) (row : List Cplx) (j k : Nat) :
    (correctCols a inc base om (drawAt d (16 * j)) j (phasorAt a d om j) row)[k]?
      = row[k]?.map fun v => cmul a (drawAt d (16 * (j + k) + 1)) (raceRead inc (drawAt d (16 * (j + k))) (base + (j + k)) v)
          (phasorAt a d om (j + k)) := by
  induction row generalizing j k with
  | nil => rfl
  | cons v vs ih =>
    have hnext : correctCols a inc base om (drawAt d (16 * j)) j (phasorAt a d om j) (v :: vs)
        = cmul a (drawAt d (16 * j + 1)) (raceRead inc (drawAt d (16 * j)) (base + j) v) (phasorAt a d om j)
          :: correctCols a inc base om (drawAt d (16 * (j + 1))) (j + 1) (phasorAt a d om (j + 1)) vs := by
      rw [correctCols_cons, drawAt_drawAt, drawAt_drawAt, drawAt_drawAt]
      rfl
    rw [hnext]
    cases k with
    | zero => rfl
    | succ k => rw [List.getElem?_cons_succ, List.getElem?_cons_succ, ih, show j + 1 + k = j + (k + 1) by omega]

/-- Column `k` of a corrected row: the sample times the phasor that `k` steps make. -/
theorem getElem?_correctRow (a : ArithSource) (inc : Incoming) (base : Nat) (d : Draw) (om : TrigPair) (row : List Cplx) (k : Nat) :
    (correctRow a inc base d om row)[k]?
      = row[k]?.map fun v => cmul a (drawAt d (16 * k + 1)) (raceRead inc (drawAt d (16 * k)) (base + k) v) (phasorAt a d om k) := by
  have h := getElem?_correctCols a inc base om d row 0 k
  rw [Nat.zero_add] at h
  exact h

/-! ### CORRECT of a whole buffer (R160) -/

/-- With a valid table that holds its rows, CORRECT is the fork that turns every row by its own entry. -/
theorem execCorrect_of_forkOver {b : Buf} {s : State} {ct : List Cplx} {m : Memory} (hct : flagOf s.cur.status Flag.ctValid = true)
    (hread : s.cur.ct.readElems 0 (cfgTH s.cur.cfg) = some ct)
    (hm : forkOver s.cur b (fun r row => correctRow s.params.numerics.arith (s.incoming s.node b) (r * cfgN s.cur.cfg) (rowDraw s.draws r)
      (TrigPair.ofCplx (ct.getD r default)) row) = some m) :
    execCorrect b s = .next (s.rewrote b m) := by
  have hbuf : correctBuffer s.params.numerics.arith s.draws (s.incoming s.node b) s.cur b = .ok m := by
    unfold correctBuffer
    rw [hct, readTable_of_valid _ le_rfl, hread]
    simp only [rowDraw] at hm
    simp only [hm]
  unfold execCorrect
  rw [hbuf]

/-- Settles O27: the table makes CORRECT a fork over the rows, a column of a corrected row meets the phasor of its index, and the rest is
what a rewritten buffer leaves. -/
theorem correctRotatesByTheRunningPhasor : Obligations.CorrectRotatesByTheRunningPhasor := by
  rintro b s ⟨hl, hn, _, hpc⟩ hvalid hct hh
  have hw : s.cur.cfg.wf = true := (State.legal_eng hl hn).1
  obtain ⟨ct, hread⟩ := Memory.readElems_isSome (m := s.cur.ct) (k := 0) (n := cfgTH s.cur.cfg) fun i hi => by
    rw [Nat.zero_add]
    exact hct i hi
  obtain ⟨m, hm, hrows, hkept⟩ := forkOver_of_holds
    (f := fun r row => correctRow s.params.numerics.arith (s.incoming s.node b) (r * cfgN s.cur.cfg) (rowDraw s.draws r)
      (TrigPair.ofCplx (ct.getD r default)) row)
    hw hh fun r row => length_correctRow _ _ _ _ _ _
  obtain ⟨hpc', hstage, hbuf, hother, htables, hstatus, hrdv, hadd, hout, hlog, hcontrol, hworld, hquiet⟩ :=
    State.rewrote_spec b m hn hpc
  refine ⟨_, execCorrect_of_forkOver hvalid hread hm, hpc', hstage, ?_, ?_, hother, htables, hstatus, hrdv, hadd, hout, hlog, hcontrol,
    State.rewrote_commCycles b m hn, hworld, hquiet⟩
  · intro r j om v hr hj hom hv
    obtain ⟨row, hrow, hrow'⟩ := hrows r hr
    have hentry : ct.getD r default = om := by
      have h := (Memory.readElems_eq_some.1 hread).2 r hr
      rw [Nat.zero_add, hom] at h
      rw [List.getD_eq_getElem?_getD, ← h, Option.getD_some]
    have hsample : row[j]? = some v := by rw [← (Memory.readElems_eq_some.1 hrow).2 j hj, hv]
    rw [hbuf, (Memory.readElems_eq_some.1 hrow').2 j hj, getElem?_correctRow, hsample, hentry, Option.map_some]
  · rw [hbuf]
    exact hkept

end Sys2Proof.Machine
end

section
/-! PROOFS. The transpose/exchange engine: where the transfers and the local transpose put the elements, and what the fabric's answers
decide (spec 43_transpose_exchange.md R175 to R181, R191, R194). -/

namespace Sys2Proof.Machine

/-- A node is one of the `NB` nodes. -/
theorem NodeCfg.p_lt_nb {c : NodeCfg} (h : c.wf = true) : cfgP c < cfgNB c := by
  obtain ⟨_, _, _, _, _, _, _, _, hlt, _⟩ := NodeCfg.wf_spec h
  exact hlt

/-! ### Where the elements go (R176, R178, R181) -/

theorem xferDesc_srcAt (c : NodeCfg) (b : Buf) (q r x : Nat) :
    (xferDesc c b q r).srcAt x = elemOffset c r (q * cfgTH c + x) := by
  simp only [XferDesc.srcAt, xferDesc, elemOffset]
  omega

theorem xferDesc_dstAt (c : NodeCfg) (b : Buf) (q r x : Nat) :
    (xferDesc c b q r).dstAt x = elemOffset c x (cfgP c * cfgTH c + r) := by
  simp only [XferDesc.dstAt, xferDesc, elemOffset]
  omega

theorem mem_peers {c : NodeCfg} {q : Nat} : q ∈ peers c ↔ q < cfgNB c ∧ q ≠ cfgP c := by
  simp [peers]

/-- The peers are all nodes but this one. -/
theorem length_peers {c : NodeCfg} (hw : c.wf = true) : (peers c).length = cfgNB c - 1 := by
  have hP : cfgP c ∈ List.range (cfgNB c) := List.mem_range.2 (NodeCfg.p_lt_nb hw)
  rw [peers, ← List.nodup_range.erase_eq_filter, List.length_erase_of_mem hP, List.length_range]

theorem length_xferGroups_perRow {c : NodeCfg} (b : Buf) (hw : c.wf = true) :
    (xferGroups .perRow c b).length = (cfgNB c - 1) * cfgTH c := by
  simp [xferGroups, List.length_flatMap, length_peers hw]

theorem length_xferGroups_perPeer {c : NodeCfg} (b : Buf) (hw : c.wf = true) :
    (xferGroups .perPeer c b).length = cfgNB c - 1 := by
  simp [xferGroups, length_peers hw]

theorem mem_xferGroups_perRow {c : NodeCfg} {b : Buf} {g : XferGroup} :
    g ∈ xferGroups .perRow c b ↔ ∃ q r, q < cfgNB c ∧ q ≠ cfgP c ∧ r < cfgTH c
      ∧ g = { dst := q, row := some r, descs := [xferDesc c b q r] } := by
  simp only [xferGroups, List.mem_flatMap, List.mem_map, List.mem_range, mem_peers]
  constructor
  · rintro ⟨q, ⟨hq, hne⟩, r, hr, rfl⟩
    exact ⟨q, r, hq, hne, hr, rfl⟩
  · rintro ⟨q, r, hq, hne, hr, rfl⟩
    exact ⟨q, ⟨hq, hne⟩, r, hr, rfl⟩

/-- Both groupings enqueue the same row transfers in the same order (R194). -/
theorem descs_xferGroups (g : Grouping) (c : NodeCfg) (b : Buf) :
    (xferGroups g c b).flatMap (fun g => g.descs)
      = (peers c).flatMap fun q => (List.range (cfgTH c)).map fun r => xferDesc c b q r := by
  cases g <;> simp [xferGroups, List.flatMap_assoc, List.flatMap_map, ← List.map_eq_flatMap]

/-- Settles O38: the offsets are those of the rows and columns named, and both groupings list the same transfers. -/
theorem descriptorsPlaceTheTranspose : Obligations.DescriptorsPlaceTheTranspose := by
  intro c b hw
  exact ⟨fun q r x => ⟨xferDesc_srcAt c b q r x, xferDesc_dstAt c b q r x, rfl, rfl, rfl, rfl, rfl⟩, fun r xc => ⟨rfl, rfl⟩,
    length_xferGroups_perRow b hw, fun g => mem_xferGroups_perRow, length_xferGroups_perPeer b hw,
    (descs_xferGroups .perPeer c b).trans (descs_xferGroups .perRow c b).symm⟩

/-- An element of a buffer names its row, the node of its column and the column within that node's share. -/
theorem place_eq {n th e x p r : Nat} (hr : r < th) (hcol : p * th + r < n) (h : x * n + (p * th + r) = e) :
    p = e % n / th ∧ r = e % n % th ∧ x = e / n := by
  have hdiv : e / n = x := by
    rw [← h, Nat.add_comm, Nat.add_mul_div_right _ _ (by omega), Nat.div_eq_of_lt hcol, Nat.zero_add]
  have hmod : e % n = p * th + r := by rw [← h, Nat.mul_add_mod_of_lt hcol]
  refine ⟨?_, ?_, hdiv.symm⟩
  · rw [hmod, Nat.add_comm, Nat.add_mul_div_right _ _ (by omega), Nat.div_eq_of_lt hr, Nat.zero_add]
  · rw [hmod, Nat.mul_add_mod_of_lt hr]

/-- All nodes of a legal system have rows and bands of the same size. -/
theorem State.legal_sizes {s : State} (h : s.legal = true) {p q : Nat} (hp : p < s.engines.length) (hq : q < s.engines.length) :
    cfgN (s.eng p).cfg = cfgN (s.eng q).cfg ∧ cfgTH (s.eng p).cfg = cfgTH (s.eng q).cfg := by
  obtain ⟨htile, hnb, _⟩ := State.legal_agree h hp hq
  simp only [cfgTH, cfgN, cfgNB, htile, hnb, and_self]

/-- Where node `p` puts pair `(r, x)` in node `q`'s buffer, by its local transpose or by a transfer: `[x][p*TH + r]` (R176). -/
theorem destination_eq {s : State} {p q : Nat} (b : Buf) (hl : s.legal = true) (hp : p < s.engines.length)
    (hq : q < s.engines.length) (r x : Nat) :
    (if p = q then quadDst (s.eng q).cfg (r, x) else (xferDesc (s.eng p).cfg b q r).dstAt x)
      = x * cfgN (s.eng q).cfg + (p * cfgTH (s.eng q).cfg + r) := by
  obtain ⟨hN, hTH⟩ := State.legal_sizes hl hp hq
  split_ifs with h
  · rw [h, quadDst, elemOffset, (State.legal_eng hl hq).2.1]
  · rw [xferDesc_dstAt, elemOffset, (State.legal_eng hl hp).2.1, hN, hTH]

/-- Settles O39: the quotient and the remainder of the offset by the row length name the row, the node and the column. -/
theorem everyDestinationElementWrittenOnce : Obligations.EveryDestinationElementWrittenOnce := by
  intro s b q e hl hq he
  obtain ⟨hw, _, hNB, _⟩ := State.legal_eng hl hq
  have hTH : ∀ p, p < s.engines.length → cfgTH (s.eng p).cfg = cfgTH (s.eng q).cfg := fun p hp => (State.legal_sizes hl hp hq).2
  have hpos := NodeCfg.th_pos hw
  have hp : e % cfgN (s.eng q).cfg / cfgTH (s.eng q).cfg < s.engines.length := by
    rw [Nat.div_lt_iff_lt_mul hpos, ← hNB, NodeCfg.nb_mul_th hw]
    exact Nat.mod_lt _ (NodeCfg.n_pos hw)
  refine ⟨e % cfgN (s.eng q).cfg / cfgTH (s.eng q).cfg, e % cfgN (s.eng q).cfg % cfgTH (s.eng q).cfg, e / cfgN (s.eng q).cfg,
    ⟨hp, ?_, ?_, ?_⟩, fun p' r' x' hp' hr' _ h => ?_⟩
  · rw [hTH _ hp]
    exact Nat.mod_lt _ hpos
  · rw [hTH _ hp]
    exact Nat.div_lt_of_lt_mul (by rwa [Nat.mul_comm])
  · rw [destination_eq b hl hp hq, Nat.div_add_mod', Nat.div_add_mod']
  · rw [destination_eq b hl hp' hq] at h
    rw [hTH p' hp'] at hr'
    exact place_eq hr' (NodeCfg.share_lt hw (hNB.symm ▸ hp') hr') h

/-! ### What the fabric's answers decide (R179, R191) -/

/-- An accepted enqueue joins its captured transfers and goes on. -/
theorem enqueueAll_accepted {rd : Nat → Option Cplx} {p n k : Nat} {g : XferGroup} {gs : List XferGroup} {ans : List Bool}
    {ts : List Transfer} {t : Sent} (hts : captureAll rd g.descs = some ts) (ht : enqueueAll rd p n (k + 1) gs ans = some t) :
    enqueueAll rd p n k (g :: gs) (true :: ans) = some { t with out := ts ++ t.out } := by
  simp [enqueueAll, enqueueAnswer, hts, ht]

/-- A refused enqueue leaves its log event and goes on. -/
theorem enqueueAll_refused {rd : Nat → Option Cplx} {p n k : Nat} (g : XferGroup) {gs : List XferGroup} {ans : List Bool} {t : Sent}
    (ht : enqueueAll rd p n (k + 1) gs ans = some t) :
    enqueueAll rd p n k (g :: gs) (false :: ans)
      = some { t with events := enqueueFailure p n k g :: t.events, failed := true } := by
  simp [enqueueAll, enqueueAnswer, ht]

/-- Settles O37, by induction over the enqueues: an answer at a time is used, and decides between the two cases. -/
theorem enqueueAnswersDecide : Obligations.EnqueueAnswersDecide := by
  intro rd p n k gs ans hlen hrd
  induction gs generalizing k ans with
  | nil => exact ⟨_, rfl, rfl, by simp, by simp, by simp, rfl⟩
  | cons g gs ih =>
    cases ans with
    | nil => simp at hlen
    | cons a ans =>
      obtain ⟨t, ht, hdescs, hcaptured, hevents, hfailed, hanswers⟩ :=
        ih (k + 1) ans (by simpa using hlen) fun g' hg' => hrd g' (List.mem_cons_of_mem _ hg')
      cases a with
      | true =>
        obtain ⟨ts, hts⟩ := captureAll_isSome (hrd g List.mem_cons_self)
        obtain ⟨htsDescs, htsSpec⟩ := captureAll_spec hts
        refine ⟨_, enqueueAll_accepted hts ht, by simp [htsDescs, hdescs], fun tr htr => ?_, by simpa using hevents,
          by simpa using hfailed, by simpa using hanswers⟩
        rcases List.mem_append.1 htr with htr | htr
        · obtain ⟨hpending, hvalues⟩ := htsSpec tr htr
          rw [hpending]
          exact ⟨fun x h => mem_allHalves, allHalves_nodup _, hvalues⟩
        · exact hcaptured tr htr
      | false =>
        refine ⟨_, enqueueAll_refused g ht, by simpa using hdescs, hcaptured, ?_, by simp, by simpa using hanswers⟩
        have hrow : ∀ r, g.row = some r → (enqueueFailure p n k g).srcRow = r := fun r hr => by simp [enqueueFailure, hr]
        exact .cons ⟨rfl, rfl, rfl, hrow⟩ hevents

end Sys2Proof.Machine
end

section
/-! PROOFS. The agents of transfers and increments (spec 43_transpose_exchange.md R180, R185, R192, 20_memory.md R76). -/

namespace Sys2Proof.Machine

/-! ### The transfer agent (R180) -/

/-- The state after the turn that performs write `w` of transfer `tr`, member `i` of node `p`'s `OUTSTANDING`, with `rest` still to come. -/
def State.delivered (s : State) (rest : List Event) (p i : Nat) (tr : Transfer) (w : Nat × Half) : State :=
  { (s.modEng tr.desc.dstNode
      (Engine.peerWrite tr.desc.dstBuf (tr.desc.dstAt w.1) w.2 (halfOf (tr.valueAt w.1) w.2))).modEng p (Engine.performed i w) with
    events := rest }

section
variable {s : State} {rest : List Event} {p i : Nat} {tr : Transfer}

theorem step_deliver {x : Nat} {h : Half} (hl : s.legal = true) (hev : s.events = .deliver p i x h :: rest)
    (htr : (s.eng p).outstanding[i]? = some tr) (hx : (x, h) ∈ tr.pending) (hdst : tr.desc.dstNode < s.engines.length)
    (hoff : tr.desc.dstAt x < bufElems (s.eng tr.desc.dstNode).cfg) :
    step s = .next (s.delivered rest p i tr (x, h)) := by
  refine (step_of_world_event hl hev nofun).trans ?_
  show State.deliver { s with events := rest } p i x h = _
  unfold State.deliver
  rw [show (State.eng { s with events := rest } p).outstanding[i]? = some tr from htr]
  exact (if_pos (List.contains_iff_mem.2 hx)).trans (if_pos ⟨hdst, hoff⟩)

/-- A transfer's target has one half of one element written. -/
theorem State.eng_delivered_target (w : Nat × Half) (hdst : tr.desc.dstNode < s.engines.length) (hne : tr.desc.dstNode ≠ p) :
    (s.delivered rest p i tr w).eng tr.desc.dstNode
      = (s.eng tr.desc.dstNode).peerWrite tr.desc.dstBuf (tr.desc.dstAt w.1) w.2 (halfOf (tr.valueAt w.1) w.2) :=
  (State.eng_modEng_of_ne _ _ hne).trans (State.eng_modEng_self _ _ hdst)

/-- A transfer's own node has one write less to perform. -/
theorem State.eng_delivered_self (w : Nat × Half) (hp : p < s.engines.length) (hne : tr.desc.dstNode ≠ p) :
    (s.delivered rest p i tr w).eng p = (s.eng p).performed i w :=
  (State.eng_modEng_self _ _ (by simpa using hp)).trans (congrArg _ (State.eng_modEng_of_ne _ _ hne.symm))

theorem State.eng_delivered_of_ne (w : Nat × Half) {q : Nat} (hq : q ≠ p) (hq' : q ≠ tr.desc.dstNode) :
    (s.delivered rest p i tr w).eng q = s.eng q :=
  (State.eng_modEng_of_ne _ _ hq).trans (State.eng_modEng_of_ne _ _ hq')

theorem State.buf_delivered (w : Nat × Half) (hdst : tr.desc.dstNode < s.engines.length) (hne : tr.desc.dstNode ≠ p) :
    ((s.delivered rest p i tr w).eng tr.desc.dstNode).buf tr.desc.dstBuf
      = ((s.eng tr.desc.dstNode).buf tr.desc.dstBuf).writeHalf (tr.desc.dstAt w.1) w.2 (halfOf (tr.valueAt w.1) w.2) := by
  rw [State.eng_delivered_target w hdst hne, Engine.peerWrite, Engine.setBuf_buf_self]

/-- A transfer leaves `OUTSTANDING` with its last write. -/
theorem State.outstanding_delivered (w : Nat × Half) (hp : p < s.engines.length) (hne : tr.desc.dstNode ≠ p)
    (halive : (s.eng p).transfersAlive) (htr : (s.eng p).outstanding[i]? = some tr) :
    ((s.delivered rest p i tr w).eng p).outstanding
      = if tr.pending.erase w = [] then (s.eng p).outstanding.eraseIdx i else (s.eng p).outstanding.set i (tr.performed w) := by
  rw [State.eng_delivered_self w hp hne]
  exact stillPending_modify htr halive

/-- The two halves of an element, performed one after the other, write the element. -/
theorem step_deliver_second_half {x : Nat} {t : State} (hl : s.legal = true)
    (hev : s.events = .deliver p i x .x :: .deliver p i x .y :: rest) (halive : (s.eng p).transfersAlive) (hp : p < s.engines.length)
    (htr : (s.eng p).outstanding[i]? = some tr) (hx : (x, .x) ∈ tr.pending) (hy : (x, .y) ∈ tr.pending)
    (hdst : tr.desc.dstNode < s.engines.length) (hne : tr.desc.dstNode ≠ p)
    (hoff : tr.desc.dstAt x < bufElems (s.eng tr.desc.dstNode).cfg) (ht : step s = .next t) :
    ∃ u, step t = .next u
      ∧ ((u.eng tr.desc.dstNode).buf tr.desc.dstBuf).readElem (tr.desc.dstAt x) = some (tr.valueAt x) := by
  obtain ⟨hlt, _, hlen, hcfg⟩ := stepKeepsTheConfiguration s t ht
  have hleft : (x, Half.y) ∈ tr.pending.erase (x, .x) := (List.mem_erase_of_ne (by simp)).2 hy
  cases ht.symm.trans (step_deliver hl hev htr hx hdst hoff)
  have hget : ((s.delivered (.deliver p i x .y :: rest) p i tr (x, .x)).eng p).outstanding[i]? = some (tr.performed (x, .x)) := by
    rw [State.outstanding_delivered _ hp hne halive htr, if_neg (List.ne_nil_of_mem hleft),
      List.getElem?_set_self (List.getElem?_eq_some_iff.1 htr).1]
  refine ⟨_, step_deliver hlt rfl hget hleft (by rwa [hlen]) (by rw [hcfg]; exact hoff), ?_⟩
  have hbuf := State.buf_delivered (s := s.delivered (.deliver p i x .y :: rest) p i tr (x, .x)) (rest := rest) (i := i)
    (tr := tr.performed (x, .x)) (x, .y) (by rwa [hlen]) hne
  rw [show (tr.performed (x, .x)).desc = tr.desc from rfl, State.buf_delivered _ hdst hne] at hbuf
  rw [hbuf]
  exact Memory.readElem_writeElem_self _ _ (tr.valueAt x)

end

/-- Settles O40: the step is `State.delivered`, whose two changed nodes are known; the other half is a second such step of the transfer
that is left. -/
theorem deliverWritesOneElement : Obligations.DeliverWritesOneElement := by
  intro s p i x h tr rest hl hev halive hp htr hx hnodup hdst hne hoff
  have hstep := step_deliver hl hev htr hx hdst hoff
  have hpending := (State.transfersAlive_iff s).1 halive p
  have hout := State.outstanding_delivered (rest := rest) (x, h) hp hne hpending htr
  have hbuf := State.buf_delivered (rest := rest) (i := i) (x, h) hdst hne
  have herase : tr.pending.erase (x, h) = [] ↔ tr.pending = [(x, h)] := by
    rw [List.erase_eq_nil_iff]
    exact or_iff_right (List.ne_nil_of_mem hx)
  refine ⟨_, hstep, ?_, ?_, fun a ha => ?_, ?_, fun hlast => ?_, fun hmore => ?_, ?_, fun q hq hq' =>
    State.eng_delivered_of_ne _ hq hq', rfl, ?_⟩
  · rintro rfl
    rw [hbuf]
    exact Memory.read32_writeHalf_self _ _ .x _
  · rintro rfl
    rw [hbuf]
    exact Memory.read32_writeHalf_self _ _ .y _
  · rw [hbuf, Memory.read_writeHalf_of_outside _ _ _ ha]
  · rw [hbuf, State.eng_delivered_target _ hdst hne, Engine.peerWrite]
  · rw [hout, if_pos (herase.2 hlast)]
  · rw [hout, if_neg fun he => hmore (herase.1 he), ← hnodup.erase_eq_filter, Transfer.performed]
  · rw [State.eng_delivered_self _ hp hne, Engine.performed]
  · rintro rest' rfl hy rfl
    exact step_deliver_second_half hl hev hpending hp htr hx hy hdst hne hoff hstep

/-! ### The increment agent (R185) -/

/-- A node whose posted increment `i` has been performed. -/
def Engine.dropAdd (i : Nat) (e : Engine) : Engine := { e with pendingAdd := e.pendingAdd.eraseIdx i }

/-- The state after the turn that performs member `i` of node `p`'s `PENDING_ADD`, an increment of node `q`'s counter, with `rest` still to
come. -/
def State.incremented (s : State) (rest : List Event) (p i q : Nat) : State :=
  { (s.modEng q Engine.cntAdd).modEng p (Engine.dropAdd i) with events := rest }

section
variable {s : State} {rest : List Event} {p i q : Nat}

theorem step_add (hl : s.legal = true) (hev : s.events = .add p i :: rest) (hadd : (s.eng p).pendingAdd[i]? = some q)
    (hq : q < s.engines.length) : step s = .next (s.incremented rest p i q) := by
  refine (step_of_world_event hl hev nofun).trans ?_
  show State.performAdd { s with events := rest } p i = _
  unfold State.performAdd
  rw [show (State.eng { s with events := rest } p).pendingAdd[i]? = some q from hadd]
  exact if_pos hq

/-- The coming events are no part of a node. -/
theorem State.eng_incremented (r : Nat) :
    (s.incremented rest p i q).eng r = ((s.modEng q Engine.cntAdd).modEng p (Engine.dropAdd i)).eng r := rfl

/-- The poster's list of increments is no counter. -/
theorem State.rdv_incremented (r : Nat) : ((s.incremented rest p i q).eng r).rdv = ((s.modEng q Engine.cntAdd).eng r).rdv :=
  State.eng_modEng_keeps _ p r (Engine.dropAdd i) (fun e => e.rdv) fun _ => rfl

/-- The target's counter is no list of increments. -/
theorem State.pendingAdd_cntAdd (r : Nat) : ((s.modEng q Engine.cntAdd).eng r).pendingAdd = (s.eng r).pendingAdd :=
  State.eng_modEng_keeps _ q r Engine.cntAdd (fun e => e.pendingAdd) fun _ => rfl

theorem State.rdv_incremented_self (hq : q < s.engines.length) : ((s.incremented rest p i q).eng q).rdv = (s.eng q).rdv + 1 := by
  rw [State.rdv_incremented, State.eng_modEng_self _ _ hq, Engine.cntAdd_rdv]

theorem State.rdv_incremented_of_ne {r : Nat} (hr : r ≠ q) : ((s.incremented rest p i q).eng r).rdv = (s.eng r).rdv := by
  rw [State.rdv_incremented, State.eng_modEng_of_ne _ _ hr]

theorem State.pendingAdd_incremented_self (hp : p < s.engines.length) :
    ((s.incremented rest p i q).eng p).pendingAdd = (s.eng p).pendingAdd.eraseIdx i := by
  rw [State.eng_incremented, State.eng_modEng_self _ _ (by simpa using hp), Engine.dropAdd, State.pendingAdd_cntAdd]

theorem State.pendingAdd_incremented_of_ne {r : Nat} (hr : r ≠ p) :
    ((s.incremented rest p i q).eng r).pendingAdd = (s.eng r).pendingAdd := by
  rw [State.eng_incremented, State.eng_modEng_of_ne _ _ hr, State.pendingAdd_cntAdd]

/-- An increment changes a counter and a list of increments alone. -/
theorem State.eng_incremented_frame (r : Nat) :
    (s.incremented rest p i q).eng r
      = { s.eng r with
          rdv := ((s.incremented rest p i q).eng r).rdv, pendingAdd := ((s.incremented rest p i q).eng r).pendingAdd } := by
  rw [State.eng_incremented, State.eng_modEng, State.eng_modEng, State.eng_modEng]
  split_ifs with hp hq hq
  · rw [hp.1, hq.1, Engine.dropAdd, Engine.cntAdd]
  · rw [hp.1, Engine.dropAdd]
  · rw [hq.1, Engine.cntAdd]
  · rfl

end

/-- Settles O41: the counter changes at the target alone and the list of increments at the poster alone. -/
theorem addIncrementsTheTarget : Obligations.AddIncrementsTheTarget := by
  intro s p i q rest hl hev hp hadd hq
  exact ⟨_, step_add hl hev hadd hq, State.rdv_incremented_self hq, fun r hr => State.rdv_incremented_of_ne hr,
    State.pendingAdd_incremented_self hp, fun r hr => State.pendingAdd_incremented_of_ne hr, State.eng_incremented_frame, rfl⟩

end Sys2Proof.Machine
end

section
/-! PROOFS. TRANSPOSE from phase 3 on: its two waits, the increments it posts and its completion (spec 43_transpose_exchange.md R183 to R187). -/

namespace Sys2Proof.Machine

/-! ### The turn in a wait -/

theorem exec_transpose_of_transfers {s : State} (b : Buf) (h : s.cur.stage = .transfers) :
    exec (.transpose b) s = .next s.announce := by
  show execTranspose b s = _
  unfold execTranspose
  rw [h]

theorem exec_transpose_of_rendezvous {s : State} (b : Buf) (h : s.cur.stage = .rendezvous) :
    exec (.transpose b) s = .next s.pass := by
  show execTranspose b s = _
  unfold execTranspose
  rw [h]

theorem State.announce_of_outstanding {s : State} (h : s.cur.outstanding ≠ []) : s.announce = s := by
  rcases s.announce_cases with ⟨_, ha⟩ | ⟨ho, _⟩
  exacts [ha, absurd ho h]

theorem State.announce_of_none {s : State} (h : s.cur.outstanding = []) : s.announce = (s.modCur Engine.announced).pass := by
  rcases s.announce_cases with ⟨ho, _⟩ | ⟨_, ha⟩
  exacts [absurd h ho, ha]

theorem State.pass_of_lt {s : State} (h : s.cur.rdv.toNat < cfgNB s.cur.cfg) : s.pass = s := by
  rcases s.pass_cases with ⟨_, hp⟩ | ⟨hge, _⟩
  exacts [hp, absurd h (by omega)]

/-- A node's index fits an index register. -/
theorem toNat_index {c : NodeCfg} (hw : c.wf = true) {q : Nat} (hq : q < cfgNB c) : (BitVec.ofNat 32 q).toNat = q := by
  obtain ⟨_, _, _, _, hle, hN, _⟩ := NodeCfg.wf_spec hw
  rw [BitVec.toNat_ofNat]
  omega

/-- Phase 5 on one engine, before it completes: `NB` subtracted from the counter, its time charged (R187). -/
def Engine.passed (n : Nat) (e : Engine) : Engine :=
  (({ e with rdv := e.rdv - BitVec.ofNat 32 (cfgNB e.cfg) } : Engine).chargeComm n).chargeComp n

theorem State.pass_of_ge {s : State} (h : cfgNB s.cur.cfg ≤ s.cur.rdv.toNat) :
    s.pass = (s.modCur fun e => (e.passed s.draws).complete s.draws).tick := by
  rcases s.pass_cases with ⟨hlt, _⟩ | ⟨_, hp⟩
  exacts [absurd h (by omega), hp]

theorem Engine.toNat_rdv_passed {e : Engine} (n : Nat) (h : cfgNB e.cfg ≤ e.rdv.toNat) :
    (e.passed n).rdv.toNat = e.rdv.toNat - cfgNB e.cfg := by
  have hnb : (BitVec.ofNat 32 (cfgNB e.cfg)).toNat = cfgNB e.cfg := by
    rw [BitVec.toNat_ofNat, Nat.mod_eq_of_lt (h.trans_lt e.rdv.isLt)]
  show (e.rdv - BitVec.ofNat 32 (cfgNB e.cfg)).toNat = _
  rw [BitVec.toNat_sub_of_le (by rwa [BitVec.le_def, hnb]), hnb]

/-- What phase 5 leaves where it passes (R186, R187). -/
theorem State.pass_completes {s : State} (hn : s.node < s.engines.length) (hge : cfgNB s.cur.cfg ≤ s.cur.rdv.toNat)
    (hpc : s.cur.pc ≠ 255#8) :
    s.pass.cur.rdv.toNat = s.cur.rdv.toNat - cfgNB s.cur.cfg ∧ s.pass.cur.pc = s.cur.pc + 1 ∧ s.pass.cur.stage = .begin
      ∧ s.cur.KeepsBuffers s.pass.cur ∧ s.cur.KeepsTables s.pass.cur ∧ s.cur.KeepsControl s.pass.cur
      ∧ s.pass.cur.outstanding = s.cur.outstanding ∧ s.pass.cur.pendingAdd = s.cur.pendingAdd
      ∧ s.pass.cur.outPending = s.cur.outPending ∧ s.pass.cur.log = s.cur.log ∧ s.pass.cur.status = s.cur.status
      ∧ s.KeepsOthers s.pass ∧ s.KeepsWorld s.pass := by
  obtain ⟨comm, comp, hpassed⟩ : ∃ comm comp, s.cur.passed s.draws
      = { s.cur with rdv := (s.cur.passed s.draws).rdv, commCycles := comm, compCycles := comp } := ⟨_, _, rfl⟩
  have hrdv := Engine.toNat_rdv_passed s.draws hge
  generalize (s.cur.passed s.draws).rdv = rdv at hpassed hrdv
  rw [State.pass_of_ge hge, State.cur_one _ hn, Engine.complete_of_ne (e := s.cur.passed s.draws) _ hpc, hpassed]
  exact ⟨hrdv, rfl, rfl, ⟨rfl, rfl⟩, ⟨rfl, rfl, rfl, rfl, rfl⟩, ⟨rfl, rfl, rfl⟩, rfl, rfl, rfl, rfl, rfl, s.keepsOthers_one _,
    s.keepsWorld_one _⟩

/-- Phase 5 leaves the buffers, `OUTSTANDING`, the log and the fabric's answers, whether it waits or passes, at any index. -/
theorem State.pass_keeps {s : State} (hn : s.node < s.engines.length) (b : Buf) :
    s.pass.cur.buf b = s.cur.buf b ∧ s.pass.cur.outstanding = s.cur.outstanding ∧ s.pass.cur.log = s.cur.log
      ∧ s.pass.answers = s.answers := by
  rcases Nat.lt_or_ge s.cur.rdv.toNat (cfgNB s.cur.cfg) with hlt | hge
  · rw [State.pass_of_lt hlt]
    exact ⟨rfl, rfl, rfl, rfl⟩
  · rw [State.pass_of_ge hge, State.cur_one _ hn]
    refine ⟨?_, Engine.complete_outstanding _ _, Engine.complete_log _ _, rfl⟩
    cases b
    exacts [Engine.complete_bufA _ _, Engine.complete_bufB _ _]

theorem State.announce_keeps {s : State} (hn : s.node < s.engines.length) (b : Buf) :
    s.announce.cur.buf b = s.cur.buf b ∧ s.announce.cur.outstanding = s.cur.outstanding ∧ s.announce.cur.log = s.cur.log
      ∧ s.announce.answers = s.answers := by
  rcases s.announce_cases with ⟨_, ha⟩ | ⟨_, ha⟩ <;> rw [ha]
  · exact ⟨rfl, rfl, rfl, rfl⟩
  · obtain ⟨hbuf, hout, hlog, hans⟩ := State.pass_keeps (s := s.modCur Engine.announced) (by simpa using hn) b
    rw [s.cur_modCur _ hn] at hbuf hout hlog
    exact ⟨hbuf.trans (by cases b <;> rfl), hout, hlog, hans⟩

/-- Settles O42: the two waits, the increments posted where no transfer is left, and phase 5 from either wait. -/
theorem transposeAnnouncesAndPasses : Obligations.TransposeAnnouncesAndPasses := by
  intro b s hl hn
  have hw : s.cur.cfg.wf = true := (State.legal_eng hl hn).1
  have hcur : (s.modCur Engine.announced).cur = s.cur.announced := s.cur_modCur _ hn
  refine ⟨fun hst ho => ?_, fun hst ho hlt => ?_, fun hst hlt => ?_, ?_⟩
  · rw [exec_transpose_of_transfers b hst, State.announce_of_outstanding ho]
  · refine ⟨s.modCur Engine.announced, ?_, ?_, ?_, ?_, s.keepsOthers_one _, rfl⟩
    · rw [exec_transpose_of_transfers b hst, State.announce_of_none ho, State.pass_of_lt (by rwa [hcur])]
    · rw [hcur]
      rfl
    · rw [hcur]
      rfl
    · rw [hcur]
      have hP := NodeCfg.p_lt_nb hw
      exact toNat_index hw (by omega)
  · rw [exec_transpose_of_rendezvous b hst, State.pass_of_lt hlt]
  · rintro (hst | ⟨hst, ho⟩) hge hpc
    · obtain ⟨hrdv, hpc', hstage, hbufs, htables, hcontrol, hout, hadd, houtp, hrest⟩ := State.pass_completes hn hge hpc
      exact ⟨_, exec_transpose_of_rendezvous b hst, hrdv, hpc', hstage, hbufs, htables, hcontrol, hout, by simp [hadd, hst], houtp, hrest⟩
    · have hpass := State.pass_completes (s := s.modCur Engine.announced) (by simpa using hn) (by rwa [hcur]) (by rwa [hcur])
      rw [hcur] at hpass
      obtain ⟨hrdv, hpc', hstage, hbufs, htables, hcontrol, hout, hadd, houtp, hlog, hstatus, hothers, hworld⟩ := hpass
      refine ⟨_, exec_transpose_of_transfers b hst, ?_⟩
      rw [State.announce_of_none ho]
      refine ⟨hrdv, hpc', hstage, hbufs, htables, hcontrol, hout, hadd.trans ?_, houtp, hlog, hstatus, ?_, hworld⟩
      · rw [hst, Engine.announced_pendingAdd]
        rfl
      · exact ⟨hothers.1.trans (s.length_modCur _), fun q hq => (hothers.2 q hq).trans (s.eng_modCur_of_ne _ hq)⟩

end Sys2Proof.Machine
end

section
/-! PROOFS. TRANSPOSE in phases 1 and 2, and the whole command on one node (spec 43_transpose_exchange.md R175 to R182, R189, R191). -/

namespace Sys2Proof.Machine

/-! ### What phases 1 and 2 read -/

/-- Every transfer of an enqueue goes to a peer and serves a row of the band. -/
theorem mem_descs_of_mem_xferGroups {g : Grouping} {c : NodeCfg} {b : Buf} {x : XferGroup} {d : XferDesc}
    (h : x ∈ xferGroups g c b) (hd : d ∈ x.descs) : ∃ q r, q < cfgNB c ∧ r < cfgTH c ∧ d = xferDesc c b q r := by
  have hmem : d ∈ (xferGroups g c b).flatMap fun g => g.descs := List.mem_flatMap.2 ⟨x, h, hd⟩
  rw [descs_xferGroups] at hmem
  obtain ⟨q, hq, hmem⟩ := List.mem_flatMap.1 hmem
  obtain ⟨r, hr, rfl⟩ := List.mem_map.1 hmem
  exact ⟨q, r, (mem_peers.1 hq).1, List.mem_range.1 hr, rfl⟩

/-- Every source element of a transfer lies inside the buffer. -/
theorem srcAt_lt_bufElems {g : Grouping} {c : NodeCfg} {b : Buf} {x : XferGroup} {d : XferDesc} {k : Nat} (hw : c.wf = true)
    (h : x ∈ xferGroups g c b) (hd : d ∈ x.descs) (hk : k < d.count) : d.srcAt k < bufElems c := by
  obtain ⟨q, r, hq, hr, rfl⟩ := mem_descs_of_mem_xferGroups h hd
  rw [xferDesc_srcAt]
  exact elemOffset_lt hr (NodeCfg.share_lt hw hq hk)

/-- A buffer that holds values holds those the transfers read. -/
theorem isSome_srcAt {c : NodeCfg} {m : Memory} (hw : c.wf = true) (hh : m.holds (bufElems c)) (g : Grouping) (b : Buf) :
    ∀ x ∈ xferGroups g c b, ∀ d ∈ x.descs, ∀ k, k < d.count → (m.readElem (d.srcAt k)).isSome = true :=
  fun _ hx _ hd _ hk => hh _ (srcAt_lt_bufElems hw hx hd hk)

/-- A buffer that holds values holds those of the retained quadrant. -/
theorem exists_readAll_quadrant {c : NodeCfg} {m : Memory} (hw : c.wf = true) (hh : m.holds (bufElems c)) :
    ∃ quad, readAll m.readElem ((quadrant c).map (quadSrc c)) = some quad :=
  readAll_isSome fun e he => by
    obtain ⟨p, hp, rfl⟩ := List.mem_map.1 he
    exact hh _ (quadSrc_lt hw hp)

/-- Phase 1 reports a failure exactly where it has logged one. -/
theorem enqueueAll_failed_iff {rd : Nat → Option Cplx} {p n k : Nat} {gs : List XferGroup} {ans : List Bool} {t : Sent}
    (h : enqueueAll rd p n k gs ans = some t) : t.failed = true ↔ t.events ≠ [] := by
  induction gs generalizing k ans t with
  | nil => cases h; simp
  | cons g gs ih =>
    simp only [enqueueAll] at h
    split at h
    · split at h
      · rename_i r _ hr
        cases h
        exact ih (t := r) hr
      · cases h
    · split at h
      · cases h
        simp
      · cases h

/-! ### The state after phases 1 and 2 -/

/-- The state that phases 1 and 2 come to, with the quadrant read and what the enqueues left. -/
def State.sentWith (s : State) (b : Buf) (quad : List Cplx) (sent : Sent) : State :=
  { (s.modCur (Engine.sent s.draws b quad sent)).tick with answers := sent.answers }

section
variable {s : State} {b : Buf} {quad : List Cplx} {sent : Sent}

/-- Where no write to the source is in flight, phases 1 and 2 read what the buffer holds. -/
theorem State.send_of_quiet (hq : s.incoming s.node b = [])
    (hquad : readAll (s.cur.buf b).readElem ((quadrant s.cur.cfg).map (quadSrc s.cur.cfg)) = some quad)
    (hsent : enqueueAll (s.cur.buf b).readElem (cfgP s.cur.cfg) s.draws 0 (xferGroups s.params.grouping s.cur.cfg b) s.answers
      = some sent) : s.send b = some (s.sentWith b quad sent) := by
  have hread : s.srcRead b = (s.cur.buf b).readElem := funext (State.srcRead_of_quiet hq)
  unfold State.send
  rw [hread, hquad]
  simp only [hsent]
  rfl

theorem State.cur_sentWith (hn : s.node < s.engines.length) : (s.sentWith b quad sent).cur = Engine.sent s.draws b quad sent s.cur :=
  s.cur_modCur _ hn

/-- From its beginning TRANSPOSE goes through phases 1 and 2 straight into the wait of phase 3 (R175). -/
theorem exec_transpose_of_send (hst : s.cur.stage = .begin) (h : s.send b = some (s.sentWith b quad sent)) :
    exec (.transpose b) s = .next (s.sentWith b quad sent).announce := by
  show execTranspose b s = _
  unfold execTranspose
  rw [hst, h]

/-- The quadrant stands transposed in the destination (R181). -/
theorem Engine.readElem_sent {e : Engine} {n r xc : Nat} (hw : e.cfg.wf = true)
    (hquad : readAll (e.buf b).readElem ((quadrant e.cfg).map (quadSrc e.cfg)) = some quad) (hr : r < cfgTH e.cfg)
    (hxc : xc < cfgTH e.cfg) :
    ((e.sent n b quad sent).buf (other b)).readElem (xc * cfgN e.cfg + (cfgP e.cfg * cfgTH e.cfg + r))
      = (e.buf b).readElem (r * cfgN e.cfg + (cfgP e.cfg * cfgTH e.cfg + xc)) := by
  rw [Engine.sent_buf_other]
  exact readElem_transposed hw _ hquad (p := (r, xc)) (mem_quadrant.2 ⟨hr, hxc⟩)

/-- The destination outside the written quadrant is unchanged (R181). -/
theorem Engine.read_sent_other {e : Engine} {n a : Nat}
    (h : ∀ p ∈ quadrant e.cfg, a < 8 * quadDst e.cfg p ∨ 8 * quadDst e.cfg p + 8 ≤ a) :
    ((e.sent n b quad sent).buf (other b)).read a = (e.buf (other b)).read a := by
  rw [Engine.sent_buf_other]
  refine Memory.read_writeAll_of_outside _ _ fun w hw => ?_
  obtain ⟨p, hp, hp'⟩ := List.mem_map.1 (List.of_mem_zip hw).1
  exact hp' ▸ h p hp

/-- The source outside the retained quadrant is unchanged (R182). -/
theorem Engine.read_sent_source {e : Engine} {n a : Nat}
    (h : ∀ p ∈ quadrant e.cfg, a < 8 * quadSrc e.cfg p ∨ 8 * quadSrc e.cfg p + 8 ≤ a) :
    ((e.sent n b quad sent).buf b).read a = (e.buf b).read a := by
  rw [Engine.sent_buf_source]
  refine Memory.read_writeAll_of_outside _ _ fun w hw => ?_
  obtain ⟨p, hp, rfl⟩ := List.mem_map.1 hw
  exact h p hp

/-- One refusal sets `XFER_ERR`, and no refusal leaves `STATUS` (R179). -/
theorem Engine.status_sent {e : Engine} (n : Nat) (hfailed : sent.failed = true ↔ sent.events ≠ []) :
    (sent.events = [] → (e.sent n b quad sent).status = e.status)
      ∧ (sent.events ≠ [] → flagOf (e.sent n b quad sent).status Flag.xferErr = true)
      ∧ StatusKeptBut Flag.xferErr e.status (e.sent n b quad sent).status := by
  obtain ⟨_, _, _, _, _, hstatus, _⟩ := Engine.sent_spec n b quad sent e
  rw [hstatus]
  by_cases hf : sent.failed = true
  · rw [if_pos hf]
    exact ⟨fun he => absurd he (hfailed.1 hf), fun _ => flagOf_setFlag_self _ _ (by decide), statusKeptBut_setFlag _ _ _⟩
  · rw [if_neg hf]
    exact ⟨fun _ => rfl, fun he => absurd (hfailed.2 he) hf, fun _ _ => rfl⟩

end

/-- `Q` is the last peer served, `R` and `XC` a pair of the quadrant (10_state.md R33). -/
theorem sentRegs_spec {c : NodeCfg} (hw : c.wf = true) (n : Nat) (w : XposeRegs) :
    (∀ q, (peers c).getLast? = some q → (sentRegs n c w).q.toNat = q) ∧ (sentRegs n c w).r.toNat < cfgTH c
      ∧ (sentRegs n c w).xc.toNat < cfgTH c := by
  have hmod : ∀ k, (BitVec.ofNat 32 (k % cfgTH c)).toNat < cfgTH c := fun k => by
    rw [BitVec.toNat_ofNat]
    exact (Nat.mod_le _ _).trans_lt (Nat.mod_lt _ (NodeCfg.th_pos hw))
  refine ⟨fun q hq => ?_, hmod _, hmod _⟩
  rw [sentRegs, hq]
  exact toNat_index hw (mem_peers.1 (List.mem_of_getLast? hq)).1

/-- Settles O36: the answers decide the enqueues, and what the state after phases 1 and 2 holds is known field by field. -/
theorem transposeSends : Obligations.TransposeSends := by
  rintro b s ⟨hl, hn, hst, _⟩ hh hq hlen
  have hw : s.cur.cfg.wf = true := (State.legal_eng hl hn).1
  obtain ⟨quad, hquad⟩ := exists_readAll_quadrant hw hh
  obtain ⟨sent, hsent, hdescs, hcaptured, hevents, _, hanswers⟩ := enqueueAnswersDecide (s.cur.buf b).readElem (cfgP s.cur.cfg) s.draws 0
    (xferGroups s.params.grouping s.cur.cfg b) s.answers hlen (isSome_srcAt hw hh _ b)
  have hexec := exec_transpose_of_send hst (State.send_of_quiet hq hquad hsent)
  have hcur : (s.sentWith b quad sent).cur = Engine.sent s.draws b quad sent s.cur := State.cur_sentWith hn
  have hcount : ∀ tr ∈ sent.out, tr.desc.count = cfgTH s.cur.cfg := fun tr htr => by
    obtain ⟨⟨g, hg, hd⟩, _⟩ := enqueueAll_out hsent tr htr
    exact count_of_mem_xferGroups hg hd
  obtain ⟨hcfg, hpc, hstage, hrun, hiter, _, hout, hlog, htables, hrdv, hadd, houtp, _⟩ := Engine.sent_spec s.draws b quad sent s.cur
  obtain ⟨hkept, hset, hflags⟩ := Engine.status_sent (b := b) (quad := quad) (e := s.cur) s.draws (enqueueAll_failed_iff hsent)
  obtain ⟨hQ, hR, hXC⟩ := sentRegs_spec hw s.draws s.cur.work.xpose
  rw [← hcur] at hcfg hpc hstage hrun hiter hout hlog htables hrdv hadd houtp hkept hset hflags
  have hregs : (s.sentWith b quad sent).cur.work.xpose = sentRegs s.draws s.cur.cfg s.cur.work.xpose := by
    rw [hcur]
    cases b <;> rfl
  rw [← hregs] at hQ hR hXC
  refine ⟨s.sentWith b quad sent, sent.out, sent.events, hexec.trans (exec_transpose_of_transfers b hstage).symm,
    fun ho => by rw [hexec, State.announce_of_outstanding ho], hstage, hpc, fun r xc hr hxc => ?_, fun a ha => ?_, fun a ha => ?_, hout, hdescs,
    fun tr htr => ?_, hlog, hevents, hkept, hset, hflags, hanswers, hrdv, hadd, houtp, hQ, hR, hXC, htables, ⟨hcfg, hiter, hrun⟩,
    s.keepsOthers_one _, rfl, rfl, rfl, rfl⟩
  · rw [hcur, Engine.readElem_sent hw hquad hr hxc]
  · rw [hcur, Engine.read_sent_other ha]
  · rw [hcur, Engine.read_sent_source ha]
  · rw [← hcount tr htr]
    exact hcaptured tr htr

/-! ### One node (R189) -/

/-- A node alone has no peer, so nothing to enqueue. -/
theorem xferGroups_of_alone {c : NodeCfg} (hw : c.wf = true) (h : cfgNB c = 1) (g : Grouping) (b : Buf) : xferGroups g c b = [] := by
  have hpeers : peers c = [] := List.length_eq_zero_iff.1 (by rw [length_peers hw, h])
  cases g <;> simp [xferGroups, hpeers]

/-- Settles O43: phase 1 has nothing to do, phase 2 transposes the whole buffer, and phases 3 to 5 leave it. -/
theorem oneNodeTransposeIsLocal : Obligations.OneNodeTransposeIsLocal := by
  rintro b s ⟨hl, hn, hst, _⟩ hone hh hout hq
  have hw : s.cur.cfg.wf = true := (State.legal_eng hl hn).1
  have hP : cfgP s.cur.cfg = 0 := by
    have hlt := NodeCfg.p_lt_nb hw
    omega
  have hTH : cfgTH s.cur.cfg = cfgN s.cur.cfg := by rw [← NodeCfg.nb_mul_th hw, hone, Nat.one_mul]
  obtain ⟨quad, hquad⟩ := exists_readAll_quadrant hw hh
  obtain ⟨sent, hsent, hnoOut, hnoEvents, hanswers⟩ : ∃ sent, enqueueAll (s.cur.buf b).readElem (cfgP s.cur.cfg) s.draws 0
      (xferGroups s.params.grouping s.cur.cfg b) s.answers = some sent ∧ sent.out = [] ∧ sent.events = [] ∧ sent.answers = s.answers := by
    rw [xferGroups_of_alone hw hone]
    exact ⟨_, rfl, rfl, rfl, rfl⟩
  obtain ⟨_, _, _, _, _, _, hout', hlog, _⟩ := Engine.sent_spec s.draws b quad sent s.cur
  obtain ⟨hbuf, hkeptOut, hkeptLog, hkeptAns⟩ := State.announce_keeps (s := s.sentWith b quad sent)
    (by simpa [State.sentWith] using hn) (other b)
  rw [State.cur_sentWith hn] at hbuf hkeptOut hkeptLog
  refine ⟨_, exec_transpose_of_send hst (State.send_of_quiet hq hquad hsent), ?_, ?_, hkeptAns.trans hanswers, fun x y hx hy => ?_⟩
  · rw [hkeptOut, hout', hout, hnoOut, List.append_nil]
  · rw [hkeptLog, hlog, hnoEvents, List.append_nil]
  · rw [← hTH] at hx hy
    have h := Engine.readElem_sent (n := s.draws) (sent := sent) hw hquad hy hx
    rwa [hP, Nat.zero_mul, Nat.zero_add, Nat.zero_add, ← hbuf] at h

end Sys2Proof.Machine
end

section
/-! PROOFS. The sequencer's turn, the host's start, NEXT and HALT (spec 44_pipeline_driver.md R200, R201, R207, R208). -/

namespace Sys2Proof.Machine

/-! ### Whose turn it is (R200) -/

/-- Settles O4: the turn is the sequencer's in both cases, and its fetch finds the command. -/
theorem stepRunsTheDecodedCommand : Obligations.StepRunsTheDecodedCommand :=
  ⟨fun _ _ _ hl hev hrun hword hdec => (step_of_no_event hl hev).trans (runSequencer_of_command hrun hword hdec),
    fun s q rest _ _ hl hev hrun hword hdec => (step_of_sequencer_event hl hev).trans
      (runSequencer_of_command (s := { s with events := rest, node := q }) hrun hword hdec)⟩

/-- Settles O6: the turn is the sequencer's, and its fetch looks at `RUN` first. -/
theorem sequencerRestsUnlessRunning : Obligations.SequencerRestsUnlessRunning :=
  fun _ hl hev hrun => (step_of_no_event hl hev).trans (runSequencer_of_not_running hrun)

/-! ### The host's start (R201) -/

/-- A change that leaves a node as it is leaves the system as it is. -/
theorem State.modEng_of_eq {s : State} {q : Nat} {f : Engine → Engine} (hq : q < s.engines.length) (h : f (s.eng q) = s.eng q) :
    s.modEng q f = s := by
  unfold State.modEng
  rw [h, s.eng_eq_getElem hq, List.set_getElem_self]

/-- Settles O9: the start's turn changes node `q` by `Engine.start`, which does nothing outside IDLE. -/
theorem startBeginsTheRun : Obligations.StartBeginsTheRun := by
  intro s q rest hl hq hev
  have hstep : step s = .next (({ s with events := rest } : State).modEng q Engine.start) := step_of_world_event hl hev nofun
  refine ⟨fun hrun => ?_, fun hrun => ⟨_, hstep, ?_⟩⟩
  · rw [hstep, State.modEng_of_eq (s := { s with events := rest }) hq (Engine.start_of_not_idle hrun)]
  · have heng := (State.eng_modEng_self { s with events := rest } Engine.start hq).trans (Engine.start_of_idle hrun)
    rw [heng]
    exact ⟨rfl, flagOf_setFlag_self _ _ (by decide), statusKeptBut_setFlag _ _ _, rfl, rfl, rfl, rfl, ⟨rfl, rfl⟩,
      ⟨rfl, rfl, rfl, rfl, rfl⟩, ⟨rfl, rfl, rfl, rfl, rfl⟩, rfl, rfl, rfl, State.length_modEng _ _ _,
      fun p hp => State.eng_modEng_of_ne _ _ hp, rfl⟩

/-! ### NEXT (R207) -/

/-- NEXT changes the iteration count and `PC`, and leaves the command: back to `ITER_ENTRY` with one iteration less, or on with none left. -/
theorem Engine.nextIter_eq (entry : BitVec 8) (n : Nat) {e : Engine} (h : 1 < e.iterLeft.toNat ∨ e.pc ≠ 255#8) :
    ∃ left pc, e.nextIter entry n = { e with iterLeft := left, pc := pc, stage := .begin, work := freeWork n (cfgC e.cfg) }
      ∧ (1 < e.iterLeft.toNat → pc = entry) ∧ (e.iterLeft.toNat ≤ 1 → left = 0 ∧ pc = e.pc + 1) := by
  by_cases hmore : 1 < e.iterLeft.toNat
  · exact ⟨e.iterLeft - 1, entry, if_pos hmore, fun _ => rfl, fun hle => absurd hmore (by omega)⟩
  · have hpc : e.pc ≠ 255#8 := h.resolve_left hmore
    exact ⟨0, e.pc + 1, (if_neg hmore).trans (Engine.complete_of_ne (e := { e with iterLeft := 0 }) n hpc),
      fun hlt => absurd hlt hmore, fun _ => ⟨rfl, rfl⟩⟩

/-- Settles O33: NEXT changes the iteration count and `PC` alone, as the iterations left say. -/
theorem nextCountsIterations : Obligations.NextCountsIterations := by
  refine ⟨by decide, fun s _ hn h => ⟨_, rfl, ?_⟩⟩
  have hleft := Engine.nextIter_iterLeft s.params.iterEntry s.draws s.cur
  obtain ⟨left, pc, hnext, hloop, hlast⟩ := Engine.nextIter_eq s.params.iterEntry s.draws h
  rw [State.cur_one _ hn]
  rw [hnext] at hleft ⊢
  exact ⟨fun hmore => ⟨hleft, hloop hmore⟩, hlast, rfl, rfl, rfl, rfl, ⟨rfl, rfl⟩, ⟨rfl, rfl, rfl, rfl, rfl⟩,
    ⟨rfl, rfl, rfl, rfl, rfl⟩, s.keepsOthers_one _, s.keepsWorld_one _⟩

/-! ### HALT (R208) -/

/-- Settles O34: HALT writes `RUN` and `DONE`, and a sequencer in DONE rests. -/
theorem haltStopsTheSequencer : Obligations.HaltStopsTheSequencer := by
  refine ⟨by decide, fun s _ hn => ⟨_, rfl, ?_⟩⟩
  rw [State.cur_one _ hn]
  refine ⟨rfl, flagOf_setFlag_self _ _ (by decide), statusKeptBut_setFlag _ _ _, rfl, rfl, rfl, rfl, ⟨rfl, rfl⟩,
    ⟨rfl, rfl, rfl, rfl, rfl⟩, ⟨rfl, rfl, rfl, rfl, rfl⟩, s.keepsOthers_one _, s.keepsWorld_one _, fun u hl hev hrun => ?_⟩
  refine sequencerRestsUnlessRunning u hl hev ?_
  rw [hrun]
  exact nofun

end Sys2Proof.Machine
end

section
/-! PROOFS. The commands of the sequencer that wait: INGEST, EMIT with its fence, and BARRIER (spec 44_pipeline_driver.md R202 to R206,
60_exceptions.md R233). -/

namespace Sys2Proof.Machine

/-! ### The fabric's answer (20_memory.md R80) -/

theorem Engine.answered_of_reading {e : Engine} (h : e.stage = .reading) : e.answered = e.atStage .read := by
  unfold Engine.answered
  rw [h]

theorem Engine.answered_of_writing {e : Engine} (h : e.stage = .writing) : e.answered = e.atStage .fence := by
  unfold Engine.answered
  rw [h]

/-- The turn of the fabric's answer to the current node changes the stage of that node alone. -/
theorem step_answer {s : State} {rest : List Event} {st : Stage} (hl : s.legal = true) (hn : s.node < s.engines.length)
    (hev : s.events = .answer s.node :: rest) (h : s.cur.answered = s.cur.atStage st) :
    ∃ t, step s = .next t ∧ t.cur = { s.cur with stage := st } ∧ s.KeepsOthers t
      ∧ t = { s with engines := t.engines, events := rest } :=
  ⟨({ s with events := rest } : State).modEng s.node Engine.answered, step_of_world_event hl hev nofun,
    (s.cur_modCur Engine.answered hn).trans h, s.keepsOthers_one Engine.answered, rfl⟩

/-! ### The elements of the band in the regions (R205) -/

/-- Local element `(r, x)` stands in a region where global element `(BAND_OFFSET + r, x)` does. -/
theorem bandAddress_elemOffset {c : NodeCfg} (hw : c.wf = true) (r x : Nat) :
    bandAddress c (r * cfgN c + x) = 8 * ((bandOffset c + r) * c.width.toNat + x) := by
  obtain ⟨_, _, _, _, _, _, hwidth, _⟩ := NodeCfg.wf_spec hw
  rw [hwidth]
  unfold bandAddress bandByteOffset bandBytes bandOffset cfgN
  ring

@[simp] theorem State.length_inBand (s : State) (c : NodeCfg) : (s.inBand c).length = bufElems c := by
  simp [State.inBand]

theorem State.getElem?_inBand (s : State) {c : NodeCfg} {e : Nat} (h : e < bufElems c) :
    (s.inBand c)[e]? = some (s.inElem (bandAddress c e)) := by
  simp [State.inBand, h]

/-! ### INGEST (R202) -/

theorem exec_ingest_of_begin {s : State} (b : Buf) (h : s.cur.stage = .begin) :
    exec (.ingest b) s = .next (s.modCur (Engine.atStage .reading)) := by
  simp only [exec, execIngest, h]

theorem exec_ingest_of_reading {s : State} (b : Buf) (h : s.cur.stage = .reading) : exec (.ingest b) s = .next s := by
  simp only [exec, execIngest, h]

theorem exec_ingest_of_read {s : State} (b : Buf) (h : s.cur.stage = .read) : exec (.ingest b) s = .next (s.ingested b) := by
  simp only [exec, execIngest, h]

theorem State.ingested_compCycles {s : State} (b : Buf) (hn : s.node < s.engines.length) :
    (s.ingested b).cur.compCycles = s.cur.compCycles := by
  have hsn : (s.settle b).node < (s.settle b).engines.length := by simpa using hn
  rw [State.ingested_eq, State.cur_one _ hsn, Engine.complete_compCycles, Engine.chargeComm_compCycles, Engine.setBuf_compCycles,
    s.cur_settle b]

/-- Settles O28: the read posted, the wait and its answer change the stage alone, and the buffer that INGEST replaces holds the band. -/
theorem ingestCopiesTheBand : Obligations.IngestCopiesTheBand := by
  refine ⟨fun b s hl hn => ⟨fun hst => ⟨_, exec_ingest_of_begin b hst, ?_,
      s.keepsOthers_one (Engine.atStage .reading), s.keepsWorld_one (Engine.atStage .reading)⟩,
    fun hst => ⟨exec_ingest_of_reading b hst, fun rest hev => step_answer hl hn hev (Engine.answered_of_reading hst)⟩⟩, ?_⟩
  · rw [s.cur_modCur _ hn]
    rfl
  · rintro b s ⟨hl, hn, hst, hpc⟩
    have hw : s.cur.cfg.wf = true := (State.legal_eng hl hn).1
    obtain ⟨hpc', hstage, hbuf, hother, htables, hstatus, hrdv, hadd, hout, hlog, hcontrol, hworld, hquiet⟩ :=
      settleThen_spec (charge := Engine.chargeComm s.draws) (State.ingested_eq b s) (fun _ => ⟨_, _, rfl⟩) hn hpc
    refine ⟨_, exec_ingest_of_read b hst, hpc', hstage, fun r c hr hc => ?_, ?_, hother, htables, hstatus, hrdv, hadd, hout, hlog,
      hcontrol, State.ingested_compCycles b hn, hworld, hquiet⟩
    · have hlt : r * cfgN s.cur.cfg + c < bufElems s.cur.cfg := elemOffset_lt hr hc
      rw [hbuf, Memory.readElem_writeElems_zero _ (by simpa using hlt), s.getElem?_inBand hlt, bandAddress_elemOffset hw]
    · have hkept := Memory.keptFrom_writeElems_zero (s.cur.buf b) (s.inBand s.cur.cfg)
      rwa [State.length_inBand, ← hbuf] at hkept

/-! ### EMIT's hand-over (R203) -/

/-- EMIT on one engine that holds the band's elements `vs`: their bytes handed to the fabric, which has yet to take them. -/
def Engine.handedOver (n : Nat) (vs : List Cplx) (e : Engine) : Engine :=
  { e with outPending := e.outPending ++ outWrites [] n e.cfg 0 vs, stage := .writing }

theorem exec_emit_of_begin {s : State} {b : Buf} {vs : List Cplx} (hst : s.cur.stage = .begin) (hq : s.incoming s.node b = [])
    (hread : (s.cur.buf b).readElems 0 (bufElems s.cur.cfg) = some vs) :
    exec (.emit b) s = .next (s.modCur (Engine.handedOver s.draws vs)).tick := by
  have hover : s.handOver b = some (s.modCur (Engine.handedOver s.draws vs)).tick := by
    unfold State.handOver
    rw [hread, hq]
    rfl
  simp only [exec, execEmit, hst, hover]

/-- Settles O29: the bytes handed over are those of the elements in order, eight for each. -/
theorem emitHandsOverTheBand : Obligations.EmitHandsOverTheBand := by
  rintro b s ⟨hl, hn, hst, _⟩ hholds hq
  have hw : s.cur.cfg.wf = true := (State.legal_eng hl hn).1
  obtain ⟨vs, hread⟩ := Memory.readElems_isSome (k := 0) fun i hi => by
    rw [Nat.zero_add]
    exact hholds i hi
  obtain ⟨hlen, helems⟩ := Memory.readElems_eq_some.1 hread
  refine ⟨_, outWrites [] s.draws s.cur.cfg 0 vs, exec_emit_of_begin hst hq hread, ?_⟩
  rw [State.cur_one _ hn]
  refine ⟨rfl, rfl, rfl, by rw [length_outWrites, hlen], fun r c v k hr hc hv => ?_, ⟨rfl, rfl⟩, ⟨rfl, rfl, rfl, rfl, rfl⟩,
    ⟨rfl, rfl, rfl⟩, rfl, rfl, rfl, rfl, rfl, rfl, s.keepsOthers_one _, s.keepsWorld_one _⟩
  have hbyte (j : Nat) (hj : j < 8) : (outWrites [] s.draws s.cur.cfg 0 vs)[8 * (r * cfgN s.cur.cfg + c) + j]?
      = some { off := 8 * ((bandOffset s.cur.cfg + r) * s.cur.cfg.width.toNat + c) + j, val := elemByte v j } := by
    have helem := helems _ (elemOffset_lt hr hc)
    rw [Nat.zero_add, elemOffset, hv] at helem
    rw [getElem?_outWrites_nil _ _ _ _ _ hj, ← helem, Nat.zero_add, bandAddress_elemOffset hw, Option.map_some]
  refine ⟨fun hk => ?_, fun hk => ?_⟩
  · rw [hbyte k (by omega), elemByte, if_pos hk, byteOf]
  · rw [Nat.add_assoc, hbyte (4 + k) (by omega), elemByte, if_neg (by omega), Nat.add_sub_cancel_left, byteOf, Nat.add_assoc]

/-! ### The end of a wait -/

/-- The current node's command completed behind its wait, its time charged as communication (R214). -/
def State.waited (s : State) : State := (s.modCur fun e => (e.chargeComm s.draws).complete s.draws).tick

/-- What the end of a wait leaves. -/
theorem State.waited_spec {s : State} (hn : s.node < s.engines.length) (hpc : s.cur.pc ≠ 255#8) :
    s.waited.cur.pc = s.cur.pc + 1 ∧ s.waited.cur.stage = .begin ∧ s.cur.KeepsBuffers s.waited.cur
      ∧ s.cur.KeepsTables s.waited.cur ∧ s.cur.KeepsExchange s.waited.cur ∧ s.cur.KeepsControl s.waited.cur
      ∧ s.waited.cur.status = s.cur.status ∧ s.waited.cur.compCycles = s.cur.compCycles ∧ s.KeepsOthers s.waited
      ∧ s.KeepsWorld s.waited := by
  have hcur : s.waited.cur = { (s.cur.chargeComm s.draws).leave s.draws with pc := s.cur.pc + 1 } :=
    (State.cur_one _ hn).trans (Engine.complete_of_ne (e := s.cur.chargeComm s.draws) _ hpc)
  rw [hcur]
  exact ⟨rfl, rfl, ⟨rfl, rfl⟩, ⟨rfl, rfl, rfl, rfl, rfl⟩, ⟨rfl, rfl, rfl, rfl, rfl⟩, ⟨rfl, rfl, rfl⟩, rfl, rfl, s.keepsOthers_one _,
    s.keepsWorld_one _⟩

/-! ### EMIT behind its hand-over (R203, R204) -/

theorem exec_emit_of_writing {s : State} (b : Buf) (h : s.cur.stage = .writing) : exec (.emit b) s = .next s := by
  simp only [exec, execEmit, h]

theorem exec_emit_of_fence {s : State} (b : Buf) (h : s.cur.stage = .fence) : exec (.emit b) s = .next s.fenced := by
  simp only [exec, execEmit, h]

theorem State.fenced_of_pending {s : State} (h : s.cur.outPending ≠ []) : s.fenced = s := by
  rcases s.fenced_cases with ⟨_, hf⟩ | ⟨hnone, _⟩
  exacts [hf, absurd hnone h]

theorem State.fenced_of_none {s : State} (h : s.cur.outPending = []) : s.fenced = s.waited := by
  rcases s.fenced_cases with ⟨hsome, _⟩ | ⟨_, hf⟩
  exacts [absurd h hsome, hf]

/-- Settles O30: the wait for the answer, the fence that does not hold, and the end of the fence. -/
theorem emitCompletesBehindTheFence : Obligations.EmitCompletesBehindTheFence := by
  intro b s hl hn
  refine ⟨fun hst => ⟨exec_emit_of_writing b hst, fun rest hev => step_answer hl hn hev (Engine.answered_of_writing hst)⟩,
    fun hst hpending => ?_, fun hst hnone hpc => ⟨s.waited, ?_, State.waited_spec hn hpc⟩⟩
  · rw [exec_emit_of_fence b hst, State.fenced_of_pending hpending]
  · rw [exec_emit_of_fence b hst, State.fenced_of_none hnone]

/-! ### BARRIER (R206) -/

theorem exec_barrier_of_begin {s : State} (h : s.cur.stage = .begin) : exec .barrier s = .next s.arrive.waitBarrier := by
  simp only [exec, execBarrier, h]

theorem exec_barrier_of_barrier {s : State} (h : s.cur.stage = .barrier) : exec .barrier s = .next s.waitBarrier := by
  simp only [exec, execBarrier, h]

/-- A barrier is released once no node of the system has begun fewer. -/
theorem State.released_iff {s : State} (hl : s.legal = true) (q : Nat) :
    s.released q = true ↔ ∀ p, p < s.engines.length → s.arrivalsOf q ≤ s.arrivalsOf p := by
  have hc := State.legal_counts hl
  have hget : ∀ p, (hp : p < s.arrivals.length) → s.arrivalsOf p = s.arrivals[p] := fun p hp => List.getD_eq_getElem _ _ hp
  simp only [State.released, List.all_eq_true, decide_eq_true_eq, List.forall_mem_iff_getElem, hc]
  exact forall₂_congr fun p hp => by rw [hget p (by omega)]

theorem State.waitBarrier_of_missing {s : State} {q : Nat} (hl : s.legal = true) (hq : q < s.engines.length)
    (h : s.arrivalsOf q < s.arrivalsOf s.node) : s.waitBarrier = s := by
  rcases s.waitBarrier_cases with ⟨_, hw⟩ | ⟨hr, _⟩
  · exact hw
  · exact absurd ((State.released_iff hl _).1 hr q hq) (by omega)

theorem State.waitBarrier_of_all {s : State} (hl : s.legal = true)
    (h : ∀ q, q < s.engines.length → s.arrivalsOf s.node ≤ s.arrivalsOf q) : s.waitBarrier = s.waited := by
  rcases s.waitBarrier_cases with ⟨hr, _⟩ | ⟨_, hw⟩
  · rw [(State.released_iff hl _).2 h] at hr
    cases hr
  · exact hw

theorem State.arrive_cur {s : State} (hn : s.node < s.engines.length) : s.arrive.cur = s.cur.atStage .barrier :=
  State.cur_modCur { s with arrivals := s.arrivals.set s.node (s.arrivalsOf s.node + 1) } _ hn

theorem State.arrivalsOf_arrive_self {s : State} (hl : s.legal = true) (hn : s.node < s.engines.length) :
    s.arrive.arrivalsOf s.node = s.arrivalsOf s.node + 1 := by
  rw [← State.legal_counts hl] at hn
  show (s.arrivals.set s.node (s.arrivalsOf s.node + 1)).getD s.node 0 = _
  rw [List.getD_eq_getElem?_getD, List.getElem?_set_self hn, Option.getD_some]

@[simp] theorem State.length_arrive (s : State) : s.arrive.engines.length = s.engines.length := s.sameShape_arrive.nodes

theorem State.legal_arrive (s : State) : s.arrive.legal = s.legal :=
  s.sameShape_arrive.legal_eq fun q => State.eng_modEng_keeps _ s.node q (Engine.atStage .barrier) Engine.cfg fun _ => rfl

theorem State.keepsOthers_arrive (s : State) : s.KeepsOthers s.arrive :=
  ⟨s.length_arrive, fun _ hq => s.eng_arrive_of_ne hq⟩

/-- A system without some node's arrival waits after this node's own (R206). -/
theorem exec_barrier_of_missing {s : State} {q : Nat} (hl : s.legal = true) (hn : s.node < s.engines.length)
    (hq : q < s.engines.length) (hne : q ≠ s.node) (hst : s.cur.stage = .begin) (h : s.arrivalsOf q ≤ s.arrivalsOf s.node) :
    exec .barrier s = .next s.arrive := by
  have hwait : s.arrive.arrivalsOf q < s.arrive.arrivalsOf s.node := by
    rw [State.arrivalsOf_arrive_self hl hn, s.arrivalsOf_arrive_of_ne hne]
    omega
  rw [exec_barrier_of_begin hst, State.waitBarrier_of_missing (s.legal_arrive.trans hl) (by simpa using hq) hwait]

/-- The node that arrives last completes at once (R206). -/
theorem exec_barrier_of_last {s : State} (hl : s.legal = true) (hn : s.node < s.engines.length) (hst : s.cur.stage = .begin)
    (h : ∀ q, q < s.engines.length → q ≠ s.node → s.arrivalsOf s.node + 1 ≤ s.arrivalsOf q) :
    exec .barrier s = .next s.arrive.waited := by
  have hall : ∀ q, q < s.engines.length → s.arrive.arrivalsOf s.node ≤ s.arrive.arrivalsOf q := fun q hq => by
    by_cases hne : q = s.node
    · rw [hne]
    · rw [State.arrivalsOf_arrive_self hl hn, s.arrivalsOf_arrive_of_ne hne]
      exact h q hq hne
  rw [exec_barrier_of_begin hst, State.waitBarrier_of_all (s.legal_arrive.trans hl) fun q hq => hall q (by simpa using hq)]

/-- Settles O32: the arrival and the wait where a node is missing, and the end of the wait from either stage. -/
theorem barrierJoinsAllNodes : Obligations.BarrierJoinsAllNodes := by
  refine ⟨fun s q hl hn hq => ⟨fun hst hne hle => ?_, fun hst hlt => ?_⟩, ?_⟩
  · refine ⟨s.arrive, exec_barrier_of_missing hl hn hq hne hst hle, State.arrivalsOf_arrive_self hl hn,
      fun p hp => s.arrivalsOf_arrive_of_ne hp, ?_, s.keepsOthers_arrive, rfl⟩
    rw [State.arrive_cur hn]
    rfl
  · rw [exec_barrier_of_barrier hst, State.waitBarrier_of_missing hl hq hlt]
  · rintro s hl hn hpc (⟨hst, hall⟩ | ⟨hst, hall⟩)
    · obtain ⟨hpc', hstage, hbufs, htables, hexchange, hcontrol, hstatus, hcomp, hothers, _⟩ := State.waited_spec hn hpc
      refine ⟨s.waited, ?_, hpc', hstage, ?_, fun _ _ => rfl, hbufs, htables, hexchange, hcontrol, hstatus, hcomp, hothers, rfl, rfl, rfl⟩
      · rw [exec_barrier_of_barrier hst, State.waitBarrier_of_all hl hall]
      · rw [hst]
        rfl
    · have hcur := State.arrive_cur hn
      obtain ⟨hpc', hstage, hbufs, htables, hexchange, hcontrol, hstatus, hcomp, hothers, _⟩ :=
        State.waited_spec (s := s.arrive) (by rwa [s.length_arrive]) (by rwa [hcur])
      rw [hcur] at hpc' hbufs htables hexchange hcontrol hstatus hcomp
      refine ⟨_, exec_barrier_of_last hl hn hst hall, hpc', hstage, ?_, fun p hp => s.arrivalsOf_arrive_of_ne hp, hbufs, htables,
        hexchange, hcontrol, hstatus, hcomp, ?_, rfl, rfl, rfl⟩
      · rw [if_pos hst]
        exact State.arrivalsOf_arrive_self hl hn
      · exact ⟨hothers.1.trans s.length_arrive, fun q hq => (hothers.2 q hq).trans (s.eng_arrive_of_ne hq)⟩

end Sys2Proof.Machine
end

section
/-! PROOFS. The illegal fetch: when a running sequencer's fetch finds no command, and what the fatal entry writes of `STATUS` (spec
60_exceptions.md R228, R230, 30_encoding.md R105). -/

namespace Sys2Proof.Machine

/-! ### The fetch -/

/-- A running sequencer whose fetch finds no command at `PC` has made an illegal fetch. -/
theorem State.fetch_of_no_command {s : State} (hrun : s.cur.run = .running)
    (h : ∀ w i, s.params.prog[s.cur.pc.toNat]? = some w → decode w ≠ .ok i) : s.fetch = .illegal := by
  cases hf : s.fetch with
  | illegal => rfl
  | command i =>
    obtain ⟨_, w, hword, hdec⟩ := State.fetch_command hf
    exact absurd hdec (h w i hword)
  | noStep =>
    unfold State.fetch at hf
    rw [if_pos hrun] at hf
    split_ifs at hf
    split at hf <;> cases hf

theorem step_of_illegal_fetch {s : State} (hl : s.legal = true) (hev : s.events = []) (h : s.fetch = .illegal) :
    step s = .next s.illegalFetch := by
  rw [step_of_no_event hl hev, runSequencer, h]

/-- Neither beyond the program's end nor in an illegal word is there a command. -/
theorem no_command_of_illegal {p : List CmdWord} {k : Nat}
    (h : p.length ≤ k ∨ ∃ w, p[k]? = some w ∧ illegalWord w = true) (w : CmdWord) (i : Instr) (hw : p[k]? = some w) :
    decode w ≠ .ok i := by
  intro hdec
  rcases h with hend | ⟨v, hv, hbad⟩
  · exact absurd (List.getElem?_eq_some_iff.1 hw).1 (by omega)
  · obtain rfl : v = w := Option.some.inj (hv.symm.trans hw)
    exact absurd ((illegalWord_eq_false_iff_decode v).2 ⟨i, hdec⟩) (by simp [hbad])

/-! ### `STATUS` at the fatal entry (R230) -/

theorem Engine.flagOf_fatalEntry_fatal (c : FatalCause) (e : Engine) : flagOf (e.fatalEntry c).status Flag.fatal = true := by
  rw [Engine.fatalEntry_status, flagOf_setCode _ _ (by decide), flagOf_setFlag_self _ _ (by decide)]

/-- The fatal entry keeps every bit of `STATUS` outside `FATAL` and `CODE`. -/
theorem Engine.getLsbD_fatalEntry_of_ne (c : FatalCause) (e : Engine) {k : Nat} (hfatal : k ≠ Flag.fatal) (hcode : k < 8 ∨ 16 ≤ k) :
    (e.fatalEntry c).status.getLsbD k = e.status.getLsbD k := by
  rw [Engine.fatalEntry_status, getLsbD_setCode, if_neg (by omega), statusKeptBut_setFlag _ _ _ k hfatal]

/-! ### The statement -/

/-- Settles O5: no command is found, and the fatal entry writes `RUN`, `FATAL` and `CODE` of the node alone. -/
theorem illegalFetchIsFatal : Obligations.IllegalFetchIsFatal := by
  refine ⟨fun s hl hn hev hrun hillegal => ?_, by decide⟩
  have hfetch : s.fetch = .illegal := State.fetch_of_no_command hrun (no_command_of_illegal hillegal)
  have hcur : s.illegalFetch.cur = s.cur.fatalEntry .illegalCmd := s.cur_modCur _ hn
  refine ⟨s.illegalFetch, step_of_illegal_fetch hl hev hfetch, ?_⟩
  rw [hcur]
  exact ⟨rfl, s.cur.flagOf_fatalEntry_fatal _, codeOf_setCode _ _, fun _ hfatal hcode => s.cur.getLsbD_fatalEntry_of_ne _ hfatal hcode,
    rfl, rfl, rfl, ⟨rfl, rfl⟩, ⟨rfl, rfl, rfl, rfl, rfl⟩, ⟨rfl, rfl, rfl, rfl, rfl⟩, rfl, rfl, rfl, s.keepsOthers_one _,
    s.keepsWorld_one (Engine.fatalEntry .illegalCmd)⟩

end Sys2Proof.Machine
end

section
/-! PROOFS. The host's reset: the state it leaves, and the traffic in flight that bars it (spec 70_reset_and_hazards.md R255, R257). -/

namespace Sys2Proof.Machine

/-! ### The state the host's reset leaves -/

/-- Every engine reset under its own configuration and every arrival count zero (R255, R257). -/
def State.allReset (s : State) : State :=
  { s with engines := s.engines.map fun e => Engine.reset e.cfg, arrivals := s.engines.map fun _ => 0 }

theorem State.length_allReset (s : State) : s.allReset.engines.length = s.engines.length := List.length_map _

theorem State.eng_allReset {s : State} {q : Nat} (hq : q < s.engines.length) : s.allReset.eng q = Engine.reset (s.eng q).cfg := by
  rw [State.eng_eq_getElem _ (by rwa [s.length_allReset]), s.eng_eq_getElem hq]
  exact List.getElem_map _

theorem State.arrivalsOf_allReset (s : State) (q : Nat) : s.allReset.arrivalsOf q = 0 := by
  simp [State.arrivalsOf, State.allReset]

/-! ### When it is refused -/

/-- A transfer or an increment in flight at any node bars the reset (R255). -/
theorem State.not_resettable_of_traffic {s : State} {q : Nat} (hq : q < s.engines.length)
    (h : (s.eng q).outstanding ≠ [] ∨ (s.eng q).pendingAdd ≠ []) : ¬ s.resettable = true := by
  intro hr
  have hquiet : (s.eng q).quiet = true := by
    rw [State.resettable, Bool.and_eq_true] at hr
    exact List.all_eq_true.1 hr.1 _ (s.eng_mem hq)
  simp only [Engine.quiet, Bool.and_eq_true, List.isEmpty_iff] at hquiet
  obtain ⟨⟨hout, hadd⟩, _⟩ := hquiet
  exact h.elim (· hout) (· hadd)

/-! ### The step -/

theorem step_reset_of_resettable {s : State} {rest : List Event} (hl : s.legal = true) (hev : s.events = .reset :: rest)
    (hr : s.resettable = true) : step s = .next ({ s with events := rest } : State).allReset := by
  rw [step_of_world_event hl hev nofun]
  exact if_pos hr

theorem step_reset_of_not_resettable {s : State} {rest : List Event} (hl : s.legal = true) (hev : s.events = .reset :: rest)
    (hr : ¬ s.resettable = true) : step s = .refused .resetInFlight := by
  rw [step_of_world_event hl hev nofun]
  exact if_neg hr

/-- Settles O10: a reset within the host's contract leaves `State.allReset`, and traffic in flight takes it out of the contract. -/
theorem hostResetRestoresResetValues : Obligations.HostResetRestoresResetValues := by
  refine fun s rest hl hev => ⟨fun hr => ?_, fun ⟨q, hq, htraffic⟩ => ?_⟩
  · refine ⟨_, step_reset_of_resettable hl hev hr, State.length_allReset _, fun q hq => ?_, State.arrivalsOf_allReset _, rfl, rfl, rfl⟩
    rw [State.eng_allReset (s := { s with events := rest }) hq]
    rfl
  · exact step_reset_of_not_resettable hl hev (State.not_resettable_of_traffic hq htraffic)

end Sys2Proof.Machine
end
